-- ==== Sys2Proof/Word.lean ====
section
/-! DEFINITION. The machine's words: a register word, a byte, a bit sequence (00_scope.md R11, R14). -/

namespace Sys2Proof

/-- A 32-bit register or command word (10_state.md R41, 30_encoding.md R140). -/
abbrev Word := BitVec 32

/-- One byte of LMEM, one symbol (00_scope.md R10, R19). -/
abbrev Byte := BitVec 8

/-- A bit sequence, first bit at the head; `true` is the element 1 (00_scope.md R14). -/
abbrev Bits := List Bool

end Sys2Proof
end

