-- ==== Sys2Proof/Syntax.lean ====
section
/-! DEFINITION. The command set FC-CMD version 1: one constructor per row of the opcode map, 30_encoding.md R144. -/

namespace Sys2Proof

/-- A decoded command. `n` is the bit count ARG of format F1 (30_encoding.md R142), legal 1..32. -/
inductive Instr where
  | nop
  | bsClear
  | bsPut (n : Nat)
  | bsFlush
  | bsLoad
  | bsGet (n : Nat)
  | hufFreq
  | hufTree
  | hufCodes
  | hufEncode
  | hufDecode
  | lzwEncode
  | lzwDecode
  | dctFwd
  | dctQuant
  | dctInv
  | dctBlock
  | dctFrame
  deriving DecidableEq, Repr

/-- The mnemonic of 30_encoding.md R144, as a host script spells it (R160). -/
def Instr.mnemonic : Instr → String
  | .nop => "NOP"
  | .bsClear => "BS_CLEAR"
  | .bsPut _ => "BS_PUT"
  | .bsFlush => "BS_FLUSH"
  | .bsLoad => "BS_LOAD"
  | .bsGet _ => "BS_GET"
  | .hufFreq => "HUF_FREQ"
  | .hufTree => "HUF_TREE"
  | .hufCodes => "HUF_CODES"
  | .hufEncode => "HUF_ENCODE"
  | .hufDecode => "HUF_DECODE"
  | .lzwEncode => "LZW_ENCODE"
  | .lzwDecode => "LZW_DECODE"
  | .dctFwd => "DCT_FWD"
  | .dctQuant => "DCT_QUANT"
  | .dctInv => "DCT_INV"
  | .dctBlock => "DCT_BLOCK"
  | .dctFrame => "DCT_FRAME"

end Sys2Proof
end

