-- ==== Sys2Proof/WellFormed.lean ====
section
/-! DEFINITION. Which command terms are commands: the one operand check of the command set, the bit count of format F1 (30_encoding.md R142, R143). -/

namespace Sys2Proof

/-- The bit count of BS_PUT and BS_GET is 1..32 (30_encoding.md R142); 0 and 33 or more are no such commands (R145). -/
def countOk (n : Nat) : Bool := 1 ≤ n && n ≤ 32

/-- A term that some command word encodes. -/
def Instr.wf : Instr → Bool
  | .bsPut n => countOk n
  | .bsGet n => countOk n
  | .nop => true
  | .bsClear => true
  | .bsFlush => true
  | .bsLoad => true
  | .hufFreq => true
  | .hufTree => true
  | .hufCodes => true
  | .hufEncode => true
  | .hufDecode => true
  | .lzwEncode => true
  | .lzwDecode => true
  | .dctFwd => true
  | .dctQuant => true
  | .dctInv => true
  | .dctBlock => true
  | .dctFrame => true

end Sys2Proof
end

