-- ==== Sys2Proof/Decode.lean ====
section
/-! DEFINITION. Decoding a command word, total on 32-bit words and rejecting by name (30_encoding.md R144-R147), and the encoder written from the same table. -/

namespace Sys2Proof

/-- Why a word is no command (30_encoding.md R145). -/
inductive Illegal where
  /-- `w[31:16]` is not 0. -/
  | reservedBits
  /-- `w[7:0]` is no OPC of R144. -/
  | unassignedOpcode
  /-- The row is F0 and `w[15:8]` is not 0. -/
  | argNotZero
  /-- The row is F1 and `w[15:8]` is 0 or above 32. -/
  | countOutOfRange
  deriving DecidableEq, Repr

/-- The field OPC, bits 7:0 (30_encoding.md R141). -/
def opcField (w : Word) : Nat := (w.extractLsb' 0 8).toNat

/-- The field ARG, bits 15:8 (30_encoding.md R141, R142). -/
def argField (w : Word) : Nat := (w.extractLsb' 8 8).toNat

/-- The field RSV, bits 31:16 (30_encoding.md R141). -/
def rsvField (w : Word) : Nat := (w.extractLsb' 16 16).toNat

/-- An F0 row: ARG must be 0 (30_encoding.md R141, R147). -/
def decodeF0 (arg : Nat) (i : Instr) : Except Illegal Instr :=
  if arg = 0 then .ok i else .error .argNotZero

/-- An F1 row: the bit count must be 1..32 (30_encoding.md R142, R147). -/
def decodeF1 (arg : Nat) (i : Nat → Instr) : Except Illegal Instr :=
  if countOk arg then .ok (i arg) else .error .countOutOfRange

/-- The opcode map, 30_encoding.md R144, applied to the word's ARG. -/
def decodeRow (opc arg : Nat) : Except Illegal Instr :=
  match opc with
  | 0x00 => decodeF0 arg .nop
  | 0x10 => decodeF0 arg .bsClear
  | 0x11 => decodeF1 arg .bsPut
  | 0x12 => decodeF0 arg .bsFlush
  | 0x13 => decodeF0 arg .bsLoad
  | 0x14 => decodeF1 arg .bsGet
  | 0x20 => decodeF0 arg .hufFreq
  | 0x21 => decodeF0 arg .hufTree
  | 0x22 => decodeF0 arg .hufCodes
  | 0x23 => decodeF0 arg .hufEncode
  | 0x24 => decodeF0 arg .hufDecode
  | 0x30 => decodeF0 arg .lzwEncode
  | 0x31 => decodeF0 arg .lzwDecode
  | 0x40 => decodeF0 arg .dctFwd
  | 0x41 => decodeF0 arg .dctQuant
  | 0x42 => decodeF0 arg .dctInv
  | 0x43 => decodeF0 arg .dctBlock
  | 0x44 => decodeF0 arg .dctFrame
  | _ => .error .unassignedOpcode

/-- The decode function of 30_encoding.md R147. -/
def decode (w : Word) : Except Illegal Instr :=
  if rsvField w = 0 then decodeRow (opcField w) (argField w) else .error .reservedBits

/-- The column OPC of 30_encoding.md R144. -/
def Instr.opc : Instr → Nat
  | .nop => 0x00
  | .bsClear => 0x10
  | .bsPut _ => 0x11
  | .bsFlush => 0x12
  | .bsLoad => 0x13
  | .bsGet _ => 0x14
  | .hufFreq => 0x20
  | .hufTree => 0x21
  | .hufCodes => 0x22
  | .hufEncode => 0x23
  | .hufDecode => 0x24
  | .lzwEncode => 0x30
  | .lzwDecode => 0x31
  | .dctFwd => 0x40
  | .dctQuant => 0x41
  | .dctInv => 0x42
  | .dctBlock => 0x43
  | .dctFrame => 0x44

/-- The field ARG of a command: the bit count of format F1, else 0 (30_encoding.md R141, R142). -/
def Instr.arg : Instr → Nat
  | .bsPut n => n
  | .bsGet n => n
  | .nop => 0
  | .bsClear => 0
  | .bsFlush => 0
  | .bsLoad => 0
  | .hufFreq => 0
  | .hufTree => 0
  | .hufCodes => 0
  | .hufEncode => 0
  | .hufDecode => 0
  | .lzwEncode => 0
  | .lzwDecode => 0
  | .dctFwd => 0
  | .dctQuant => 0
  | .dctInv => 0
  | .dctBlock => 0
  | .dctFrame => 0

/-- The command word: RSV 0, ARG, OPC (30_encoding.md R141, R142). -/
def encode (i : Instr) : Word :=
  (0#16) ++ BitVec.ofNat 8 i.arg ++ BitVec.ofNat 8 i.opc

/-- The decoder on a word numbered as the opcode table numbers it: `nbits` bits, the rest 0 (a command is one 32-bit word, 30_encoding.md R140). -/
def decodeTableWord (nbits w : Nat) : Option Instr :=
  match decode (BitVec.ofNat 32 (w % 2 ^ nbits)) with
  | .ok i => some i
  | .error _ => none

end Sys2Proof
end

