-- ==== Sys2Proof/Machine/Bits.lean ====
section
/-! DEFINITION. Bit sequences and bytes: numbers from bits, and the packing functions of 41_bitstream.md R201, R202. -/

namespace Sys2Proof.Machine

/-- The element of a bit sequence as a number (00_scope.md R14). -/
def bitNat (b : Bool) : Nat := if b then 1 else 0

/-- The number a bit sequence spells, first bit most significant (41_bitstream.md R221). -/
def bitsToNat (b : Bits) : Nat := b.foldl (fun acc e => 2 * acc + bitNat e) 0

/-- The low `n` bits of a word, bit `n - 1` first (41_bitstream.md R211). -/
def lowBits (v : Word) : Nat → Bits
  | 0 => []
  | n + 1 => v.getLsbD n :: lowBits v n

/-- The padding count of `pack` (41_bitstream.md R201): 0..7. -/
def padCount (len : Nat) : Nat := (8 - len % 8) % 8

/-- Eight bits as a byte, the first bit its most significant (41_bitstream.md R201, 20_memory.md R106). -/
def byteOfBits (b : Bits) : Byte := BitVec.ofNat 8 (bitsToNat b)

/-- A byte as eight bits, its most significant first (41_bitstream.md R202). -/
def bitsOfByte (y : Byte) : Bits := (List.range 8).map fun i => y.getLsbD (7 - i)

/-- `b'` of 41_bitstream.md R201: the bits and the padding zeros. -/
def padded (b : Bits) : Bits := b ++ List.replicate (padCount b.length) false

/-- `bytes[j]` of 41_bitstream.md R201. -/
def packedByte (b : Bits) (j : Nat) : Byte := byteOfBits (((padded b).drop (8 * j)).take 8)

/-- The bytes of `pack`, the document's toPaddedBytes (41_bitstream.md R201). -/
def packBytes (b : Bits) : List Byte := (List.range ((padded b).length / 8)).map (packedByte b)

/-- All bits of a byte sequence, before the padding is stripped (41_bitstream.md R202). -/
def allBits (y : List Byte) : Bits := y.flatMap bitsOfByte

/-- `unpack`, the document's fromBytes (41_bitstream.md R202): none where it fails CorruptStream. The stripped bits are not examined. -/
def unpack (y : List Byte) (pad : Nat) : Option Bits :=
  if 8 * y.length < pad then none else some ((allBits y).take (8 * y.length - pad))

end Sys2Proof.Machine
end

