-- ==== Sys2Proof/Config.lean ====
section
/-! DEFINITION. What an implementation fixes: the parameters of 00_scope.md R9, and the free values, the draws of 00_scope.md R18, which have no body, so that nothing can be proved of them. -/

namespace Sys2Proof.Config

/-- The implementation parameters that change a result (00_scope.md R9). -/
structure Params where
  lmemSize  : Nat
  bsCapBits : Nat
  deriving DecidableEq, Repr

/-- The values a platform gets when it states nothing else (R9). -/
def defaultParams : Params := { lmemSize := 262144, bsCapBits := 1048576 }

/-- The legal parameter values (R9): 1..524288 bytes; a multiple of 8 from 8 to 4194304 bits. -/
def Params.legal (p : Params) : Bool :=
  1 ≤ p.lmemSize && p.lmemSize ≤ 524288
    && 8 ≤ p.bsCapBits && p.bsCapBits ≤ 4194304 && p.bsCapBits % 8 == 0

/-- The unspecified content of LMEM byte `addr` after the `epoch`-th hardware reset: a draw per byte (70_reset_and_hazards.md R451, 93_implementation_defined.md U1). -/
opaque powerOnByte (epoch addr : Nat) : Byte

/-- The `n`-th drawn byte: a spoiled byte (40_control.md R175) or a byte of an aborted command's destination (70_reset_and_hazards.md R453). -/
opaque drawByte (n : Nat) : Byte

/-- The `n`-th drawn word: an unspecified host read (70_reset_and_hazards.md R451, R471). -/
opaque drawWord (n : Nat) : Word

end Sys2Proof.Config
end

