-- ==== Sys2Proof/Machine/State.lean ====
section
/-! DEFINITION. The state of the CORE as plain data (10_state.md R40), the reasons a step can stop, and the state after reset (10_state.md R80). -/

namespace Sys2Proof.Machine

/-- Why a run stops. There is no such reason: Execute is total (40_control.md R173), a host access raises nothing (60_exceptions.md R400), and nothing hangs (log 19). -/
inductive Fault where
  deriving DecidableEq, Repr

/-- Why a command has no meaning in the model. -/
inductive Refusal where
  /-- Raised by an arm of `exec` whose command has no meaning yet; safe (the machine stops). No arm raises it. -/
  | notModelled (mnemonic : String)
  deriving DecidableEq, Repr

/-- The error codes of 60_exceptions.md R401. -/
inductive ErrCode where
  | emptyInput
  | corruptStream
  | truncatedStream
  | invalidCode
  | unsupportedAlphabetSize
  | illegalCommand
  | badParameter
  | addressRange
  | regionOverlap
  | outputOverflow
  | notReady
  deriving DecidableEq, Repr

/-- The grammar of 10_state.md R74. A frequency is a count, at most LMEM_SIZE on every run (R66), kept as a natural number (log 10). -/
inductive HufTree where
  | leaf (sym : Byte) (freq : Nat)
  | node (left right : HufTree) (freq : Nat)
  deriving DecidableEq, Repr

/-- The partial map CODES (10_state.md R75): symbol and code, one entry a symbol, in the pre-order of the tree that gave it (log 22). -/
abbrev CodeBook := List (Byte × Bits)

/-- LMEM's written bytes: addresses strictly rising. An unlisted address holds no written value (20_memory.md R100; log 3). -/
abbrev Memory := List Host.Cell

/-- STATUS but BUSY (10_state.md R45). Its reserved bits are 0 and hold nothing. -/
structure Status where
  done        : Bool
  err         : Bool
  wrWhileBusy : Bool
  errcode     : Byte
  deriving DecidableEq, Repr

/-- The operand registers, 10_state.md R47-R50, R53-R57, R61, R64, R65. -/
structure OperandRegs where
  srcAddr   : Word
  srcLen    : Word
  dstAddr   : Word
  dstCap    : Word
  magLimit  : Word
  blkStride : BitVec 16
  blkStep   : BitVec 16
  frameW    : BitVec 16
  frameH    : BitVec 16
  frameC    : BitVec 3
  codeSel   : Byte
  bsData    : Word
  bsPad     : BitVec 3
  deriving DecidableEq, Repr

/-- The result registers, 10_state.md R51, R52, R58, R59. -/
structure ResultRegs where
  outLen     : Word
  bitCount   : Word
  zeroCount  : Word
  keptCount  : Word
  blockCount : Word
  lzwNext    : BitVec 17
  deriving DecidableEq, Repr

/-- The bitstream accumulator, 10_state.md R70-R72. -/
structure Accumulator where
  wbits : Bits
  rbits : Bits
  rpos  : Nat
  deriving DecidableEq, Repr

/-- The Huffman stores FREQ (10_state.md R69, 256 entries), TREE (R74) and CODES (R75). -/
structure HufStore where
  freq  : List Word
  tree  : Option HufTree
  codes : Option CodeBook
  deriving DecidableEq, Repr

/-- The size of a host access (20_memory.md R103, 92_eei_decisions.md D39). -/
inductive Width where
  | w8
  | w16
  | w32
  deriving DecidableEq, Repr

/-- One host bus access at a 20-bit offset (20_memory.md R101). A write carries 32 data bits, of which a narrower access uses the low ones (log 12). -/
inductive Access where
  | read (off : BitVec 20) (width : Width)
  | write (off : BitVec 20) (width : Width) (value : Word)
  deriving DecidableEq, Repr

/-- What moves next (40_control.md R170): the host by an access, the engine, or the reset input by a level. -/
inductive Input where
  | access (a : Access)
  | engine
  | reset (level : Bool)
  deriving DecidableEq, Repr

/-- The state (10_state.md R40). The fields after `rstN` are the model's own (INVENTORY.md, State). -/
structure State where
  /-- CTRL.IRQ_EN (R44). -/
  irqEn   : Bool
  status  : Status
  /-- CMD (R46). -/
  cmd     : Word
  /-- PENDING (R76); BUSY is that it is not none. -/
  pending : Option Word
  regs    : OperandRegs
  res     : ResultRegs
  /-- COEF[0..63], two's-complement patterns (R68). -/
  coef    : List Word
  acc     : Accumulator
  huf     : HufStore
  lmem    : Memory
  /-- The level of the input `rst_n` (70_reset_and_hazards.md R451). -/
  rstN    : Bool
  /-- The parameters the machine was built with; no step changes them (log 1). -/
  params  : Config.Params
  /-- The rest of the schedule (log 4). -/
  inputs  : List Input
  /-- The value the last host read returned (log 6). -/
  rdata   : Word
  /-- How many draws were made (log 2). -/
  draws   : Nat
  /-- How many hardware resets were taken (log 3). -/
  epoch   : Nat
  deriving DecidableEq, Repr

/-- The state after a hardware reset (10_state.md R80), with the default parameters (00_scope.md R9) and an empty schedule. -/
def State.reset : State where
  irqEn := false
  status := { done := false, err := false, wrWhileBusy := false, errcode := 0 }
  cmd := 0
  pending := none
  regs :=
    { srcAddr := 0, srcLen := 0, dstAddr := 0, dstCap := 0, magLimit := 0, blkStride := 0, blkStep := 0,
      frameW := 0, frameH := 0, frameC := 0, codeSel := 0, bsData := 0, bsPad := 0 }
  res := { outLen := 0, bitCount := 0, zeroCount := 0, keptCount := 0, blockCount := 0, lzwNext := 0 }
  coef := List.replicate 64 0
  acc := { wbits := [], rbits := [], rpos := 0 }
  huf := { freq := List.replicate 256 0, tree := none, codes := none }
  lmem := []
  rstN := true
  params := Config.defaultParams
  inputs := []
  rdata := 0
  draws := 0
  epoch := 0

end Sys2Proof.Machine
end

