-- ==== Sys2Proof/Machine/Flags.lean ====
section
/-! DEFINITION. STATUS and what is computed from it: the error codes, the register word, the writes to it, the interrupt output. -/

namespace Sys2Proof.Machine

/-- The codes of 60_exceptions.md R401. -/
def ErrCode.code : ErrCode → Byte
  | .emptyInput => 0x01
  | .corruptStream => 0x02
  | .truncatedStream => 0x03
  | .invalidCode => 0x04
  | .unsupportedAlphabetSize => 0x05
  | .illegalCommand => 0x10
  | .badParameter => 0x11
  | .addressRange => 0x12
  | .regionOverlap => 0x13
  | .outputOverflow => 0x14
  | .notReady => 0x15

/-- STATUS.BUSY: 1 exactly between a launch and its completion (10_state.md R76). -/
def State.busy (s : State) : Bool := s.pending.isSome

/-- A flag as the one-bit field it is. -/
def flagBit (b : Bool) : BitVec 1 := BitVec.ofBool b

/-- STATUS as a host reads it (10_state.md R45): BUSY, DONE, ERR, WR_WHILE_BUSY in bits 0-3, ERRCODE in bits 15:8, the rest 0. -/
def statusWord (s : State) : Word :=
  (0#16) ++ s.status.errcode ++ (0#4) ++ flagBit s.status.wrWhileBusy ++ flagBit s.status.err
    ++ flagBit s.status.done ++ flagBit s.busy

/-- A write of STATUS (10_state.md R45): write 1 to clear DONE, ERR, WR_WHILE_BUSY; every other bit is ignored. It is the host's acknowledge, the return from an error (60_exceptions.md R423). -/
def State.writeStatus (s : State) (v : Word) : State :=
  { s with
    status :=
      { s.status with
        done := s.status.done && !v.getLsbD 1
        err := s.status.err && !v.getLsbD 2
        wrWhileBusy := s.status.wrWhileBusy && !v.getLsbD 3 } }

/-- The flags a launch leaves (40_control.md R171); WR_WHILE_BUSY stays. -/
def Status.launched (st : Status) : Status := { st with done := false, err := false, errcode := 0 }

/-- The flags of a successful completion (40_control.md R173, R174): DONE is set, ERR and ERRCODE stay (log 9). -/
def Status.completed (st : Status) : Status := { st with done := true }

/-- The flags of an error completion (40_control.md R173, R175). -/
def Status.failed (st : Status) (e : ErrCode) : Status :=
  { st with done := true, err := true, errcode := e.code }

/-- The completion interrupt output, a level (60_exceptions.md R421). -/
def irq (s : State) : Bool := s.irqEn && s.status.done

end Sys2Proof.Machine
end

