-- ==== Sys2Proof/Machine/Operands.lean ====
section
/-! DEFINITION. What a command reads from its operand registers: regions, block addresses, frame geometry, and their checks (40_control.md R178-R181, 44_transform.md R341, R371). Every address is an exact number, with no wrap (20_memory.md R112). -/

namespace Sys2Proof.Machine

/-- InRange of 40_control.md R178. -/
def State.inRange (s : State) (a n : Nat) : Bool := a + n ≤ s.params.lmemSize

/-- Overlap of 40_control.md R179. -/
def overlap (a m b n : Nat) : Bool := 0 < m && 0 < n && a < b + n && b < a + m

/-- The addresses of a contiguous region, rising (40_control.md R178). -/
def regionAddrs (a n : Nat) : List Nat := List.range' a n

/-- SRC_ADDR as a number. -/
def State.src (s : State) : Nat := s.regs.srcAddr.toNat

/-- SRC_LEN as a number. -/
def State.srcLen (s : State) : Nat := s.regs.srcLen.toNat

/-- DST_ADDR as a number. -/
def State.dst (s : State) : Nat := s.regs.dstAddr.toNat

/-- DST_CAP as a number. -/
def State.dstCap (s : State) : Nat := s.regs.dstCap.toNat

/-- MAG_LIMIT as an unsigned number (44_transform.md R345). -/
def State.limit (s : State) : Nat := s.regs.magLimit.toNat

/-- The address of sample (r, c) of the block at base `a` (44_transform.md R341). -/
def State.sampleAddr (s : State) (a r c : Nat) : Nat :=
  a + r * s.regs.blkStride.toNat + c * s.regs.blkStep.toNat

/-- The addresses of the block at base `a` in row-major order (44_transform.md R341, R353). -/
def State.blockAddrs (s : State) (a : Nat) : List Nat :=
  (List.range 64).map fun i => s.sampleAddr a (i / 8) (i % 8)

/-- The size whose range check is the footprint's (40_control.md R181). -/
def State.footprint (s : State) : Nat := 7 * s.regs.blkStride.toNat + 7 * s.regs.blkStep.toNat + 1

/-- FRAME_W, FRAME_H, FRAME_C as numbers (44_transform.md R370). -/
def State.frameW (s : State) : Nat := s.regs.frameW.toNat

def State.frameH (s : State) : Nat := s.regs.frameH.toNat

def State.frameC (s : State) : Nat := s.regs.frameC.toNat

/-- F of 44_transform.md R370: the bytes of the frame. -/
def State.frameBytes (s : State) : Nat := s.frameW * s.frameH * s.frameC

/-- The offset of sample (x, y, ch) in a frame of width `w` with `c` channels (44_transform.md R371). -/
def frameIndex (w c x y ch : Nat) : Nat := (y * w + x) * c + ch

end Sys2Proof.Machine
end

