-- ==== Sys2Proof/Machine/Ops.lean ====
section
/-! DEFINITION. The shared operations: LMEM as a canonical list, the draws, the two completions, and the region checks of the codec commands. -/

namespace Sys2Proof.Machine

/-- The canonical form of LMEM's data: addresses strictly rising, so no address has two entries. -/
abbrev Memory.wf (m : Memory) : Prop := m.Pairwise fun c d => c.1 < d.1

/-- The written value at an address, if there is one. -/
def Memory.lookup : Memory → Nat → Option Byte
  | [], _ => none
  | (k, v) :: m, a => if a = k then some v else Memory.lookup m a

/-- Write one byte, keeping the addresses rising. -/
def Memory.store : Memory → Nat → Byte → Memory
  | [], a, b => [(a, b)]
  | (k, v) :: m, a, b =>
    if a < k then (a, b) :: (k, v) :: m
    else if a = k then (a, b) :: m
    else (k, v) :: Memory.store m a b

/-- MemWrite of 00_scope.md R16: consecutive bytes from `a`, in increasing order. -/
def Memory.storeBytes : Memory → Nat → List Byte → Memory
  | m, _, [] => m
  | m, a, b :: bs => Memory.storeBytes (Memory.store m a b) (a + 1) bs

/-- Bytes at the given addresses, in the list's order, so a later write to an address stays (44_transform.md R353). -/
def Memory.storeAt : Memory → List (Nat × Byte) → Memory
  | m, [] => m
  | m, (a, b) :: ps => Memory.storeAt (Memory.store m a b) ps

/-- A draw for every address, from draw number `k` on (00_scope.md R18). -/
def Memory.storeDraws : Memory → Nat → List Nat → Memory
  | m, _, [] => m
  | m, k, a :: as => Memory.storeDraws (Memory.store m a (Config.drawByte k)) (k + 1) as

/-- What LMEM holds at an address no write has reached since the hardware reset: unspecified (10_state.md R80, 70_reset_and_hazards.md R451). -/
def State.unwrittenByte (s : State) (a : Nat) : Byte := Config.powerOnByte s.epoch a

/-- MemRead8 of 00_scope.md R16. -/
def State.readByte (s : State) (a : Nat) : Byte := (Memory.lookup s.lmem a).getD (s.unwrittenByte a)

/-- MemRead of 00_scope.md R16. -/
def State.readMem (s : State) (a n : Nat) : List Byte := (List.range n).map fun i => s.readByte (a + i)

/-- The 64 samples of the block at base `a`, row-major (44_transform.md R341). -/
def State.readBlock (s : State) (a : Nat) : List Byte := (s.blockAddrs a).map s.readByte

/-- MemWrite of 00_scope.md R16. -/
def State.writeMem (s : State) (a : Nat) (bs : List Byte) : State :=
  { s with lmem := Memory.storeBytes s.lmem a bs }

/-- Write the 64 samples of a block at base `a` in row-major order (44_transform.md R353). -/
def State.writeBlock (s : State) (a : Nat) (bs : List Byte) : State :=
  { s with lmem := Memory.storeAt s.lmem ((s.blockAddrs a).zip bs) }

/-- The bytes at `addrs` become unspecified, each a draw (40_control.md R175, 00_scope.md R18). -/
def State.spoil (s : State) (addrs : List Nat) : State :=
  { s with lmem := Memory.storeDraws s.lmem s.draws addrs, draws := s.draws + addrs.length }

/-- The destination region of a codec command becomes unspecified (40_control.md R175). -/
def State.spoilDst (s : State) : State := s.spoil (regionAddrs s.dst s.dstCap)

/-- OUT_LEN and BITCOUNT (40_control.md R174-R176). -/
def ResultRegs.counted (r : ResultRegs) (outLen bitCount : Nat) : ResultRegs :=
  { r with outLen := BitVec.ofNat 32 outLen, bitCount := BitVec.ofNat 32 bitCount }

/-- Successful completion (40_control.md R173, R174) with the counts of R176. -/
def State.completeOk (s : State) (outLen bitCount : Nat) : State :=
  { s with pending := none, status := s.status.completed, res := s.res.counted outLen bitCount }

/-- TAKING AN ERROR, the CORE's trap entry (60_exceptions.md R420): the error completion of 40_control.md R173, R175. Nothing jumps anywhere. -/
def State.completeErr (s : State) (e : ErrCode) : State :=
  { s with pending := none, status := s.status.failed e, res := s.res.counted 0 0 }

/-- The command succeeds, leaving `s`. -/
def succeed (s : State) (outLen bitCount : Nat) : Host.Outcome State Fault Refusal :=
  .next (s.completeOk outLen bitCount)

/-- The command fails with `e`, leaving the error state `s` (40_control.md R175). -/
def failWith (e : ErrCode) (s : State) : Host.Outcome State Fault Refusal :=
  .next (s.completeErr e)

/-- A codec command fails after its region checks: the destination is spoiled (40_control.md R175). -/
def failSpoiled (e : ErrCode) (s : State) : Host.Outcome State Fault Refusal :=
  failWith e s.spoilDst

/-- The source and destination checks of HUF_ENCODE, HUF_DECODE, LZW_ENCODE and LZW_DECODE, before any access (40_control.md R178, R180; 60_exceptions.md R410): the error, if there is one. -/
def State.codecCheck (s : State) : Option ErrCode :=
  if !(s.inRange s.src s.srcLen && s.inRange s.dst s.dstCap) then some .addressRange
  else if overlap s.src s.srcLen s.dst s.dstCap then some .regionOverlap
  else none

/-- The source bytes of a codec command. -/
def State.source (s : State) : List Byte := s.readMem s.src s.srcLen

end Sys2Proof.Machine
end

