-- ==== Sys2Proof/Machine/Control.lean ====
section
/-! DEFINITION. The control family: NOP and the completion of a word that is no command (40_control.md R182, R183). -/

namespace Sys2Proof.Machine

/-- NOP, 40_control.md R182. -/
def execNop (s : State) : Host.Outcome State Fault Refusal := succeed s 0 0

/-- A word that decodes to no command completes with IllegalCommand and changes nothing else (30_encoding.md R145, 40_control.md R183). -/
def execIllegal (s : State) : Host.Outcome State Fault Refusal := failWith .illegalCommand s

end Sys2Proof.Machine
end

