-- ==== Sys2Proof/Machine/Bitstream.lean ====
section
/-! DEFINITION. The bitstream family, 41_bitstream.md. -/

namespace Sys2Proof.Machine

/-- BS_CLEAR, 41_bitstream.md R205. -/
def execBsClear (s : State) : Host.Outcome State Fault Refusal :=
  succeed { s with acc := { wbits := [], rbits := [], rpos := 0 } } 0 0

/-- BS_PUT n, 41_bitstream.md R211. A term with n outside 1..32 is no BS_PUT and completes as an illegal command (R211, log 11). -/
def execBsPut (n : Nat) (s : State) : Host.Outcome State Fault Refusal :=
  if !countOk n then execIllegal s
  else if s.params.bsCapBits < s.acc.wbits.length + n then failWith .outputOverflow s
  else succeed { s with acc := { s.acc with wbits := s.acc.wbits ++ lowBits s.regs.bsData n } } 0 0

/-- BS_FLUSH, 41_bitstream.md R215. -/
def execBsFlush (s : State) : Host.Outcome State Fault Refusal :=
  if !s.inRange s.dst s.dstCap then failWith .addressRange s
  else
    let y := packBytes s.acc.wbits
    if s.dstCap < y.length then failWith .outputOverflow s
    else
      let w := s.writeMem s.dst y
      succeed
        { w with
          regs := { s.regs with bsPad := BitVec.ofNat 3 (padCount s.acc.wbits.length) }
          acc := { s.acc with wbits := [] } }
        y.length s.acc.wbits.length

/-- BS_LOAD, 41_bitstream.md R218. -/
def execBsLoad (s : State) : Host.Outcome State Fault Refusal :=
  if s.params.bsCapBits < 8 * s.srcLen then failWith .badParameter s
  else if !s.inRange s.src s.srcLen then failWith .addressRange s
  else
    match unpack s.source s.regs.bsPad.toNat with
    | none => failWith .corruptStream s
    | some b => succeed { s with acc := { s.acc with rbits := b, rpos := 0 } } 0 b.length

/-- BS_GET n, 41_bitstream.md R221. A term with n outside 1..32 is no BS_GET (log 11). -/
def execBsGet (n : Nat) (s : State) : Host.Outcome State Fault Refusal :=
  if !countOk n then execIllegal s
  else if s.acc.rbits.length < s.acc.rpos + n then failWith .truncatedStream s
  else
    let v := bitsToNat ((s.acc.rbits.drop s.acc.rpos).take n)
    succeed
      { s with
        regs := { s.regs with bsData := BitVec.ofNat 32 v }
        acc := { s.acc with rpos := s.acc.rpos + n } }
      0 0

end Sys2Proof.Machine
end

