-- ==== Sys2Proof/Machine/Huffman.lean ====
section
/-! DEFINITION. The Huffman family, 42_huffman.md: frequency count, tree build, codes, serialization, parse, walk, and the five commands. -/

namespace Sys2Proof.Machine

/-- `leaves(t)` (42_huffman.md R241). -/
def HufTree.leaves : HufTree → Nat
  | .leaf _ _ => 1
  | .node l r _ => l.leaves + r.leaves

/-- `nodes(t)` (42_huffman.md R241). -/
def HufTree.nodes : HufTree → Nat
  | .leaf _ _ => 1
  | .node l r _ => l.nodes + r.nodes + 1

/-- The frequency a tree's root carries (10_state.md R74). -/
def HufTree.weight : HufTree → Nat
  | .leaf _ f => f
  | .node _ _ f => f

/-- The node capacity of the tree store (10_state.md R74, 00_scope.md R10). -/
def maxTreeNodes : Nat := 511

/-- `freq(y)` (42_huffman.md R247): entry s counts the bytes equal to s. -/
def freqCounts (y : List Byte) : List Nat := (List.range 256).map fun s => y.count (BitVec.ofNat 8 s)

/-- The counts as the FREQ store holds them (10_state.md R69). -/
def freqWords (F : List Nat) : List Word := F.map (BitVec.ofNat 32)

/-- An entry of the priority structure (42_huffman.md R248). -/
structure QEntry where
  freq    : Nat
  arrival : Nat
  tree    : HufTree
  deriving DecidableEq, Repr

/-- The lexicographic order of (freq, arrival) pairs (42_huffman.md R248). -/
def QEntry.before (x y : QEntry) : Bool :=
  x.freq < y.freq || (x.freq == y.freq && x.arrival < y.arrival)

/-- The leaves in ascending symbol order with arrival numbers (42_huffman.md R248); `sym` is the first symbol of the list, `arrival` the next number. -/
def leafEntries : Nat → Nat → List Nat → List QEntry
  | _, _, [] => []
  | sym, arrival, f :: fs =>
    if f = 0 then leafEntries (sym + 1) arrival fs
    else { freq := f, arrival := arrival, tree := .leaf (BitVec.ofNat 8 sym) f } :: leafEntries (sym + 1) (arrival + 1) fs

/-- The entry with the smallest (freq, arrival) pair among `e` and the list, and the others (42_huffman.md R248). -/
def extractMin (e : QEntry) : List QEntry → QEntry × List QEntry
  | [] => (e, [])
  | x :: xs =>
    if x.before e then
      let p := extractMin x xs
      (p.1, e :: p.2)
    else
      let p := extractMin e xs
      (p.1, x :: p.2)

/-- The two extracted entries merged: the first is the left child (42_huffman.md R248). -/
def mergeEntries (x y : QEntry) (arrival : Nat) : QEntry :=
  { freq := x.freq + y.freq, arrival := arrival, tree := .node x.tree y.tree (x.freq + y.freq) }

/-- The while loop of 42_huffman.md R248 on a non-empty queue `e :: q`; `fuel` bounds its turns, each of which takes one entry away. -/
def mergeLoop : Nat → Nat → QEntry → List QEntry → HufTree
  | _, _, e, [] => e.tree
  | 0, _, e, _ :: _ => e.tree
  | fuel + 1, arrival, e, x :: xs =>
    let p := extractMin e (x :: xs)
    match p.2 with
    | [] => p.1.tree
    | y :: ys =>
      let q := extractMin y ys
      match q.2 with
      | [] => (mergeEntries p.1 q.1 arrival).tree
      | z :: zs => mergeLoop fuel (arrival + 1) z (zs ++ [mergeEntries p.1 q.1 arrival])

/-- `build(F)` (42_huffman.md R248): none where it fails EmptyInput. -/
def buildTree (F : List Nat) : Option HufTree :=
  match leafEntries 0 0 F with
  | [] => none
  | e :: q => some (mergeLoop q.length (q.length + 1) e q)

/-- The code a codebook gives a symbol (10_state.md R75). -/
def CodeBook.find (C : CodeBook) (s : Byte) : Option Bits := List.lookup s C

/-- `visit` of 42_huffman.md R249: pre-order, left first, a symbol's first leaf gives its code. -/
def visit : HufTree → Bits → CodeBook → CodeBook
  | .leaf s _, p, C => if (CodeBook.find C s).isSome then C else C ++ [(s, p)]
  | .node l r _, p, C => visit r (p ++ [true]) (visit l (p ++ [false]) C)

/-- `codes(t)` (42_huffman.md R249): a single-leaf tree gives its symbol the one bit 0. -/
def codesOf : HufTree → CodeBook
  | .leaf s _ => [(s, [false])]
  | .node l r f => visit (.node l r f) [] []

/-- `ser(t)` (42_huffman.md R245). -/
def serialize : HufTree → List Byte
  | .leaf s _ => [0x01, s]
  | .node l r _ => 0x00 :: (serialize l ++ serialize r)

/-- The coded bits of a source, symbol after symbol (42_huffman.md R268). -/
def codedBits (C : CodeBook) (y : List Byte) : Bits := y.flatMap fun s => (CodeBook.find C s).getD []

/-- The artifact (42_huffman.md R244): padding byte, serialized tree, packed bits. -/
def artifact (t : HufTree) (b : Bits) : List Byte :=
  BitVec.ofNat 8 (padCount b.length) :: (serialize t ++ packBytes b)

/-- `P` of 42_huffman.md R246 on the bytes not yet read: the tree, the node count after it, the bytes left. A call at depth d is made with d nodes counted, so `fuel`, 512 at the root, never ends before the count passes 511. -/
def parseNode : Nat → Nat → List Byte → Except ErrCode (HufTree × Nat × List Byte)
  | 0, _, _ => .error .corruptStream
  | _ + 1, _, [] => .error .truncatedStream
  | fuel + 1, count, tag :: z =>
    if tag ≠ 0x00 ∧ tag ≠ 0x01 then .error .corruptStream
    else if maxTreeNodes < count + 1 then .error .corruptStream
    else if tag = 0x01 then
      match z with
      | [] => .error .truncatedStream
      | s :: z' => .ok (.leaf s 0, count + 1, z')
    else
      match parseNode fuel (count + 1) z with
      | .error e => .error e
      | .ok (l, count', z') =>
        match parseNode fuel count' z' with
        | .error e => .error e
        | .ok (r, count'', z'') => .ok (.node l r 0, count'', z'')

/-- `parse(z)` (42_huffman.md R246): the tree and the bytes after it. -/
def parseTree (z : List Byte) : Except ErrCode (HufTree × List Byte) :=
  match parseNode (maxTreeNodes + 1) 0 z with
  | .error e => .error e
  | .ok (t, _, rest) => .ok (t, rest)

/-- One descent of the walk (42_huffman.md R275): 0 to the left, 1 to the right. -/
def HufTree.descend : HufTree → Bool → HufTree
  | .leaf s f, _ => .leaf s f
  | .node l _ _, false => l
  | .node _ r _, true => r

/-- The walk under a tree whose root is a node (42_huffman.md R275); `atRoot` says that `cur` is the root. -/
def walkFrom (root : HufTree) : HufTree → Bool → Bits → Except ErrCode (List Byte)
  | _, atRoot, [] => if atRoot then .ok [] else .error .corruptStream
  | cur, _, e :: b =>
    match cur.descend e with
    | .leaf s _ =>
      match walkFrom root root true b with
      | .error err => .error err
      | .ok out => .ok (s :: out)
    | .node l r f => walkFrom root (.node l r f) false b

/-- The walk under a single-leaf tree, code 0 (42_huffman.md R275). -/
def walkLeaf (s : Byte) (b : Bits) : Except ErrCode (List Byte) :=
  if b.all (!·) then .ok (List.replicate b.length s) else .error .corruptStream

/-- `walk(t, b)` (42_huffman.md R275). -/
def walk (t : HufTree) (b : Bits) : Except ErrCode (List Byte) :=
  match t with
  | .leaf s _ => walkLeaf s b
  | .node l r f => walkFrom (.node l r f) (.node l r f) true b

/-- The parts of an artifact and its decoded bytes (42_huffman.md R280, from the padding byte to the walk): the tree, the count of data bits, the symbols. -/
def decodeArtifact (y : List Byte) : Except ErrCode (HufTree × Nat × List Byte) :=
  match y with
  | [] => .error .truncatedStream
  | p :: z =>
    if 7 < p.toNat then .error .corruptStream
    else
      match parseTree z with
      | .error e => .error e
      | .ok (t, d) =>
        match unpack d p.toNat with
        | none => .error .corruptStream
        | some b =>
          match walk t b with
          | .error e => .error e
          | .ok out => .ok (t, b.length, out)

/-- No tree and no codebook are held (42_huffman.md R255, R268, R280). -/
def State.dropTree (s : State) : State := { s with huf := { s.huf with tree := none, codes := none } }

/-- HUF_FREQ, 42_huffman.md R250. -/
def execHufFreq (s : State) : Host.Outcome State Fault Refusal :=
  if !s.inRange s.src s.srcLen then failWith .addressRange s
  else succeed { s with huf := { s.huf with freq := freqWords (freqCounts s.source) } } 0 0

/-- HUF_TREE, 42_huffman.md R255. -/
def execHufTree (s : State) : Host.Outcome State Fault Refusal :=
  match buildTree (s.huf.freq.map BitVec.toNat) with
  | none => failWith .emptyInput s.dropTree
  | some t => succeed { s with huf := { s.huf with tree := some t, codes := none } } 0 0

/-- HUF_CODES, 42_huffman.md R262. -/
def execHufCodes (s : State) : Host.Outcome State Fault Refusal :=
  match s.huf.tree with
  | none => failWith .notReady s
  | some t => succeed { s with huf := { s.huf with codes := some (codesOf t) } } 0 0

/-- HUF_ENCODE, 42_huffman.md R268. -/
def execHufEncode (s : State) : Host.Outcome State Fault Refusal :=
  match s.codecCheck with
  | some e => failWith e s
  | none =>
    let y := s.source
    let F := freqCounts y
    match buildTree F with
    | none => failSpoiled .emptyInput { s with huf := { freq := freqWords F, tree := none, codes := none } }
    | some t =>
      let C := codesOf t
      let b := codedBits C y
      let art := artifact t b
      let s' := { s with huf := { freq := freqWords F, tree := some t, codes := some C } }
      if s.dstCap < art.length then failSpoiled .outputOverflow s'
      else succeed (s'.writeMem s.dst art) art.length b.length

/-- HUF_DECODE, 42_huffman.md R280. -/
def execHufDecode (s : State) : Host.Outcome State Fault Refusal :=
  match s.codecCheck with
  | some e => failWith e s
  | none =>
    match decodeArtifact s.source with
    | .error e => failSpoiled e s.dropTree
    | .ok (t, nbits, out) =>
      if s.dstCap < out.length then failSpoiled .outputOverflow s.dropTree
      else
        let s' := { s with huf := { s.huf with tree := some t, codes := none } }
        succeed (s'.writeMem s.dst out) out.length nbits

end Sys2Proof.Machine
end

