-- ==== Sys2Proof/Machine/Lzw.lean ====
section
/-! DEFINITION. The LZW family, 43_lzw.md. The dictionary lives inside one command (10_state.md R77): it is the list of inserted sequences, entry i being code 256 + i, over the seeds 0..255 (R300; log 20). -/

namespace Sys2Proof.Machine

/-- The inserted entries, in the order of their codes from 256 on (43_lzw.md R300). -/
abbrev LzwDict := List (List Byte)

/-- The next free code (43_lzw.md R300). -/
def LzwDict.next (d : LzwDict) : Nat := 256 + d.length

/-- The ceiling of the dictionary (43_lzw.md R301). -/
def lzwCapacity : Nat := 65536

/-- The code of a sequence, if it is a key: a one-byte sequence is its byte, a longer one an inserted entry (43_lzw.md R300, R303). -/
def LzwDict.codeOf (d : LzwDict) : List Byte → Option Nat
  | [s] => some s.toNat
  | w => (d.idxOf? w).map (256 + ·)

/-- The sequence of a code, if it is known (43_lzw.md R300, R304). -/
def LzwDict.entry (d : LzwDict) (c : Nat) : Option (List Byte) :=
  if c < 256 then some [BitVec.ofNat 8 c] else d[c - 256]?

/-- The loop of `lzw_encode` (43_lzw.md R303) with matched prefix `w`: the codes still to emit and the final next free code. -/
def lzwEncodeFrom : LzwDict → List Byte → List Byte → Except ErrCode (List Nat × Nat)
  | d, w, [] => .ok ([(LzwDict.codeOf d w).getD 0], LzwDict.next d)
  | d, w, c :: y =>
    if (LzwDict.codeOf d (w ++ [c])).isSome then lzwEncodeFrom d (w ++ [c]) y
    else if LzwDict.next d = lzwCapacity then .error .unsupportedAlphabetSize
    else
      match lzwEncodeFrom (d ++ [w ++ [c]]) [c] y with
      | .error e => .error e
      | .ok (codes, next) => .ok ((LzwDict.codeOf d w).getD 0 :: codes, next)

/-- `lzw_encode(y)` (43_lzw.md R303). -/
def lzwEncode : List Byte → Except ErrCode (List Nat × Nat)
  | [] => .ok ([], 256)
  | s :: y => lzwEncodeFrom [] [s] y

/-- What a code resolves to: a known entry, or the self-referential case, or nothing (43_lzw.md R304). -/
def lzwResolve (d : LzwDict) (prev : List Byte) (c : Nat) : Option (List Byte) :=
  if c < LzwDict.next d then LzwDict.entry d c
  else if c = LzwDict.next d then some (prev ++ prev.take 1)
  else none

/-- The loop of `lzw_decode` (43_lzw.md R304): the bytes still to put out and the final next free code. -/
def lzwDecodeFrom : LzwDict → List Byte → List Nat → Except ErrCode (List Byte × Nat)
  | d, _, [] => .ok ([], LzwDict.next d)
  | d, prev, c :: codes =>
    match lzwResolve d prev c with
    | none => .error .invalidCode
    | some e =>
      if LzwDict.next d = lzwCapacity then .error .unsupportedAlphabetSize
      else
        match lzwDecodeFrom (d ++ [prev ++ e.take 1]) e codes with
        | .error err => .error err
        | .ok (out, next) => .ok (e ++ out, next)

/-- `lzw_decode(codes)` (43_lzw.md R304). -/
def lzwDecode : List Nat → Except ErrCode (List Byte × Nat)
  | [] => .ok ([], 256)
  | c :: codes =>
    if 256 ≤ c then .error .invalidCode
    else
      match lzwDecodeFrom [] [BitVec.ofNat 8 c] codes with
      | .error e => .error e
      | .ok (out, next) => .ok (BitVec.ofNat 8 c :: out, next)

/-- `bytes_of(codes)` (43_lzw.md R302): two bytes a code, big-endian. -/
def bytesOfCodes (codes : List Nat) : List Byte :=
  codes.flatMap fun c => [BitVec.ofNat 8 (c / 256), BitVec.ofNat 8 (c % 256)]

/-- `codes_of(y)` (43_lzw.md R302), on an even number of bytes. -/
def codesOfBytes : List Byte → List Nat
  | hi :: lo :: y => (256 * hi.toNat + lo.toNat) :: codesOfBytes y
  | _ => []

/-- LZW_ENCODE, 43_lzw.md R310. -/
def execLzwEncode (s : State) : Host.Outcome State Fault Refusal :=
  match s.codecCheck with
  | some e => failWith e s
  | none =>
    match lzwEncode s.source with
    | .error e => failSpoiled e s
    | .ok (codes, next) =>
      let a := bytesOfCodes codes
      if s.dstCap < a.length then failSpoiled .outputOverflow s
      else
        let w := s.writeMem s.dst a
        succeed { w with res := { s.res with lzwNext := BitVec.ofNat 17 next } } a.length (16 * codes.length)

/-- LZW_DECODE, 43_lzw.md R320. -/
def execLzwDecode (s : State) : Host.Outcome State Fault Refusal :=
  match s.codecCheck with
  | some e => failWith e s
  | none =>
    if s.srcLen % 2 = 1 then failSpoiled .truncatedStream s
    else
      match lzwDecode (codesOfBytes s.source) with
      | .error e => failSpoiled e s
      | .ok (out, next) =>
        if s.dstCap < out.length then failSpoiled .outputOverflow s
        else
          let w := s.writeMem s.dst out
          succeed { w with res := { s.res with lzwNext := BitVec.ofNat 17 next } } out.length (8 * s.srcLen)

end Sys2Proof.Machine
end

