-- ==== Sys2Proof/Machine/Transform.lean ====
section
/-! DEFINITION. The transform family, 44_transform.md: the fixed-point DCT over exact integers (R346), the threshold, the block and frame commands. A block is 64 bytes, and 64 coefficient words, row-major. -/

namespace Sys2Proof.Machine

/-- The basis table T (44_transform.md R342), row k = frequency, column n = sample position. -/
def basisTable : List (List Int) :=
  [[5793, 5793, 5793, 5793, 5793, 5793, 5793, 5793],
   [8035, 6811, 4551, 1598, -1598, -4551, -6811, -8035],
   [7568, 3135, -3135, -7568, -7568, -3135, 3135, 7568],
   [6811, -1598, -8035, -4551, 4551, 8035, 1598, -6811],
   [5793, -5793, -5793, 5793, 5793, -5793, -5793, 5793],
   [4551, -8035, 1598, 6811, -6811, -1598, 8035, -4551],
   [3135, -7568, 7568, -3135, -3135, 7568, -7568, 3135],
   [1598, -4551, 6811, -8035, 8035, -6811, 4551, -1598]]

/-- `T[k][n]` (44_transform.md R342). -/
def basis (k n : Nat) : Int := (basisTable.getD k []).getD n 0

/-- A sum over 0..7. -/
def sum8 (f : Nat → Int) : Int := f 0 + f 1 + f 2 + f 3 + f 4 + f 5 + f 6 + f 7

/-- `rshr(v, s)` for s >= 1: round to nearest, ties toward plus infinity (00_scope.md R13). -/
def rshr (v : Int) (s : Nat) : Int := (v + 2 ^ (s - 1)) / 2 ^ s

/-- `clip(v, 0, 255)` (00_scope.md R13, 44_transform.md R344). -/
def clipByte (v : Int) : Byte := BitVec.ofNat 8 (min v.toNat 255)

/-- Sample (r, c) of a block as an integer. -/
def sample (X : List Byte) (r c : Nat) : Int := ((X.getD (8 * r + c) 0).toNat : Int)

/-- Coefficient (u, v) of a block as a signed integer (44_transform.md R344). -/
def coefInt (Y : List Word) (u v : Nat) : Int := (Y.getD (8 * u + v) 0).toInt

/-- `fwd(X)[u][v]` (44_transform.md R343). -/
def fwdInt (X : List Byte) (u v : Nat) : Int :=
  rshr (sum8 fun r => sum8 fun n => basis u r * sample X r n * basis v n) 20

/-- The forward transform, as the COEF store holds it (44_transform.md R343, R346; log 17). -/
def fwd (X : List Byte) : List Word :=
  (List.range 64).map fun i => BitVec.ofInt 32 (fwdInt X (i / 8) (i % 8))

/-- The value of 44_transform.md R344 before the clip. -/
def invInt (Y : List Word) (m n : Nat) : Int :=
  rshr (sum8 fun u => sum8 fun v => basis u m * coefInt Y u v * basis v n) 36

/-- The inverse transform with its clip, row-major (44_transform.md R344); the inverse quantizer before it is the identity (R350). -/
def inv (Y : List Word) : List Byte :=
  (List.range 64).map fun i => clipByte (invInt Y (i / 8) (i % 8))

/-- A coefficient is below the limit: its magnitude as an integer, against the unsigned limit (44_transform.md R345). -/
def belowLimit (lim : Nat) (c : Word) : Bool := c.toInt.natAbs < lim

/-- `thr(Y, lim)` (44_transform.md R345). -/
def thr (lim : Nat) (Y : List Word) : List Word := Y.map fun c => if belowLimit lim c then 0 else c

/-- `zeros(Y, lim)` (44_transform.md R345). -/
def zeros (lim : Nat) (Y : List Word) : Nat := Y.countP (belowLimit lim)

/-- ZERO_COUNT, KEPT_COUNT and BLOCK_COUNT of `blocks` blocks with `z` zeroed coefficients (10_state.md R58). -/
def ResultRegs.transformed (r : ResultRegs) (z blocks : Nat) : ResultRegs :=
  { r with
    zeroCount := BitVec.ofNat 32 z
    keptCount := BitVec.ofNat 32 (64 * blocks - z)
    blockCount := BitVec.ofNat 32 blocks }

/-- DCT_FWD, 44_transform.md R355. -/
def execDctFwd (s : State) : Host.Outcome State Fault Refusal :=
  if !s.inRange s.src s.footprint then failWith .addressRange s
  else succeed { s with coef := fwd (s.readBlock s.src) } 0 0

/-- DCT_QUANT, 44_transform.md R358. -/
def execDctQuant (s : State) : Host.Outcome State Fault Refusal :=
  succeed { s with coef := thr s.limit s.coef, res := s.res.transformed (zeros s.limit s.coef) 1 } 0 0

/-- DCT_INV, 44_transform.md R361. -/
def execDctInv (s : State) : Host.Outcome State Fault Refusal :=
  if !s.inRange s.dst s.footprint then failWith .addressRange s
  else succeed (s.writeBlock s.dst (inv s.coef)) 64 512

/-- DCT_BLOCK, 44_transform.md R365: all 64 samples are read before the first write. -/
def execDctBlock (s : State) : Host.Outcome State Fault Refusal :=
  if !(s.inRange s.src s.footprint && s.inRange s.dst s.footprint) then failWith .addressRange s
  else
    let Y := fwd (s.readBlock s.src)
    let q := thr s.limit Y
    let w := s.writeBlock s.dst (inv q)
    succeed { w with coef := q, res := s.res.transformed (zeros s.limit Y) 1 } 64 512

/-- A complete block of a frame: block row, block column, channel (44_transform.md R371). -/
structure BlockPos where
  row : Nat
  col : Nat
  ch : Nat
  deriving DecidableEq, Repr

/-- The complete blocks of a W × H × C frame in their order (44_transform.md R370, R371). -/
def frameBlocks (w h c : Nat) : List BlockPos :=
  (List.range (h / 8)).flatMap fun row =>
    (List.range (w / 8)).flatMap fun col => (List.range c).map fun ch => { row, col, ch }

/-- The offset in the frame of sample i, row-major, of a block (44_transform.md R370). -/
def BlockPos.index (p : BlockPos) (w c i : Nat) : Nat :=
  frameIndex w c (8 * p.col + i % 8) (8 * p.row + i / 8) p.ch

/-- The 64 samples of a block of the source frame P (44_transform.md R370). -/
def frameBlock (P : List Byte) (w c : Nat) (p : BlockPos) : List Byte :=
  (List.range 64).map fun i => P.getD (p.index w c i) 0

/-- What DCT_FRAME carries from block to block (44_transform.md R370). -/
structure FrameAcc where
  out  : List Byte
  coef : List Word
  zt   : Nat
  nb   : Nat
  deriving DecidableEq, Repr

/-- Put 64 samples at a block's offsets of the output frame (44_transform.md R370). -/
def putBlock (w c : Nat) (p : BlockPos) (out samples : List Byte) : List Byte :=
  (List.range 64).foldl (fun o i => o.set (p.index w c i) (samples.getD i 0)) out

/-- One turn of the loops of 44_transform.md R370: every block is read from P, the frame as it was at the start. -/
def frameTurn (P : List Byte) (w c lim : Nat) (acc : FrameAcc) (p : BlockPos) : FrameAcc :=
  let Y := fwd (frameBlock P w c p)
  let q := thr lim Y
  { out := putBlock w c p acc.out (inv q), coef := q, zt := acc.zt + zeros lim Y, nb := acc.nb + 1 }

/-- The loops of 44_transform.md R370: the output starts as the source, so edge samples pass through (R372). -/
def frameLoop (P : List Byte) (w h c lim : Nat) (coef : List Word) : FrameAcc :=
  (frameBlocks w h c).foldl (frameTurn P w c lim) { out := P, coef := coef, zt := 0, nb := 0 }

/-- DCT_FRAME, 44_transform.md R370. -/
def execDctFrame (s : State) : Host.Outcome State Fault Refusal :=
  let F := s.frameBytes
  if s.frameC < 1 || 4 < s.frameC then failWith .badParameter s
  else if !(s.inRange s.src F && s.inRange s.dst F) then failWith .addressRange s
  else if s.src != s.dst && overlap s.src F s.dst F then failWith .regionOverlap s
  else
    let r := frameLoop (s.readMem s.src F) s.frameW s.frameH s.frameC s.limit s.coef
    let w := s.writeMem s.dst r.out
    succeed { w with coef := r.coef, res := s.res.transformed r.zt r.nb } F (8 * F)

end Sys2Proof.Machine
end

