-- ==== Sys2Proof/Machine/Dispatch.lean ====
section
/-! DEFINITION. Execute of a decoded command (40_control.md R183): one arm per command, each a direct call of its meaning. -/

namespace Sys2Proof.Machine

def exec (i : Instr) (s : State) : Host.Outcome State Fault Refusal :=
  match i with
  | .nop => Sys2Proof.Machine.execNop s
  | .bsClear => Sys2Proof.Machine.execBsClear s
  | .bsPut n => Sys2Proof.Machine.execBsPut n s
  | .bsFlush => Sys2Proof.Machine.execBsFlush s
  | .bsLoad => Sys2Proof.Machine.execBsLoad s
  | .bsGet n => Sys2Proof.Machine.execBsGet n s
  | .hufFreq => Sys2Proof.Machine.execHufFreq s
  | .hufTree => Sys2Proof.Machine.execHufTree s
  | .hufCodes => Sys2Proof.Machine.execHufCodes s
  | .hufEncode => Sys2Proof.Machine.execHufEncode s
  | .hufDecode => Sys2Proof.Machine.execHufDecode s
  | .lzwEncode => Sys2Proof.Machine.execLzwEncode s
  | .lzwDecode => Sys2Proof.Machine.execLzwDecode s
  | .dctFwd => Sys2Proof.Machine.execDctFwd s
  | .dctQuant => Sys2Proof.Machine.execDctQuant s
  | .dctInv => Sys2Proof.Machine.execDctInv s
  | .dctBlock => Sys2Proof.Machine.execDctBlock s
  | .dctFrame => Sys2Proof.Machine.execDctFrame s

end Sys2Proof.Machine
end

