-- ==== Sys2Proof/Machine/RegMap.lean ====
section
/-! DEFINITION. The register map as the host sees it: names and offsets (10_state.md R41), the derived views (R60-R63, R67), reading and writing a register (R42-R69). -/

namespace Sys2Proof.Machine

/-- The register names of 10_state.md R41, the window entries COEF[i] and FREQ[s] among them (30_encoding.md R160). -/
inductive Reg where
  | id
  | ctrl
  | status
  | cmd
  | srcAddr
  | srcLen
  | dstAddr
  | dstCap
  | outLen
  | bitCount
  | magLimit
  | blkStride
  | blkStep
  | frameW
  | frameH
  | frameC
  | zeroCount
  | keptCount
  | blockCount
  | lzwNext
  | hufInfo
  | codeSel
  | codeLen
  | codeWord (k : Fin 8)
  | bsData
  | bsPad
  | bsWlen
  | bsRlen
  | bsRpos
  | coef (i : Fin 64)
  | freq (s : Fin 256)
  deriving DecidableEq, Repr

/-- The column "offset" of 10_state.md R41. -/
def Reg.offset : Reg → Nat
  | .id => 0x000
  | .ctrl => 0x004
  | .status => 0x008
  | .cmd => 0x00C
  | .srcAddr => 0x010
  | .srcLen => 0x014
  | .dstAddr => 0x018
  | .dstCap => 0x01C
  | .outLen => 0x020
  | .bitCount => 0x024
  | .magLimit => 0x028
  | .blkStride => 0x02C
  | .blkStep => 0x030
  | .frameW => 0x034
  | .frameH => 0x038
  | .frameC => 0x03C
  | .zeroCount => 0x040
  | .keptCount => 0x044
  | .blockCount => 0x048
  | .lzwNext => 0x04C
  | .hufInfo => 0x050
  | .codeSel => 0x054
  | .codeLen => 0x058
  | .codeWord k => 0x060 + 4 * k.val
  | .bsData => 0x080
  | .bsPad => 0x084
  | .bsWlen => 0x088
  | .bsRlen => 0x08C
  | .bsRpos => 0x090
  | .coef i => 0x1000 + 4 * i.val
  | .freq s => 0x2000 + 4 * s.val

/-- The register at an offset, none where the offset is unmapped (10_state.md R41, R42). -/
def regAt (off : Nat) : Option Reg :=
  match off with
  | 0x000 => some .id
  | 0x004 => some .ctrl
  | 0x008 => some .status
  | 0x00C => some .cmd
  | 0x010 => some .srcAddr
  | 0x014 => some .srcLen
  | 0x018 => some .dstAddr
  | 0x01C => some .dstCap
  | 0x020 => some .outLen
  | 0x024 => some .bitCount
  | 0x028 => some .magLimit
  | 0x02C => some .blkStride
  | 0x030 => some .blkStep
  | 0x034 => some .frameW
  | 0x038 => some .frameH
  | 0x03C => some .frameC
  | 0x040 => some .zeroCount
  | 0x044 => some .keptCount
  | 0x048 => some .blockCount
  | 0x04C => some .lzwNext
  | 0x050 => some .hufInfo
  | 0x054 => some .codeSel
  | 0x058 => some .codeLen
  | 0x080 => some .bsData
  | 0x084 => some .bsPad
  | 0x088 => some .bsWlen
  | 0x08C => some .bsRlen
  | 0x090 => some .bsRpos
  | off =>
    if off % 4 ≠ 0 then none
    else if 0x060 ≤ off ∧ off < 0x080 then some (.codeWord (Fin.ofNat 8 ((off - 0x060) / 4)))
    else if 0x1000 ≤ off ∧ off < 0x1100 then some (.coef (Fin.ofNat 64 ((off - 0x1000) / 4)))
    else if 0x2000 ≤ off ∧ off < 0x2400 then some (.freq (Fin.ofNat 256 ((off - 0x2000) / 4)))
    else none

/-- The value of ID, which never changes (10_state.md R43). -/
def idValue : Word := 0x46430001

/-- CTRL as a host reads it (10_state.md R44): IRQ_EN in bit 1, the rest 0. -/
def ctrlWord (s : State) : Word := (0#30) ++ flagBit s.irqEn ++ (0#1)

/-- HUF_INFO (10_state.md R60): TREE_VALID, CODES_VALID, NODES, LEAVES. -/
def hufInfo (s : State) : Word :=
  let leaves := (s.huf.tree.map HufTree.leaves).getD 0
  let nodes := (s.huf.tree.map HufTree.nodes).getD 0
  flagBit s.huf.tree.isSome ++ flagBit s.huf.codes.isSome ++ (0#5) ++ BitVec.ofNat 9 nodes ++ (0#7)
    ++ BitVec.ofNat 9 leaves

/-- The code of the symbol CODE_SEL selects, [] where it has none (10_state.md R62, R63). -/
def selectedCode (s : State) : Bits :=
  ((s.huf.codes.bind fun C => CodeBook.find C s.regs.codeSel)).getD []

/-- CODE_LEN (10_state.md R62), an 8-bit field. -/
def codeLen (s : State) : Word := (BitVec.ofNat 8 (selectedCode s).length).setWidth 32

/-- `V` of 10_state.md R63: the selected code, left-aligned in 256 bits. -/
def codeValue (b : Bits) : BitVec 256 :=
  BitVec.ofNat 256 (bitsToNat (b ++ List.replicate (256 - b.length) false))

/-- CODE_WORDk (10_state.md R63). -/
def codeWord (s : State) (k : Nat) : Word := (codeValue (selectedCode s)).extractLsb' (224 - 32 * k) 32

/-- What a register reads as while no command is pending (10_state.md R43-R69). Reserved bits read 0 (R42). -/
def readReg (s : State) : Reg → Word
  | .id => idValue
  | .ctrl => ctrlWord s
  | .status => statusWord s
  | .cmd => s.cmd
  | .srcAddr => s.regs.srcAddr
  | .srcLen => s.regs.srcLen
  | .dstAddr => s.regs.dstAddr
  | .dstCap => s.regs.dstCap
  | .outLen => s.res.outLen
  | .bitCount => s.res.bitCount
  | .magLimit => s.regs.magLimit
  | .blkStride => s.regs.blkStride.setWidth 32
  | .blkStep => s.regs.blkStep.setWidth 32
  | .frameW => s.regs.frameW.setWidth 32
  | .frameH => s.regs.frameH.setWidth 32
  | .frameC => s.regs.frameC.setWidth 32
  | .zeroCount => s.res.zeroCount
  | .keptCount => s.res.keptCount
  | .blockCount => s.res.blockCount
  | .lzwNext => s.res.lzwNext.setWidth 32
  | .hufInfo => hufInfo s
  | .codeSel => s.regs.codeSel.setWidth 32
  | .codeLen => codeLen s
  | .codeWord k => codeWord s k.val
  | .bsData => s.regs.bsData
  | .bsPad => s.regs.bsPad.setWidth 32
  | .bsWlen => BitVec.ofNat 32 s.acc.wbits.length
  | .bsRlen => BitVec.ofNat 32 s.acc.rbits.length
  | .bsRpos => BitVec.ofNat 32 s.acc.rpos
  | .coef i => s.coef.getD i.val 0
  | .freq c => s.huf.freq.getD c.val 0

/-- The registers whose reads stay defined while BUSY = 1 (70_reset_and_hazards.md R471). -/
def Reg.readableBusy : Reg → Bool
  | .id => true
  | .ctrl => true
  | .status => true
  | .cmd => true
  | .srcAddr => true
  | .srcLen => true
  | .dstAddr => true
  | .dstCap => true
  | .magLimit => true
  | .blkStride => true
  | .blkStep => true
  | .frameW => true
  | .frameH => true
  | .frameC => true
  | .codeSel => true
  | .bsPad => true
  | .outLen => false
  | .bitCount => false
  | .zeroCount => false
  | .keptCount => false
  | .blockCount => false
  | .lzwNext => false
  | .hufInfo => false
  | .codeLen => false
  | .codeWord _ => false
  | .bsData => false
  | .bsWlen => false
  | .bsRlen => false
  | .bsRpos => false
  | .coef _ => false
  | .freq _ => false

/-- A host write of an operand register: a field stores its own bits of the value (10_state.md R42, R47-R50, R53-R57, R61, R64, R65). Any other register is not an operand register and is left alone. -/
def OperandRegs.set (g : OperandRegs) (r : Reg) (v : Word) : OperandRegs :=
  match r with
  | .srcAddr => { g with srcAddr := v }
  | .srcLen => { g with srcLen := v }
  | .dstAddr => { g with dstAddr := v }
  | .dstCap => { g with dstCap := v }
  | .magLimit => { g with magLimit := v }
  | .blkStride => { g with blkStride := v.setWidth 16 }
  | .blkStep => { g with blkStep := v.setWidth 16 }
  | .frameW => { g with frameW := v.setWidth 16 }
  | .frameH => { g with frameH := v.setWidth 16 }
  | .frameC => { g with frameC := v.setWidth 3 }
  | .codeSel => { g with codeSel := v.setWidth 8 }
  | .bsData => { g with bsData := v }
  | .bsPad => { g with bsPad := v.setWidth 3 }
  | .id => g
  | .ctrl => g
  | .status => g
  | .cmd => g
  | .outLen => g
  | .bitCount => g
  | .zeroCount => g
  | .keptCount => g
  | .blockCount => g
  | .lzwNext => g
  | .hufInfo => g
  | .codeLen => g
  | .codeWord _ => g
  | .bsWlen => g
  | .bsRlen => g
  | .bsRpos => g
  | .coef _ => g
  | .freq _ => g

end Sys2Proof.Machine
end

