-- ==== Sys2Proof/Machine/HostPort.lean ====
section
/-! DEFINITION. The host side: launch (40_control.md R171), the resets (70_reset_and_hazards.md R451-R453), and one bus access (20_memory.md R102-R104, 10_state.md R42, 70_reset_and_hazards.md R470, R471). -/

namespace Sys2Proof.Machine

/-- Launch (40_control.md R171): what a write of CMD does while BUSY = 0. -/
def State.launch (s : State) (w : Word) : State :=
  { s with cmd := w, pending := some w, status := s.status.launched }

/-- The destination addresses an aborted command leaves unspecified: its region of 40_control.md R178 when that region passes its range check, a block's footprint for DCT_INV and DCT_BLOCK (70_reset_and_hazards.md R453; log 8). -/
def abortAddrs (i : Instr) (s : State) : List Nat :=
  let region (n : Nat) : List Nat := if s.inRange s.dst n then regionAddrs s.dst n else []
  let block : List Nat := if s.inRange s.dst s.footprint then s.blockAddrs s.dst else []
  match i with
  | .bsFlush => region s.dstCap
  | .hufEncode => region s.dstCap
  | .hufDecode => region s.dstCap
  | .lzwEncode => region s.dstCap
  | .lzwDecode => region s.dstCap
  | .dctInv => block
  | .dctBlock => block
  | .dctFrame => region s.frameBytes
  | .nop => []
  | .bsClear => []
  | .bsPut _ => []
  | .bsLoad => []
  | .bsGet _ => []
  | .hufFreq => []
  | .hufTree => []
  | .hufCodes => []
  | .dctFwd => []
  | .dctQuant => []

/-- What an abort does to LMEM (70_reset_and_hazards.md R453); nothing when no command is pending, or the pending word is no command. -/
def State.abort (s : State) : State :=
  match s.pending with
  | none => s
  | some w =>
    match decode w with
    | .error _ => s
    | .ok i => s.spoil (abortAddrs i s)

/-- Every register, array and internal state at its reset value (10_state.md R80, 70_reset_and_hazards.md R452); LMEM, the parameters and the model's own fields stay. -/
def State.cleared (s : State) : State :=
  { State.reset with
    lmem := s.lmem, rstN := s.rstN, params := s.params, inputs := s.inputs, rdata := s.rdata, draws := s.draws,
    epoch := s.epoch }

/-- The soft reset, 70_reset_and_hazards.md R452. -/
def State.softReset (s : State) : State := s.abort.cleared

/-- The hardware reset, 70_reset_and_hazards.md R451: as R80, with every LMEM byte a new draw. -/
def State.hardReset (s : State) : State := { s.cleared with lmem := [], epoch := s.epoch + 1 }

/-- A level on the input `rst_n` (70_reset_and_hazards.md R451): low holds the reset state; a rise leaves the reset state; high on high is no event (log 13). -/
def State.resetPin (s : State) (level : Bool) : State :=
  if !level then { s.hardReset with rstN := false }
  else if s.rstN then s
  else { s.hardReset with rstN := true }

/-- The bytes of an access size (20_memory.md R103). -/
def Width.bytes : Width → Nat
  | .w8 => 1
  | .w16 => 2
  | .w32 => 4

/-- The offset of the LMEM window (20_memory.md R102). -/
def lmemWindow : Nat := 0x80000

/-- The accesses the CORE accepts (20_memory.md R103): 32 bits at a multiple of 4 below the LMEM window; aligned and wholly inside LMEM in the window. -/
def State.accepts (s : State) (off : Nat) (w : Width) : Bool :=
  if off < lmemWindow then w == .w32 && off % 4 == 0
  else off % w.bytes == 0 && off - lmemWindow + w.bytes ≤ s.params.lmemSize

/-- The number a little-endian byte sequence spells (20_memory.md R104). -/
def leNat : List Byte → Nat
  | [] => 0
  | b :: bs => b.toNat + 256 * leNat bs

/-- The `n` low bytes of a word, least significant first (20_memory.md R104). -/
def leBytes (v : Word) (n : Nat) : List Byte := (List.range n).map fun i => v.extractLsb' (8 * i) 8

/-- The bits of a word that an access of this size carries. -/
def Width.mask (w : Width) (v : Word) : Word :=
  match w with
  | .w8 => (v.setWidth 8).setWidth 32
  | .w16 => (v.setWidth 16).setWidth 32
  | .w32 => v

/-- An unspecified read value: a draw (70_reset_and_hazards.md R451, R471). -/
def State.readDraw (s : State) (w : Width) : State :=
  { s with rdata := w.mask (Config.drawWord s.draws), draws := s.draws + 1 }

/-- The value of a read is delivered. -/
def State.readValue (s : State) (v : Word) : State := { s with rdata := v }

/-- A host read (10_state.md R42, 20_memory.md R102-R104, 70_reset_and_hazards.md R451, R471; log 16). It changes nothing of the CORE (20_memory.md R110). -/
def State.hostRead (s : State) (off : BitVec 20) (w : Width) : State :=
  if !s.rstN then s.readDraw w
  else if !s.accepts off.toNat w then s.readValue 0
  else if off.toNat < lmemWindow then
    match regAt off.toNat with
    | none => s.readValue 0
    | some r => if s.busy && !r.readableBusy then s.readDraw w else s.readValue (readReg s r)
  else if s.busy then s.readDraw w
  else s.readValue (BitVec.ofNat 32 (leNat (s.readMem (off.toNat - lmemWindow) w.bytes)))

/-- A write of CTRL (10_state.md R44): bit 0 performs the soft reset, else bit 1 is IRQ_EN. -/
def State.writeCtrl (s : State) (v : Word) : State :=
  if v.getLsbD 0 then s.softReset else { s with irqEn := v.getLsbD 1 }

/-- An accepted write of a register while no command is pending, or of CTRL or STATUS at any time (10_state.md R42, R44-R69). A read-only register ignores it. -/
def State.writeReg (s : State) (r : Reg) (v : Word) : State :=
  match r with
  | .ctrl => s.writeCtrl v
  | .status => s.writeStatus v
  | .cmd => s.launch v
  | .coef i => { s with coef := s.coef.set i.val v }
  | r => { s with regs := s.regs.set r v }

/-- The write is to CTRL or STATUS: its offset lies in their bytes (70_reset_and_hazards.md R470; log 7). -/
def toCtrlOrStatus (off : Nat) : Bool := Reg.ctrl.offset ≤ off && off < Reg.status.offset + 4

/-- A host write (10_state.md R42, R45, 20_memory.md R102-R104, 70_reset_and_hazards.md R451, R470). -/
def State.hostWrite (s : State) (off : BitVec 20) (w : Width) (v : Word) : State :=
  if !s.rstN then s
  else if s.busy && !toCtrlOrStatus off.toNat then { s with status := { s.status with wrWhileBusy := true } }
  else if !s.accepts off.toNat w then s
  else if off.toNat < lmemWindow then
    match regAt off.toNat with
    | none => s
    | some r => s.writeReg r v
  else s.writeMem (off.toNat - lmemWindow) (leBytes v w.bytes)

/-- One host access, performed whole (20_memory.md R109). -/
def State.hostAccess (s : State) (a : Access) : State :=
  match a with
  | .read off w => s.hostRead off w
  | .write off w v => s.hostWrite off w v

end Sys2Proof.Machine
end

