-- ==== Sys2Proof/Machine/Step.lean ====
section
/-! DEFINITION. One step of the whole machine: the agent the schedule names moves (40_control.md R170). -/

namespace Sys2Proof.Machine

/-- Execute of a pending word (40_control.md R183): the decoded command, or the completion of an illegal word. -/
def runWord (w : Word) (s : State) : Host.Outcome State Fault Refusal :=
  match decode w with
  | .ok i => exec i s
  | .error _ => execIllegal s

/-- The engine's step, Complete, enabled exactly when BUSY = 1 (40_control.md R170, R173). An idle engine waits for a launch and changes nothing (70_reset_and_hazards.md R454; log 18). -/
def engineStep (s : State) : Host.Outcome State Fault Refusal :=
  match s.pending with
  | none => .next s
  | some w => runWord w s

/-- One step: the next entry of the schedule, and the engine when the schedule is empty, so that a pending command is never stuck (40_control.md R170; log 4). -/
def step (s : State) : Host.Outcome State Fault Refusal :=
  match s.inputs with
  | [] => engineStep s
  | .engine :: rest => engineStep { s with inputs := rest }
  | .access a :: rest => .next (State.hostAccess { s with inputs := rest } a)
  | .reset level :: rest => .next (State.resetPin { s with inputs := rest } level)

/-- The command word is launched as by a write of CMD (40_control.md R171), and the engine moves next (log 5). A command is one 32-bit word (30_encoding.md R140). -/
def State.withFetchWord (s : State) (nbits w : Nat) : State :=
  { s.launch (BitVec.ofNat 32 (w % 2 ^ nbits)) with inputs := [] }

end Sys2Proof.Machine
end

