-- ==== Sys2Proof/Machine/Script.lean ====
section
/-! DEFINITION. The host script language, 30_encoding.md R160-R163, and the two agents running together (40_control.md R170): every bus access and every engine move is one step of the machine (log 15). -/

namespace Sys2Proof.Machine

/-- The fields a script can test: STATUS (10_state.md R45) and HUF_INFO (R60). -/
inductive FieldName where
  | busy
  | done
  | err
  | wrWhileBusy
  | errcode
  | leaves
  | nodes
  | codesValid
  | treeValid
  deriving DecidableEq, Repr

/-- The register a field belongs to. -/
def FieldName.reg : FieldName → Reg
  | .busy => .status
  | .done => .status
  | .err => .status
  | .wrWhileBusy => .status
  | .errcode => .status
  | .leaves => .hufInfo
  | .nodes => .hufInfo
  | .codesValid => .hufInfo
  | .treeValid => .hufInfo

/-- A field of a register's value (10_state.md R45, R60). -/
def FieldName.of (f : FieldName) (v : Word) : Nat :=
  match f with
  | .busy => (v.extractLsb' 0 1).toNat
  | .done => (v.extractLsb' 1 1).toNat
  | .err => (v.extractLsb' 2 1).toNat
  | .wrWhileBusy => (v.extractLsb' 3 1).toNat
  | .errcode => (v.extractLsb' 8 8).toNat
  | .leaves => (v.extractLsb' 0 9).toNat
  | .nodes => (v.extractLsb' 16 9).toNat
  | .codesValid => (v.extractLsb' 30 1).toNat
  | .treeValid => (v.extractLsb' 31 1).toNat

/-- A statement of a host script (30_encoding.md R160). A line with a label is the label and then its statement. -/
inductive Stmt where
  | wr (r : Reg) (v : Word)
  | rd (r : Reg)
  | wrb (addr : Nat) (bytes : List Byte)
  | rdb (addr n : Nat)
  | launch (i : Instr)
  | wait
  | label (l : String)
  | goto (l : String)
  | ifEq (f : FieldName) (v : Nat) (l : String)
  deriving DecidableEq, Repr

/-- A quoted string stands for its ASCII bytes in order (30_encoding.md R160). DESIGN CHOICE, unsafe (log 15): for a character outside ASCII, on which the spec is silent, the byte is the low 8 bits of its code point. -/
def asciiBytes (cs : List Char) : List Byte := cs.map fun c => BitVec.ofNat 8 c.toNat

/-- The pseudo-instruction `cmd` (30_encoding.md R161). -/
def cmdStmts (i : Instr) : List Stmt := [.launch i, .wait]

/-- The pseudo-instruction `ack` (30_encoding.md R162). -/
def ackStmts : List Stmt := [.wr .status 0x0000000E]

/-- The pseudo-instruction `check` (30_encoding.md R163). -/
def checkStmts : List Stmt := [.rd .status, .ifEq .err 1 "error"]

/-- A script and the machine it drives. -/
structure HostRun where
  core : State
  /-- The statements, in order. -/
  prog : List Stmt
  /-- The index of the statement to run next; past the end the script has ended. -/
  pos  : Nat
  /-- How many accesses of the current `wrb` or `rdb` were made. -/
  sub  : Nat
  /-- The most recent value read of each register the script has read, newest first. -/
  seen : List (Reg × Word)
  /-- The bytes `rdb` has read, oldest first. -/
  got  : List Byte
  deriving DecidableEq, Repr

/-- A script at its start. -/
def HostRun.start (core : State) (prog : List Stmt) : HostRun :=
  { core, prog, pos := 0, sub := 0, seen := [], got := [] }

/-- The script has run past its last line (30_encoding.md R160). -/
def HostRun.ended (h : HostRun) : Bool := h.prog.length ≤ h.pos

/-- The position after `label:`, if the script has that label (30_encoding.md R160). DESIGN CHOICE: where a label stands twice, on which the spec is silent, the script goes on after the first (log 15). -/
def HostRun.afterLabel (h : HostRun) (l : String) : Option Nat :=
  (h.prog.idxOf? (.label l)).map (· + 1)

/-- One move of the machine in which the named agent moves. -/
def HostRun.move (h : HostRun) (i : Input) : Option HostRun :=
  match step { h.core with inputs := [i] } with
  | .next s => some { h with core := s }
  | .fault _ => none
  | .refused _ => none

/-- The script goes on at its next statement. -/
def HostRun.advance (h : HostRun) : HostRun := { h with pos := h.pos + 1, sub := 0 }

/-- One bus access of the current statement. -/
def HostRun.access (h : HostRun) (a : Access) : Option HostRun := h.move (.access a)

/-- A 32-bit read of a register, remembered as its most recent value (30_encoding.md R160). -/
def HostRun.readReg (h : HostRun) (r : Reg) : Option HostRun :=
  (h.access (.read (BitVec.ofNat 20 r.offset) .w32)).map fun h' =>
    { h' with seen := (r, h'.core.rdata) :: h'.seen }

/-- One byte access to the LMEM window at LMEM address `a`, host offset 0x80000 + `a` (20_memory.md R102, 30_encoding.md R160). DESIGN CHOICE: an address of 0x80000 or more, for which there is no 20-bit offset (20_memory.md R101), is no access of a script, and the turn cannot be taken (log 15). -/
def HostRun.byteAccess (h : HostRun) (a : Nat) (access : BitVec 20 → Access) : Option HostRun :=
  if lmemWindow + a < 2 ^ 20 then h.access (access (BitVec.ofNat 20 (lmemWindow + a))) else none

/-- One turn of the host: one bus access, or one control statement, which makes none (30_encoding.md R160). None where the script has ended or is no script by R160: an unknown label, a test of a register it never read, a BS_PUT or BS_GET whose n is outside 1..32, an LMEM address without an offset. DESIGN CHOICE: that such a turn is none (log 15). -/
def HostRun.hostTurn (h : HostRun) : Option HostRun :=
  match h.prog[h.pos]? with
  | none => none
  | some (.wr r v) => (h.access (.write (BitVec.ofNat 20 r.offset) .w32 v)).map HostRun.advance
  | some (.rd r) => (h.readReg r).map HostRun.advance
  | some (.wrb addr bytes) =>
    match bytes[h.sub]? with
    | none => some h.advance
    | some b =>
      (h.byteAccess (addr + h.sub) fun off => .write off .w8 (b.setWidth 32)).map fun h' =>
        if h.sub + 1 < bytes.length then { h' with sub := h.sub + 1 } else h'.advance
  | some (.rdb addr n) =>
    if h.sub < n then
      (h.byteAccess (addr + h.sub) fun off => .read off .w8).map fun h' =>
        let h'' := { h' with got := h'.got ++ [h'.core.rdata.setWidth 8] }
        if h.sub + 1 < n then { h'' with sub := h.sub + 1 } else h''.advance
    else some h.advance
  | some (.launch i) =>
    if i.wf then (h.access (.write (BitVec.ofNat 20 Reg.cmd.offset) .w32 (encode i))).map HostRun.advance else none
  | some .wait =>
    (h.readReg .status).map fun h' => if FieldName.busy.of h'.core.rdata = 0 then h'.advance else h'
  | some (.label _) => some h.advance
  | some (.goto l) => (h.afterLabel l).map fun p => { h with pos := p, sub := 0 }
  | some (.ifEq f v l) =>
    match h.seen.lookup f.reg with
    | none => none
    | some w => if f.of w = v then (h.afterLabel l).map fun p => { h with pos := p, sub := 0 } else some h.advance

/-- One turn of the engine (40_control.md R170). -/
def HostRun.engineTurn (h : HostRun) : Option HostRun := h.move .engine

/-- Who moves: the host, or the engine (40_control.md R170). -/
inductive Turn where
  | host
  | engine
  deriving DecidableEq, Repr

/-- The run of a script under one interleaving (40_control.md R170); none where a turn cannot be taken. -/
def HostRun.run : List Turn → HostRun → Option HostRun
  | [], h => some h
  | .host :: ts, h =>
    match h.hostTurn with
    | none => none
    | some h' => HostRun.run ts h'
  | .engine :: ts, h =>
    match h.engineTurn with
    | none => none
    | some h' => HostRun.run ts h'

end Sys2Proof.Machine
end

