-- ==== Sys2Proof/Safety.lean ====
section
/-! DEFINITION. What counts as a safe run, in the terms the statements use: the invariant of the machine, and a few words of the spec that no operation of the machine needs. -/

namespace Sys2Proof

/-- A command that reads or writes the accumulator (41_bitstream.md R228). -/
def Instr.isBitstream : Instr → Bool
  | .bsClear => true
  | .bsPut _ => true
  | .bsFlush => true
  | .bsLoad => true
  | .bsGet _ => true
  | .nop => false
  | .hufFreq => false
  | .hufTree => false
  | .hufCodes => false
  | .hufEncode => false
  | .hufDecode => false
  | .lzwEncode => false
  | .lzwDecode => false
  | .dctFwd => false
  | .dctQuant => false
  | .dctInv => false
  | .dctBlock => false
  | .dctFrame => false

end Sys2Proof

namespace Sys2Proof.Machine

/-- A step that answers a next state. -/
def Safe (s : State) : Prop := ∃ t, step s = .next t

/-- LMEM's data is canonical and lies inside LMEM (20_memory.md R100). -/
def State.LmemOk (s : State) : Prop := Memory.wf s.lmem ∧ ∀ c ∈ s.lmem, c.1 < s.params.lmemSize

/-- The accumulator bounds of 10_state.md R73. -/
def Accumulator.Ok (a : Accumulator) (cap : Nat) : Prop :=
  a.wbits.length ≤ cap ∧ a.rbits.length ≤ cap ∧ a.rpos ≤ a.rbits.length

/-- A codebook is a map whose codes have 1..255 bits (10_state.md R75). -/
def CodeBook.Ok (C : CodeBook) : Prop :=
  (C.map Prod.fst).Nodup ∧ ∀ e ∈ C, 1 ≤ e.2.length ∧ e.2.length ≤ 255

/-- The Huffman stores: 256 counts (10_state.md R69), a tree of at most 511 nodes (R74), codes of 1..255 bits (R75). -/
def HufStore.Ok (h : HufStore) : Prop :=
  h.freq.length = 256 ∧ (∀ t, h.tree = some t → t.nodes ≤ 511) ∧ ∀ C, h.codes = some C → CodeBook.Ok C

/-- STATUS.ERRCODE is 0 or a code of the table (60_exceptions.md R401, 93_implementation_defined.md X6). -/
def Status.CodeOk (st : Status) : Prop := st.errcode = 0 ∨ ∃ e : ErrCode, st.errcode = e.code

/-- The pending word is the one in CMD, and while it is pending DONE, ERR and ERRCODE are 0 (10_state.md R45, R76, 70_reset_and_hazards.md R470). -/
def State.EngineOk (s : State) : Prop :=
  (s.pending = none ∨ s.pending = some s.cmd) ∧
    (s.busy = true → s.status.done = false ∧ s.status.err = false ∧ s.status.errcode = 0)

/-- The invariant of the machine. -/
structure State.Inv (s : State) : Prop where
  params  : s.params.legal = true
  lmem    : s.LmemOk
  coef    : s.coef.length = 64
  acc     : s.acc.Ok s.params.bsCapBits
  huf     : s.huf.Ok
  engine  : s.EngineOk
  errcode : s.status.CodeOk
  /-- LZW_NEXT is 0 until an LZW command has succeeded, then 256..65536 (10_state.md R59). -/
  lzwNext : s.res.lzwNext.toNat = 0 ∨ 256 ≤ s.res.lzwNext.toNat ∧ s.res.lzwNext.toNat ≤ 65536
  /-- While `rst_n` is 0 no command is pending (70_reset_and_hazards.md R451). -/
  held    : s.rstN = false → s.pending = none

/-- A tree with every frequency 0 (42_huffman.md R246). -/
def HufTree.zeroFreq : HufTree → HufTree
  | .leaf s _ => .leaf s 0
  | .node l r _ => .node l.zeroFreq r.zeroFreq 0

/-- The leaves of a tree, left to right: symbol and count (42_huffman.md R287). -/
def HufTree.leafList : HufTree → List (Byte × Nat)
  | .leaf s f => [(s, f)]
  | .node l r _ => l.leafList ++ r.leafList

/-- Every internal node carries the sum of its children's frequencies (42_huffman.md R287). -/
def HufTree.Summed : HufTree → Prop
  | .leaf _ _ => True
  | .node l r f => f = l.weight + r.weight ∧ l.Summed ∧ r.Summed

/-- `p` is the path of a leaf of symbol `c`: it ends on that leaf, and every shorter part of it on a node (42_huffman.md R241). -/
def HufTree.IsPath (t : HufTree) (p : Bits) (c : Byte) : Prop :=
  (∃ g, p.foldl HufTree.descend t = .leaf c g) ∧
    ∀ k < p.length, ∃ l r f, (p.take k).foldl HufTree.descend t = .node l r f

/-- Bits that leave the root of `t` and have reached no leaf at their end (42_huffman.md R275). -/
def HufTree.CutInside (t : HufTree) (b : Bits) : Prop :=
  b ≠ [] ∧ ∀ k, 0 < k → k ≤ b.length → ∃ l r f, (b.take k).foldl HufTree.descend t = .node l r f

/-- The error of the first byte at which a serialized tree goes wrong, none if it does not: `need` subtrees are still to be read and `count` nodes have been (42_huffman.md R246, the recursion's stack as a number). -/
def treeError : Nat → Nat → List Byte → Option ErrCode
  | 0, _, _ => none
  | _ + 1, _, [] => some .truncatedStream
  | need + 1, count, tag :: z =>
    if tag ≠ 0x00 ∧ tag ≠ 0x01 then some .corruptStream
    else if 511 < count + 1 then some .corruptStream
    else if tag = 0x00 then treeError (need + 2) (count + 1) z
    else
      match z with
      | [] => some .truncatedStream
      | _ :: z' => treeError need (count + 1) z'

/-- The queue at the start of the loop of 42_huffman.md R248: the symbols with a nonzero count in ascending order, numbered as they arrive. -/
def startQueue (F : List Nat) : List QEntry :=
  ((List.range 256).filter fun c => F.getD c 0 != 0).zipIdx.map fun p =>
    { freq := F.getD p.1 0, arrival := p.2, tree := .leaf (BitVec.ofNat 8 p.1) (F.getD p.1 0) }

/-- One turn of that loop: the two smallest (freq, arrival) pairs leave the queue, and their merge, the first on the left, joins it. -/
def MergeTurn (arrival : Nat) (Q Q' : List QEntry) : Prop :=
  ∃ x y R, Q.Perm (x :: y :: R) ∧
    (∀ z ∈ y :: R, x.freq < z.freq ∨ (x.freq = z.freq ∧ x.arrival < z.arrival)) ∧
    (∀ z ∈ R, y.freq < z.freq ∨ (y.freq = z.freq ∧ y.arrival < z.arrival)) ∧
    Q'.Perm ({ freq := x.freq + y.freq, arrival, tree := .node x.tree y.tree (x.freq + y.freq) } :: R)

/-- The loop: turns with rising arrival numbers until one entry is left, whose tree is the result. -/
inductive MergeRun : Nat → List QEntry → HufTree → Prop where
  | done (arrival : Nat) (e : QEntry) : MergeRun arrival [e] e.tree
  | turn {arrival : Nat} {Q Q' : List QEntry} {t : HufTree} :
      MergeTurn arrival Q Q' → MergeRun (arrival + 1) Q' t → MergeRun arrival Q t

/-- What LZW_ENCODE inserts after matching part `k` of its source: that part and the next byte (43_lzw.md R303). -/
def grownPart (parts : List (List Byte)) (k : Nat) : List Byte := parts.getD k [] ++ (parts.getD (k + 1) []).take 1

/-- The greedy cut of a source into parts, and the codes of the parts (43_lzw.md R303). Code k stands for part k: a byte, or entry 256 + j, which is part j grown by the byte after it. No part grown by the byte after it begins an earlier entry, so no longer match was there. -/
def LzwCut (y : List Byte) (codes : List Nat) (parts : List (List Byte)) : Prop :=
  parts.flatten = y ∧ parts.length = codes.length ∧ (∀ w ∈ parts, w ≠ []) ∧
    (∀ k < codes.length,
      parts.getD k [] =
        if codes.getD k 0 < 256 then [BitVec.ofNat 8 (codes.getD k 0)]
        else grownPart parts (codes.getD k 0 - 256)) ∧
    ∀ k, k + 1 < codes.length → ∀ j < k, ¬grownPart parts k <+: grownPart parts j

/-- The LMEM addresses a command may write: its destination region of 40_control.md R178, [] for a command that has none. -/
def State.destAddrs (s : State) (i : Instr) : List Nat :=
  match i with
  | .bsFlush => regionAddrs s.dst s.dstCap
  | .hufEncode => regionAddrs s.dst s.dstCap
  | .hufDecode => regionAddrs s.dst s.dstCap
  | .lzwEncode => regionAddrs s.dst s.dstCap
  | .lzwDecode => regionAddrs s.dst s.dstCap
  | .dctInv => s.blockAddrs s.dst
  | .dctBlock => s.blockAddrs s.dst
  | .dctFrame => regionAddrs s.dst s.frameBytes
  | .nop => []
  | .bsClear => []
  | .bsPut _ => []
  | .bsLoad => []
  | .bsGet _ => []
  | .hufFreq => []
  | .hufTree => []
  | .hufCodes => []
  | .dctFwd => []
  | .dctQuant => []

/-- The operand registers: offset, name, width in bits (10_state.md R41, R47-R50, R53-R57, R61, R64, R65). -/
def operandMap : List (Nat × Reg × Nat) :=
  [(0x010, .srcAddr, 32), (0x014, .srcLen, 32), (0x018, .dstAddr, 32), (0x01C, .dstCap, 32), (0x028, .magLimit, 32),
    (0x02C, .blkStride, 16), (0x030, .blkStep, 16), (0x034, .frameW, 16), (0x038, .frameH, 16), (0x03C, .frameC, 3),
    (0x054, .codeSel, 8), (0x080, .bsData, 32), (0x084, .bsPad, 3)]

/-- The size whose range check at DST_ADDR is that of the command's destination region (40_control.md R178, R181), 0 for a command that has none. -/
def State.destSize (s : State) (i : Instr) : Nat :=
  match i with
  | .bsFlush => s.dstCap
  | .hufEncode => s.dstCap
  | .hufDecode => s.dstCap
  | .lzwEncode => s.dstCap
  | .lzwDecode => s.dstCap
  | .dctInv => s.footprint
  | .dctBlock => s.footprint
  | .dctFrame => s.frameBytes
  | .nop => 0
  | .bsClear => 0
  | .bsPut _ => 0
  | .bsLoad => 0
  | .bsGet _ => 0
  | .hufFreq => 0
  | .hufTree => 0
  | .hufCodes => 0
  | .dctFwd => 0
  | .dctQuant => 0

/-- A command launched on an idle machine and completed with success (40_control.md R171, R173, R174): the state after it; none where it fails. -/
def State.runCommand (s : State) (i : Instr) : Option State :=
  match exec i (s.launch (encode i)) with
  | .next t => if t.status.err then none else some t
  | .fault _ => none
  | .refused _ => none

/-- BS_DATA written with v, then BS_PUT n, for each pair (n, v) in order (41_bitstream.md R225). -/
def putAll : List (Nat × Word) → State → Option State
  | [], s => some s
  | (n, v) :: ps, s =>
    match State.runCommand { s with regs := { s.regs with bsData := v } } (.bsPut n) with
    | none => none
    | some t => putAll ps t

/-- BS_GET n for each n in order, with the values BS_DATA took (41_bitstream.md R225). -/
def getAll : List Nat → State → Option (List Word × State)
  | [], s => some ([], s)
  | n :: ns, s =>
    match s.runCommand (.bsGet n) with
    | none => none
    | some t =>
      match getAll ns t with
      | none => none
      | some (vs, u) => some (t.regs.bsData :: vs, u)

/-- The regions of a codec command pass its checks (40_control.md R178-R180). -/
def State.RegionsOk (s : State) : Prop :=
  s.src + s.srcLen ≤ s.params.lmemSize ∧ s.dst + s.dstCap ≤ s.params.lmemSize ∧
    ¬(0 < s.srcLen ∧ 0 < s.dstCap ∧ s.src < s.dst + s.dstCap ∧ s.dst < s.src + s.srcLen)

/-- A codec command failed with `e` after its region checks, from the state `s'` its rule gives: an error completion in which every byte of the destination is a draw and every other byte stays (40_control.md R175, 93_implementation_defined.md U4). -/
def FailedSpoiled (s' t : State) (e : ErrCode) : Prop :=
  t = { s' with
        pending := none
        status := { s'.status with done := true, err := true, errcode := e.code }
        res := { s'.res with outLen := 0, bitCount := 0 }
        lmem := t.lmem
        draws := t.draws } ∧
    (∀ a ∈ regionAddrs s'.dst s'.dstCap, ∃ n, s'.draws ≤ n ∧ t.readByte a = Config.drawByte n) ∧
    ∀ a, a ∉ regionAddrs s'.dst s'.dstCap → t.readByte a = s'.readByte a

/-- The addresses of the samples (r, c) of a block at base `a` that a later sample in row-major order has too (44_transform.md R353). -/
def State.overwritten (s : State) (a i : Nat) : Prop :=
  ∃ j, i < j ∧ j < 64 ∧ s.sampleAddr a (j / 8) (j % 8) = s.sampleAddr a (i / 8) (i % 8)

end Sys2Proof.Machine
end

