-- ==== Sys2Proof/Certificates/Slice0/Obligations.lean ====
section
/-! DEFINITION. The statements for the provers. Each docstring names the rule of the spec a statement formalises. -/

open Sys2Proof Sys2Proof.Machine

/-! ## Encoding -/

/-- The worked encodings of 30_encoding.md R148. -/
def Obligations.WorkedEncodings : Prop :=
  decode 0x00000000 = .ok .nop ∧ decode 0x00000311 = .ok (.bsPut 3) ∧ decode 0x00002011 = .ok (.bsPut 32) ∧
    decode 0x00000714 = .ok (.bsGet 7) ∧ decode 0x00000023 = .ok .hufEncode ∧
    decode 0x00000024 = .ok .hufDecode ∧ decode 0x00000030 = .ok .lzwEncode ∧
    decode 0x00000031 = .ok .lzwDecode ∧ decode 0x00000044 = .ok .dctFrame ∧
    encode .nop = 0x00000000 ∧ encode (.bsPut 3) = 0x00000311 ∧ encode (.bsPut 32) = 0x00002011 ∧
    encode (.bsGet 7) = 0x00000714 ∧ encode .hufEncode = 0x00000023 ∧ encode .hufDecode = 0x00000024 ∧
    encode .lzwEncode = 0x00000030 ∧ encode .lzwDecode = 0x00000031 ∧ encode .dctFrame = 0x00000044

/-- Decoding an encoded well-formed command gives it back, and a word that decodes is the encoding of what it decodes to (30_encoding.md R141-R144, R147). -/
def Obligations.DecodeAndEncodeAgree : Prop :=
  (∀ i : Instr, i.wf = true → decode (encode i) = .ok i) ∧
    ∀ (w : Word) (i : Instr), decode w = .ok i → i.wf = true ∧ encode i = w

/-- 30_encoding.md R145: exactly the words it lists are illegal, and a pending illegal word completes with IllegalCommand and changes nothing else than 40_control.md R175 says. The schedule clause is the model's choice (log 4), not the rule's: the engine moves when the schedule is empty or has an engine entry at its head, and that entry is consumed. -/
def Obligations.IllegalWordsCompleteWithIllegalCommand : Prop :=
  ∀ w : Word,
    ((∃ r, decode w = .error r) ↔
      w.toNat / 65536 ≠ 0 ∨
        w.toNat % 256 ∉ [0x00, 0x10, 0x11, 0x12, 0x13, 0x14, 0x20, 0x21, 0x22, 0x23, 0x24, 0x30, 0x31, 0x40, 0x41,
          0x42, 0x43, 0x44] ∨
        (w.toNat % 256 ≠ 0x11 ∧ w.toNat % 256 ≠ 0x14 ∧ w.toNat / 256 % 256 ≠ 0) ∨
        ((w.toNat % 256 = 0x11 ∨ w.toNat % 256 = 0x14) ∧
          (w.toNat / 256 % 256 = 0 ∨ 32 < w.toNat / 256 % 256))) ∧
      ∀ s : State, s.pending = some w → (∃ r, decode w = .error r) →
        ∀ rest, (s.inputs = [] ∧ rest = []) ∨ s.inputs = .engine :: rest →
          step s = .next
            { s with
              inputs := rest
              pending := none
              status := { s.status with done := true, err := true, errcode := 0x10 }
              res := { s.res with outLen := 0, bitCount := 0 } }

/-! ## The step, the launch, the completion -/

/-- One step by the head of the schedule (40_control.md R170, R173, R183, 20_memory.md R109): an empty schedule and an engine entry let the engine run the decoded pending command; an idle engine changes nothing (the model's choice, log 18); a host access is performed whole; a level on rst_n is taken. A taken entry is consumed (log 4). -/
def Obligations.StepRunsDecodedCommand : Prop :=
  ∀ s : State,
    (∀ w i, s.pending = some w → decode w = .ok i →
        (s.inputs = [] → step s = exec i s) ∧
          ∀ rest, s.inputs = .engine :: rest → step s = exec i { s with inputs := rest }) ∧
      (s.pending = none →
        (s.inputs = [] → step s = .next s) ∧
          ∀ rest, s.inputs = .engine :: rest → step s = .next { s with inputs := rest }) ∧
      (∀ off w rest, s.inputs = .access (.read off w) :: rest →
        step s = .next (State.hostRead { s with inputs := rest } off w)) ∧
      (∀ off w v rest, s.inputs = .access (.write off w v) :: rest →
        step s = .next (State.hostWrite { s with inputs := rest } off w v)) ∧
      ∀ b rest, s.inputs = .reset b :: rest → step s = .next (State.resetPin { s with inputs := rest } b)

/-- 40_control.md R171: a host write of CMD while BUSY = 0. That the write stands at the head of the schedule and is consumed is the model's choice (log 4). -/
def Obligations.LaunchEffects : Prop :=
  ∀ (s : State) (v : Word) (rest : List Input),
    s.inputs = .access (.write 0x0000C .w32 v) :: rest → s.rstN = true → s.busy = false →
      step s = .next
        { s with
          inputs := rest
          cmd := v
          pending := some v
          status := { s.status with done := false, err := false, errcode := 0 } }

/-- The two completions, 40_control.md R173-R175, with the codes of 60_exceptions.md R401. -/
def Obligations.CompletionEffects : Prop :=
  (∀ (s : State) (n m : Nat),
      s.completeOk n m =
        { s with
          pending := none
          status := { s.status with done := true }
          res := { s.res with outLen := BitVec.ofNat 32 n, bitCount := BitVec.ofNat 32 m } }) ∧
    (∀ (s : State) (e : ErrCode),
      s.completeErr e =
        { s with
          pending := none
          status := { s.status with done := true, err := true, errcode := e.code }
          res := { s.res with outLen := 0, bitCount := 0 } }) ∧
    [ErrCode.emptyInput, .corruptStream, .truncatedStream, .invalidCode, .unsupportedAlphabetSize, .illegalCommand,
        .badParameter, .addressRange, .regionOverlap, .outputOverflow, .notReady].map ErrCode.code =
      [0x01, 0x02, 0x03, 0x04, 0x05, 0x10, 0x11, 0x12, 0x13, 0x14, 0x15]

/-- Every command completes, with success or with exactly one error code, and no step of any agent stops the machine (40_control.md R173-R175, 60_exceptions.md R400, R411). -/
def Obligations.EveryCommandCompletes : Prop :=
  (∀ (i : Instr) (s : State), ∃ t, exec i s = .next t ∧ t.pending = none ∧ t.status.done = true ∧
      t.status.wrWhileBusy = s.status.wrWhileBusy ∧
      ((t.status.err = s.status.err ∧ t.status.errcode = s.status.errcode) ∨
        (t.status.err = true ∧ (∃ e : ErrCode, t.status.errcode = e.code) ∧ t.res.outLen = 0 ∧
          t.res.bitCount = 0))) ∧
    ∀ s : State, ∃ t, step s = .next t

/-- The frame of every command: the control registers, the parameters, the schedule and the bus value stay; the operand registers stay but BS_DATA under BS_GET and BS_PAD under BS_FLUSH; every store and result register stays but under the commands whose rules write it (10_state.md R41, R58, R59, R68, R69, R73-R75). -/
def Obligations.CommandFrame : Prop :=
  ∀ (i : Instr) (s t : State), exec i s = .next t →
    (t.irqEn = s.irqEn ∧ t.cmd = s.cmd ∧ t.params = s.params ∧ t.inputs = s.inputs ∧ t.rdata = s.rdata ∧
        t.rstN = s.rstN ∧ t.epoch = s.epoch) ∧
      t.regs = { s.regs with bsData := t.regs.bsData, bsPad := t.regs.bsPad } ∧
      ((∀ n, i ≠ .bsGet n) → t.regs.bsData = s.regs.bsData) ∧
      (i ≠ .bsFlush → t.regs.bsPad = s.regs.bsPad) ∧
      (i.isBitstream = false → t.acc = s.acc) ∧
      (i ∉ [Instr.dctFwd, .dctQuant, .dctBlock, .dctFrame] → t.coef = s.coef) ∧
      (i ∉ [Instr.dctQuant, .dctBlock, .dctFrame] →
        t.res.zeroCount = s.res.zeroCount ∧ t.res.keptCount = s.res.keptCount ∧
          t.res.blockCount = s.res.blockCount) ∧
      (i ∉ [Instr.lzwEncode, .lzwDecode] → t.res.lzwNext = s.res.lzwNext) ∧
      (i ∉ [Instr.hufFreq, .hufEncode] → t.huf.freq = s.huf.freq) ∧
      (i ∉ [Instr.hufTree, .hufEncode, .hufDecode] → t.huf.tree = s.huf.tree) ∧
      (i ∉ [Instr.hufTree, .hufCodes, .hufEncode, .hufDecode] → t.huf.codes = s.huf.codes)

/-- No command changes a byte outside its destination region or footprint; a command without one changes no byte (40_control.md R175, R178, 20_memory.md R100). The address of every stored byte is computed from DST_ADDR and the size registers by the same functions the commands use. -/
def Obligations.StoresStayInDestination : Prop :=
  ∀ (i : Instr) (s t : State), exec i s = .next t →
    ∀ a, a ∉ s.destAddrs i → t.readByte a = s.readByte a

/-- Errors are precise (60_exceptions.md R420): a failed command other than HUF_TREE and the four codec commands changes STATUS and the result registers OUT_LEN and BITCOUNT and nothing else. -/
def Obligations.PlainErrorsArePrecise : Prop :=
  ∀ (i : Instr) (s t : State), exec i s = .next t → s.status.err = false → t.status.err = true →
    i ∉ [Instr.hufTree, .hufEncode, .hufDecode, .lzwEncode, .lzwDecode] → ∃ e : ErrCode, t = s.completeErr e

/-- The interrupt output (60_exceptions.md R421): a completion raises it when it is enabled, enabling it later raises it at once, a launch and an acknowledge lower it. -/
def Obligations.InterruptFollowsDone : Prop :=
  (∀ s : State, irq s = true ↔ s.irqEn = true ∧ s.status.done = true) ∧
    (∀ (i : Instr) (s t : State), exec i s = .next t → irq t = s.irqEn) ∧
    (∀ s : State, s.rstN = true → s.status.done = true → irq (s.hostWrite 0x00004 .w32 0x2) = true) ∧
    (∀ (s : State) (v : Word), s.rstN = true → s.busy = false → irq (s.hostWrite 0x0000C .w32 v) = false) ∧
    ∀ s : State, s.rstN = true → irq (s.hostWrite 0x00008 .w32 0xE) = false

/-! ## The host port -/

/-- STATUS as it reads and as a write clears it (10_state.md R45, 60_exceptions.md R423). -/
def Obligations.StatusRegisterReadsAndClears : Prop :=
  ∀ s : State,
    (statusWord s).toNat =
        s.busy.toNat + 2 * s.status.done.toNat + 4 * s.status.err.toNat + 8 * s.status.wrWhileBusy.toNat +
          256 * s.status.errcode.toNat ∧
      ∀ v : Word, s.rstN = true →
        s.hostWrite 0x00008 .w32 v =
          { s with
            status :=
              { done := s.status.done && !v.getLsbD 1
                err := s.status.err && !v.getLsbD 2
                wrWhileBusy := s.status.wrWhileBusy && !v.getLsbD 3
                errcode := s.status.errcode } }

/-- 70_reset_and_hazards.md R470: writes while busy. That the first clause takes in writes of a wrong width, misaligned or outside LMEM, of which 20_memory.md R103 says that no access sets a status bit, is the model's choice (log 7, DEDUCED, unsafe). -/
def Obligations.WritesWhileBusyAreDropped : Prop :=
  ∀ s : State, s.rstN = true → s.busy = true →
    (∀ (off : BitVec 20) (w : Width) (v : Word), off.toNat < 0x004 ∨ 0x00C ≤ off.toNat →
        s.hostWrite off w v = { s with status := { s.status with wrWhileBusy := true } }) ∧
      (∀ v : Word, v.getLsbD 0 = true → s.hostWrite 0x00004 .w32 v = s.softReset) ∧
      (∀ v : Word, v.getLsbD 0 = false → s.hostWrite 0x00004 .w32 v = { s with irqEn := v.getLsbD 1 }) ∧
      ∀ v : Word, s.hostWrite 0x00008 .w32 v = s.writeStatus v

/-- 70_reset_and_hazards.md R471: reads while busy return the listed registers' values and draws for every other register and for the windows; and no host read, busy or not, has a side effect (20_memory.md R110): it delivers a value and, at most, uses up a draw of the model's. -/
def Obligations.ReadsWhileBusy : Prop :=
  (∀ (s : State) (off : BitVec 20) (w : Width),
    s.hostRead off w = { s with rdata := (s.hostRead off w).rdata, draws := (s.hostRead off w).draws }) ∧
  ∀ s : State, s.rstN = true → s.busy = true →
    (∀ r : Reg, r.readableBusy = true →
        s.hostRead (BitVec.ofNat 20 r.offset) .w32 = { s with rdata := readReg s r }) ∧
      (∀ r : Reg, r.readableBusy = false →
        s.hostRead (BitVec.ofNat 20 r.offset) .w32 =
          { s with rdata := Config.drawWord s.draws, draws := s.draws + 1 }) ∧
      (∀ (off : BitVec 20) (w : Width), 0x80000 ≤ off.toNat → off.toNat % w.bytes = 0 →
        off.toNat - 0x80000 + w.bytes ≤ s.params.lmemSize →
        s.hostRead off w = { s with rdata := w.mask (Config.drawWord s.draws), draws := s.draws + 1 }) ∧
      ∀ r : Reg, r.readableBusy = true ↔
        r ∈ [Reg.id, .ctrl, .status, .cmd, .srcAddr, .srcLen, .dstAddr, .dstCap, .magLimit, .blkStride, .blkStep,
          .frameW, .frameH, .frameC, .codeSel, .bsPad]

/-- The registers on an idle machine (10_state.md R41-R44, R47-R69). A 32-bit read of a register returns its value; an operand register stores its own bits of a written value, reads the other bits 0 and changes nothing else; a COEF entry stores the whole word; a write of CTRL with bit 0 clear sets IRQ_EN and nothing else; a read-only register ignores a write; an aligned unmapped offset below the LMEM window ignores a write and reads 0. -/
def Obligations.RegistersReadBackTheirBits : Prop :=
  ∀ (s : State) (v : Word), s.rstN = true → s.busy = false →
    (∀ r : Reg, s.hostRead (BitVec.ofNat 20 r.offset) .w32 = { s with rdata := readReg s r }) ∧
      (readReg s .id = 0x46430001 ∧ readReg s .cmd = s.cmd ∧ readReg s .outLen = s.res.outLen ∧
        readReg s .bitCount = s.res.bitCount ∧ readReg s .zeroCount = s.res.zeroCount ∧
        readReg s .keptCount = s.res.keptCount ∧ readReg s .blockCount = s.res.blockCount ∧
        (readReg s .lzwNext).toNat = s.res.lzwNext.toNat ∧
        readReg s .bsWlen = BitVec.ofNat 32 s.acc.wbits.length ∧
        readReg s .bsRlen = BitVec.ofNat 32 s.acc.rbits.length ∧ readReg s .bsRpos = BitVec.ofNat 32 s.acc.rpos ∧
        ∀ c : Fin 256, readReg s (.freq c) = s.huf.freq.getD c.val 0) ∧
      (∀ p ∈ operandMap, ∃ g : OperandRegs,
        s.hostWrite (BitVec.ofNat 20 p.1) .w32 v = { s with regs := g } ∧
          (State.hostRead { s with regs := g } (BitVec.ofNat 20 p.1) .w32).rdata.toNat = v.toNat % 2 ^ p.2.2 ∧
          ∀ q ∈ operandMap, q.1 ≠ p.1 → readReg { s with regs := g } q.2.1 = readReg s q.2.1) ∧
      (∀ i : Fin 64, s.coef.length = 64 → ∃ C : List Word, C.length = 64 ∧
        s.hostWrite (BitVec.ofNat 20 (0x1000 + 4 * i.val)) .w32 v = { s with coef := C } ∧
          ∀ j : Fin 64, (State.hostRead { s with coef := C } (BitVec.ofNat 20 (0x1000 + 4 * j.val)) .w32).rdata =
            if j = i then v else s.coef.getD j.val 0) ∧
      (v.getLsbD 0 = false →
        s.hostWrite 0x00004 .w32 v = { s with irqEn := v.getLsbD 1 } ∧
          ((s.hostWrite 0x00004 .w32 v).hostRead 0x00004 .w32).rdata.toNat = 2 * (v.getLsbD 1).toNat) ∧
      (∀ r : Reg, r ∉ [Reg.ctrl, .status, .cmd] → r ∉ operandMap.map (fun p => p.2.1) → (∀ i, r ≠ .coef i) →
        s.hostWrite (BitVec.ofNat 20 r.offset) .w32 v = s) ∧
      ∀ off : BitVec 20, off.toNat < 0x80000 → off.toNat % 4 = 0 → (∀ r : Reg, r.offset ≠ off.toNat) →
        s.hostWrite off .w32 v = s ∧ s.hostRead off .w32 = { s with rdata := 0 }

/-- The LMEM window (20_memory.md R102-R104): a write that is aligned and lies wholly inside LMEM stores the value's bytes, least significant first, and such a read of the same place returns it; every other byte stays. -/
def Obligations.LmemWindowIsLittleEndian : Prop :=
  ∀ (s : State) (off : BitVec 20) (w : Width) (v : Word), s.rstN = true → s.busy = false →
    0x80000 ≤ off.toNat → off.toNat % w.bytes = 0 → off.toNat - 0x80000 + w.bytes ≤ s.params.lmemSize →
      (∀ k < w.bytes, (s.hostWrite off w v).readByte (off.toNat - 0x80000 + k) = v.extractLsb' (8 * k) 8) ∧
        (∀ a, (a < off.toNat - 0x80000 ∨ off.toNat - 0x80000 + w.bytes ≤ a) →
          (s.hostWrite off w v).readByte a = s.readByte a) ∧
        ((s.hostWrite off w v).hostRead off w).rdata.toNat = v.toNat % 2 ^ (8 * w.bytes) ∧
        (s.hostRead off w).rdata.toNat =
          ((List.range w.bytes).map fun k => (s.readByte (off.toNat - 0x80000 + k)).toNat * 256 ^ k).sum

/-- An access of a wrong width, misaligned, or not wholly inside LMEM is ignored if a write and reads 0 (20_memory.md R103), on an idle machine. -/
def Obligations.IllPlacedAccessIsIgnored : Prop :=
  ∀ (s : State) (off : BitVec 20) (w : Width) (v : Word), s.rstN = true → s.busy = false →
    (if off.toNat < 0x80000 then w ≠ .w32 ∨ off.toNat % 4 ≠ 0
      else off.toNat % w.bytes ≠ 0 ∨ s.params.lmemSize < off.toNat - 0x80000 + w.bytes) →
      s.hostWrite off w v = s ∧ s.hostRead off w = { s with rdata := 0 }

/-- The views of the Huffman stores: HUF_INFO (10_state.md R60) for a tree of at most 511 nodes, CODE_LEN and CODE_WORD0-7 (R62, R63) for a selected code of at most 255 bits: left-aligned, its first bit in bit 31 of CODE_WORD0, then zeros. -/
def Obligations.HuffmanViewRegisters : Prop :=
  (∀ s : State, (∀ t, s.huf.tree = some t → t.nodes ≤ 511) →
      (readReg s .hufInfo).toNat =
        (s.huf.tree.map HufTree.leaves).getD 0 + 65536 * (s.huf.tree.map HufTree.nodes).getD 0 +
          2 ^ 30 * s.huf.codes.isSome.toNat + 2 ^ 31 * s.huf.tree.isSome.toNat) ∧
    ∀ (s : State) (b : Bits), ((s.huf.codes.bind fun C => CodeBook.find C s.regs.codeSel).getD []) = b →
      b.length ≤ 255 →
        (readReg s .codeLen).toNat = b.length ∧
          ∀ (k : Fin 8), ∀ j < 32, (readReg s (.codeWord k)).getLsbD (31 - j) = b.getD (32 * k.val + j) false

/-! ## Reset -/

/-- 10_state.md R80: the reset values. Every LMEM byte is a draw of its own. -/
def Obligations.ResetValues : Prop :=
  readReg State.reset .id = 0x46430001 ∧ (∀ r : Reg, r ≠ .id → readReg State.reset r = 0) ∧
    State.reset.pending = none ∧ State.reset.irqEn = false ∧ irq State.reset = false ∧
    State.reset.acc = { wbits := [], rbits := [], rpos := 0 } ∧ State.reset.huf.tree = none ∧
    State.reset.huf.codes = none ∧
    ∃ e, ∀ a, State.reset.readByte a = Config.powerOnByte e a

/-- 70_reset_and_hazards.md R452: the soft reset on an idle machine leaves LMEM and gives every register its reset value, whatever else the written value holds. -/
def Obligations.SoftResetClearsAllButLmem : Prop :=
  ∀ (s : State) (v : Word), s.rstN = true → v.getLsbD 0 = true →
    (∀ r : Reg, r ≠ .id → readReg (s.hostWrite 0x00004 .w32 v) r = 0) ∧
      (s.hostWrite 0x00004 .w32 v).pending = none ∧
      (s.hostWrite 0x00004 .w32 v).acc = { wbits := [], rbits := [], rpos := 0 } ∧
      (s.hostWrite 0x00004 .w32 v).huf = { freq := List.replicate 256 0, tree := none, codes := none } ∧
      (s.hostWrite 0x00004 .w32 v).coef = List.replicate 64 0 ∧
      (s.hostWrite 0x00004 .w32 v).params = s.params ∧
      (s.pending = none → ∀ a, (s.hostWrite 0x00004 .w32 v).readByte a = s.readByte a)

/-- 70_reset_and_hazards.md R453: an abort never completes the command; when the command's destination region (a block's footprint addresses for DCT_INV and DCT_BLOCK) passes its range check, each of its bytes becomes a draw; every other LMEM byte stays. That the region is spoiled even where the command would have failed for another reason, and that a pending word that is no command has none, is the model's choice (log 8). -/
def Obligations.AbortSpoilsOnlyTheDestination : Prop :=
  ∀ (s : State) (w v : Word), s.rstN = true → s.pending = some w → v.getLsbD 0 = true →
    irq (s.hostWrite 0x00004 .w32 v) = false ∧ (s.hostWrite 0x00004 .w32 v).status.done = false ∧
      (∀ i, decode w = .ok i → ∀ a,
        (a ∈ s.destAddrs i → s.params.lmemSize < s.dst + s.destSize i) →
          (s.hostWrite 0x00004 .w32 v).readByte a = s.readByte a) ∧
      (∀ i, decode w = .ok i → ∀ a ∈ s.destAddrs i, s.dst + s.destSize i ≤ s.params.lmemSize →
        ∃ n, s.draws ≤ n ∧ (s.hostWrite 0x00004 .w32 v).readByte a = Config.drawByte n) ∧
      ((∀ i, decode w ≠ .ok i) → ∀ a, (s.hostWrite 0x00004 .w32 v).readByte a = s.readByte a)

/-- 70_reset_and_hazards.md R451: while rst_n is 0 the registers have their reset values, no command is pending and accesses are ignored; when it returns to 1 the state is the reset state, every LMEM byte a draw. -/
def Obligations.HardResetHoldsTheResetState : Prop :=
  ∀ s : State,
    (∀ r : Reg, r ≠ .id → readReg (s.resetPin false) r = 0) ∧ (s.resetPin false).pending = none ∧
      (s.resetPin false).rstN = false ∧
      (∀ off w v, (s.resetPin false).hostWrite off w v = s.resetPin false) ∧
      (∀ off w, ((s.resetPin false).hostRead off w).rdata = w.mask (Config.drawWord s.draws)) ∧
      (∀ r : Reg, r ≠ .id → readReg ((s.resetPin false).resetPin true) r = 0) ∧
      ((s.resetPin false).resetPin true).pending = none ∧ ((s.resetPin false).resetPin true).rstN = true ∧
      ∃ e, ∀ a, ((s.resetPin false).resetPin true).readByte a = Config.powerOnByte e a

/-- The invariant holds at reset (10_state.md R80, R73, R76). -/
def Obligations.ResetMeetsInvariant : Prop := State.reset.Inv

/-- Every step keeps the invariant: LMEM canonical and inside LMEM_SIZE, the accumulator bounds, the store sizes and the tree capacity, the codes' lengths, the engine's flags, the error codes, LZW_NEXT (10_state.md R59, R68, R69, R73-R76, 60_exceptions.md R401). -/
def Obligations.StepKeepsInvariant : Prop := ∀ s t : State, s.Inv → step s = .next t → t.Inv

/-! ## Control and bitstream -/

/-- NOP, 40_control.md R182, and BS_CLEAR, 41_bitstream.md R205. -/
def Obligations.NopAndBsClearComplete : Prop :=
  (∀ s : State, exec .nop s = .next
      { s with
        pending := none
        status := { s.status with done := true }
        res := { s.res with outLen := 0, bitCount := 0 } }) ∧
    ∀ s : State, exec .bsClear s = .next
      { s with
        acc := { wbits := [], rbits := [], rpos := 0 }
        pending := none
        status := { s.status with done := true }
        res := { s.res with outLen := 0, bitCount := 0 } }

/-- 41_bitstream.md R211, for every n; an n outside 1..32 is no BS_PUT and completes with IllegalCommand. -/
def Obligations.BsPutAppends : Prop :=
  ∀ (n : Nat) (s : State),
    ((n = 0 ∨ 32 < n) → exec (.bsPut n) s = .next (s.completeErr .illegalCommand)) ∧
      (1 ≤ n → n ≤ 32 → s.params.bsCapBits < s.acc.wbits.length + n →
        exec (.bsPut n) s = .next (s.completeErr .outputOverflow)) ∧
      (1 ≤ n → n ≤ 32 → s.acc.wbits.length + n ≤ s.params.bsCapBits →
        exec (.bsPut n) s = .next
          { s with
            acc :=
              { s.acc with
                wbits := s.acc.wbits ++ (List.range n).map fun k => s.regs.bsData.getLsbD (n - 1 - k) }
            pending := none
            status := { s.status with done := true }
            res := { s.res with outLen := 0, bitCount := 0 } })

/-- 41_bitstream.md R215: the flush writes the bits first bit into bit 7, pads with zeros (R227), records the padding count and the counts, empties WBITS, and leaves every other byte; its errors change nothing. -/
def Obligations.BsFlushWritesPaddedBytes : Prop :=
  ∀ s : State,
    (s.params.lmemSize < s.dst + s.dstCap → exec .bsFlush s = .next (s.completeErr .addressRange)) ∧
      (s.dst + s.dstCap ≤ s.params.lmemSize → s.dstCap < (s.acc.wbits.length + 7) / 8 →
        exec .bsFlush s = .next (s.completeErr .outputOverflow)) ∧
      (s.dst + s.dstCap ≤ s.params.lmemSize → (s.acc.wbits.length + 7) / 8 ≤ s.dstCap →
        ∃ t, exec .bsFlush s = .next t ∧
          t = { s with
                lmem := t.lmem
                pending := none
                status := { s.status with done := true }
                regs := { s.regs with bsPad := BitVec.ofNat 3 ((8 - s.acc.wbits.length % 8) % 8) }
                acc := { s.acc with wbits := [] }
                res :=
                  { s.res with
                    outLen := BitVec.ofNat 32 ((s.acc.wbits.length + 7) / 8)
                    bitCount := BitVec.ofNat 32 s.acc.wbits.length } } ∧
          (∀ j < (s.acc.wbits.length + 7) / 8, ∀ k < 8,
            (t.readByte (s.dst + j)).getLsbD (7 - k) = s.acc.wbits.getD (8 * j + k) false) ∧
          ∀ a, (a < s.dst ∨ s.dst + (s.acc.wbits.length + 7) / 8 ≤ a) → t.readByte a = s.readByte a)

/-- 41_bitstream.md R218, with its errors in their order. -/
def Obligations.BsLoadUnpacks : Prop :=
  ∀ s : State,
    (s.params.bsCapBits < 8 * s.srcLen → exec .bsLoad s = .next (s.completeErr .badParameter)) ∧
      (8 * s.srcLen ≤ s.params.bsCapBits → s.params.lmemSize < s.src + s.srcLen →
        exec .bsLoad s = .next (s.completeErr .addressRange)) ∧
      (8 * s.srcLen ≤ s.params.bsCapBits → s.src + s.srcLen ≤ s.params.lmemSize →
        s.srcLen = 0 → s.regs.bsPad ≠ 0 → exec .bsLoad s = .next (s.completeErr .corruptStream)) ∧
      (8 * s.srcLen ≤ s.params.bsCapBits → s.src + s.srcLen ≤ s.params.lmemSize →
        (s.srcLen ≠ 0 ∨ s.regs.bsPad = 0) →
        ∃ b : Bits, b.length = 8 * s.srcLen - s.regs.bsPad.toNat ∧
          (∀ k < b.length, b.getD k false = (s.readByte (s.src + k / 8)).getLsbD (7 - k % 8)) ∧
          exec .bsLoad s = .next
            { s with
              acc := { s.acc with rbits := b, rpos := 0 }
              pending := none
              status := { s.status with done := true }
              res := { s.res with outLen := 0, bitCount := BitVec.ofNat 32 b.length } })

/-- 41_bitstream.md R221: the first bit read is bit n-1 of BS_DATA, bits 31:n become 0; past the declared length nothing changes. -/
def Obligations.BsGetReads : Prop :=
  ∀ (n : Nat) (s : State),
    ((n = 0 ∨ 32 < n) → exec (.bsGet n) s = .next (s.completeErr .illegalCommand)) ∧
      (1 ≤ n → n ≤ 32 → s.acc.rbits.length < s.acc.rpos + n →
        exec (.bsGet n) s = .next (s.completeErr .truncatedStream)) ∧
      (1 ≤ n → n ≤ 32 → s.acc.rpos + n ≤ s.acc.rbits.length →
        ∃ v : Word,
          (∀ k < n, v.getLsbD (n - 1 - k) = s.acc.rbits.getD (s.acc.rpos + k) false) ∧
          (∀ j, n ≤ j → v.getLsbD j = false) ∧
          exec (.bsGet n) s = .next
            { s with
              regs := { s.regs with bsData := v }
              acc := { s.acc with rpos := s.acc.rpos + n }
              pending := none
              status := { s.status with done := true }
              res := { s.res with outLen := 0, bitCount := 0 } })

/-- 41_bitstream.md R203, (a) to (d). -/
def Obligations.PackAndUnpackAreInverse : Prop :=
  (∀ b : Bits,
      unpack (packBytes b) (padCount b.length) = some b ∧ (packBytes b).length = (b.length + 7) / 8 ∧
        8 * (packBytes b).length - padCount b.length = b.length ∧ padCount b.length ≤ 7 ∧
        (padCount b.length = 0 ↔ b.length % 8 = 0)) ∧
    ∀ b c : Bits, packBytes b = packBytes c → padCount b.length = padCount c.length → b = c

/-- 41_bitstream.md R228: BS_PUT and BS_FLUSH neither read nor change RBITS and RPOS, BS_LOAD and BS_GET neither read nor change WBITS, no command outside the family reads or changes any of them. -/
def Obligations.AccumulatorIndependence : Prop :=
  ∀ (i : Instr) (s t : State), exec i s = .next t →
    ((i = .bsFlush ∨ ∃ n, i = .bsPut n) → ∀ (r : Bits) (p : Nat),
        exec i { s with acc := { s.acc with rbits := r, rpos := p } } =
          .next { t with acc := { t.acc with rbits := r, rpos := p } }) ∧
      ((i = .bsLoad ∨ ∃ n, i = .bsGet n) → ∀ w : Bits,
        exec i { s with acc := { s.acc with wbits := w } } = .next { t with acc := { t.acc with wbits := w } }) ∧
      (i.isBitstream = false → ∀ a : Accumulator, exec i { s with acc := a } = .next { t with acc := a })

/-- 41_bitstream.md R225: put, flush, load, get gives the values back, and nothing is left to read. -/
def Obligations.BitstreamRoundTrip : Prop :=
  ∀ (ps : List (Nat × Word)) (s s1 s2 : State), s.params.legal = true → s.acc.wbits = [] →
    (∀ p ∈ ps, 1 ≤ p.1 ∧ p.1 ≤ 32) → putAll ps s = some s1 → s1.runCommand .bsFlush = some s2 →
      ∃ s3 s4,
        State.runCommand { s2 with regs := { s2.regs with srcAddr := s1.regs.dstAddr, srcLen := s2.res.outLen } }
            .bsLoad = some s3 ∧
          getAll (ps.map Prod.fst) s3 =
            some (ps.map fun p => BitVec.ofNat 32 (p.2.toNat % 2 ^ p.1), s4) ∧
          ∀ n, 1 ≤ n → n ≤ 32 →
            exec (.bsGet n) s4 = .next (s4.completeErr .truncatedStream)

/-! ## Huffman -/

/-- 42_huffman.md R250: FREQ counts the source bytes; TREE and CODES stay. -/
def Obligations.HufFreqCounts : Prop :=
  ∀ s : State,
    (s.params.lmemSize < s.src + s.srcLen → exec .hufFreq s = .next (s.completeErr .addressRange)) ∧
      (s.src + s.srcLen ≤ s.params.lmemSize →
        ∃ F : List Word, F.length = 256 ∧
          (∀ c < 256, F.getD c 0 =
            BitVec.ofNat 32 ((List.range s.srcLen).countP fun k => s.readByte (s.src + k) == BitVec.ofNat 8 c)) ∧
          exec .hufFreq s = .next
            { s with
              huf := { s.huf with freq := F }
              pending := none
              status := { s.status with done := true }
              res := { s.res with outLen := 0, bitCount := 0 } })

/-- 42_huffman.md R255: a table with a nonzero entry gives a tree and drops the codebook, an all-zero table fails with EmptyInput and drops both. -/
def Obligations.HufTreeBuildsOrFails : Prop :=
  ∀ s : State,
    ((∀ f ∈ s.huf.freq, f = 0) →
        exec .hufTree s = .next
          (State.completeErr { s with huf := { s.huf with tree := none, codes := none } } .emptyInput)) ∧
      ((∃ f ∈ s.huf.freq, f ≠ 0) →
        ∃ t, buildTree (s.huf.freq.map BitVec.toNat) = some t ∧
          exec .hufTree s = .next
            { s with
              huf := { s.huf with tree := some t, codes := none }
              pending := none
              status := { s.status with done := true }
              res := { s.res with outLen := 0, bitCount := 0 } })

/-- 42_huffman.md R248, R287: a built tree is what the loop of R248 gives, the two smallest (freq, arrival) pairs merged at each turn with the first on the left; it has one leaf per symbol with a nonzero count, carrying that count; internal nodes carry sums, the root the total; nodes = 2L - 1. -/
def Obligations.BuiltTreeCarriesTheCounts : Prop :=
  ∀ (F : List Nat) (t : HufTree), F.length = 256 → buildTree F = some t →
    MergeRun (startQueue F).length (startQueue F) t ∧
      t.leaves = F.countP (fun f => f != 0) ∧ t.nodes + 1 = 2 * t.leaves ∧ t.weight = F.sum ∧ t.Summed ∧
      (t.leafList.map Prod.fst).Nodup ∧
      ∀ (c : Byte) (f : Nat), (c, f) ∈ t.leafList ↔ F.getD c.toNat 0 = f ∧ f ≠ 0

/-- The code lengths of a built tree. The Kraft equality of 42_huffman.md R287, for a table with at least two nonzero entries, scaled by 2^255; and R288: a more frequent symbol has no longer code. -/
def Obligations.KraftEquality : Prop :=
  ∀ (F : List Nat) (t : HufTree), F.length = 256 → 2 ≤ F.countP (fun f => f != 0) → buildTree F = some t →
    ((codesOf t).map fun e => 2 ^ (255 - e.2.length)).sum = 2 ^ 255 ∧ (∀ e ∈ codesOf t, e.2.length ≤ 255) ∧
      ∀ x ∈ codesOf t, ∀ y ∈ codesOf t, F.getD y.1.toNat 0 < F.getD x.1.toNat 0 → x.2.length ≤ y.2.length

/-- 42_huffman.md R262, R249: HUF_CODES gives the codes of the tree, or NotReady without one. A single leaf gives its symbol the code 0. Under a node, a symbol has a code exactly when a leaf carries it, and the code is the path of such a leaf, the first in pre-order, which goes left where the path of any other leaf of the symbol first goes right. -/
def Obligations.HufCodesAreTreePaths : Prop :=
  (∀ s : State, s.huf.tree = none → exec .hufCodes s = .next (s.completeErr .notReady)) ∧
    (∀ (s : State) (t : HufTree), s.huf.tree = some t →
      exec .hufCodes s = .next
        { s with
          huf := { s.huf with codes := some (codesOf t) }
          pending := none
          status := { s.status with done := true }
          res := { s.res with outLen := 0, bitCount := 0 } }) ∧
    (∀ (c : Byte) (f : Nat), codesOf (.leaf c f) = [(c, [false])]) ∧
    ∀ (l r : HufTree) (f : Nat) (c : Byte),
      (∀ p, CodeBook.find (codesOf (.node l r f)) c = some p →
        (HufTree.node l r f).IsPath p c ∧
          ∀ q, (HufTree.node l r f).IsPath q c → q ≠ p →
            ∃ x y z : Bits, p = x ++ false :: y ∧ q = x ++ true :: z) ∧
        ((CodeBook.find (codesOf (.node l r f)) c).isSome = true ↔
          c ∈ (HufTree.node l r f).leafList.map Prod.fst)

/-- 42_huffman.md R286: in every codebook HUF_CODES or HUF_ENCODE produces, no code is a prefix of another symbol's code. -/
def Obligations.CodesArePrefixFree : Prop :=
  (∀ (t : HufTree) (x y : Byte × Bits), x ∈ codesOf t → y ∈ codesOf t → x.1 ≠ y.1 → ¬x.2 <+: y.2) ∧
    (∀ (s t : State) (C : CodeBook), exec .hufCodes s = .next t → s.huf.tree ≠ none → t.huf.codes = some C →
      ∀ x ∈ C, ∀ y ∈ C, x.1 ≠ y.1 → ¬x.2 <+: y.2) ∧
    ∀ (s t : State) (C : CodeBook), exec .hufEncode s = .next t → s.RegionsOk → t.huf.codes = some C →
      ∀ x ∈ C, ∀ y ∈ C, x.1 ≠ y.1 → ¬x.2 <+: y.2

/-- 42_huffman.md R245, R246: a serialized tree has 3L - 1 bytes and parses back, with every frequency 0, leaving the bytes after it. -/
def Obligations.SerializedTreeParsesBack : Prop :=
  ∀ t : HufTree, (serialize t).length + 1 = 3 * t.leaves ∧
    (t.nodes ≤ 511 → ∀ z : List Byte, parseTree (serialize t ++ z) = .ok (t.zeroFreq, z)) ∧
    (511 < t.nodes → ∀ z : List Byte, parseTree (serialize t ++ z) = .error .corruptStream)

/-- 42_huffman.md R268: HUF_ENCODE with regions that pass their checks, by the size of the artifact of the source; and its failures. -/
def Obligations.HufEncodeWritesTheArtifact : Prop :=
  ∀ s : State,
    ((s.params.lmemSize < s.src + s.srcLen ∨ s.params.lmemSize < s.dst + s.dstCap) →
        exec .hufEncode s = .next (s.completeErr .addressRange)) ∧
      (s.src + s.srcLen ≤ s.params.lmemSize → s.dst + s.dstCap ≤ s.params.lmemSize → ¬s.RegionsOk →
        exec .hufEncode s = .next (s.completeErr .regionOverlap)) ∧
      (s.RegionsOk → s.srcLen = 0 →
        ∃ u, exec .hufEncode s = .next u ∧
          FailedSpoiled { s with huf := { freq := List.replicate 256 0, tree := none, codes := none } } u
            .emptyInput) ∧
      (s.RegionsOk → s.srcLen ≠ 0 →
        ∃ t, buildTree (freqCounts (s.readMem s.src s.srcLen)) = some t ∧
          ∃ b, b = (s.readMem s.src s.srcLen).flatMap (fun c => (CodeBook.find (codesOf t) c).getD []) ∧
          ∃ art, art = [BitVec.ofNat 8 (padCount b.length)] ++ serialize t ++ packBytes b ∧
            (s.dstCap < art.length →
              ∃ u, exec .hufEncode s = .next u ∧
                FailedSpoiled
                  { s with
                    huf :=
                      { freq := freqWords (freqCounts (s.readMem s.src s.srcLen))
                        tree := some t
                        codes := some (codesOf t) } }
                  u .outputOverflow) ∧
            (art.length ≤ s.dstCap →
              ∃ u, exec .hufEncode s = .next u ∧
                u = { s with
                      lmem := u.lmem
                      huf :=
                        { freq := freqWords (freqCounts (s.readMem s.src s.srcLen))
                          tree := some t
                          codes := some (codesOf t) }
                      pending := none
                      status := { s.status with done := true }
                      res :=
                        { s.res with
                          outLen := BitVec.ofNat 32 art.length
                          bitCount := BitVec.ofNat 32 b.length } } ∧
                u.readMem s.dst art.length = art ∧
                ∀ a, (a < s.dst ∨ s.dst + art.length ≤ a) → u.readByte a = s.readByte a))

/-- 42_huffman.md R280: HUF_DECODE with regions that pass their checks; on every error after them TREE and CODES are dropped and the destination is spoiled. -/
def Obligations.HufDecodeWritesTheSymbols : Prop :=
  ∀ s : State,
    ((s.params.lmemSize < s.src + s.srcLen ∨ s.params.lmemSize < s.dst + s.dstCap) →
        exec .hufDecode s = .next (s.completeErr .addressRange)) ∧
      (s.src + s.srcLen ≤ s.params.lmemSize → s.dst + s.dstCap ≤ s.params.lmemSize → ¬s.RegionsOk →
        exec .hufDecode s = .next (s.completeErr .regionOverlap)) ∧
      (∀ e, s.RegionsOk → decodeArtifact (s.readMem s.src s.srcLen) = .error e →
        ∃ u, exec .hufDecode s = .next u ∧
          FailedSpoiled { s with huf := { s.huf with tree := none, codes := none } } u e) ∧
      ∀ t n out, s.RegionsOk → decodeArtifact (s.readMem s.src s.srcLen) = .ok (t, n, out) →
        (s.dstCap < out.length →
          ∃ u, exec .hufDecode s = .next u ∧
            FailedSpoiled { s with huf := { s.huf with tree := none, codes := none } } u .outputOverflow) ∧
          (out.length ≤ s.dstCap →
            ∃ u, exec .hufDecode s = .next u ∧
              u = { s with
                    lmem := u.lmem
                    huf := { s.huf with tree := some t, codes := none }
                    pending := none
                    status := { s.status with done := true }
                    res :=
                      { s.res with
                        outLen := BitVec.ofNat 32 out.length
                        bitCount := BitVec.ofNat 32 n } } ∧
              u.readMem s.dst out.length = out ∧
              ∀ a, (a < s.dst ∨ s.dst + out.length ≤ a) → u.readByte a = s.readByte a)

/-- 42_huffman.md R280, R246, R275, 60_exceptions.md R403, R404: which malformed artifacts fail, and with which of the two errors. A tree fails with the error of the first byte at which it goes wrong: TruncatedStream where bytes are missing, CorruptStream at an unknown tag or the 512th node. Under a node the walk fails exactly on bits that are cut inside a code after whole codes, or after none. -/
def Obligations.MalformedArtifactErrors : Prop :=
  decodeArtifact [] = .error .truncatedStream ∧
    (∀ (p : Byte) (z : List Byte), 7 < p.toNat → decodeArtifact (p :: z) = .error .corruptStream) ∧
    (∀ (p : Byte) (z : List Byte) (e : ErrCode), p.toNat ≤ 7 → treeError 1 0 z = some e →
      decodeArtifact (p :: z) = .error e) ∧
    (∀ z : List Byte, treeError 1 0 z = none → ∃ t d, parseTree z = .ok (t, d)) ∧
    (∀ (p : Byte) (z : List Byte) (t : HufTree), p.toNat ≤ 7 → p ≠ 0 → parseTree z = .ok (t, []) →
      decodeArtifact (p :: z) = .error .corruptStream) ∧
    (∀ (p : Byte) (z d : List Byte) (t : HufTree) (b : Bits), p.toNat ≤ 7 → parseTree z = .ok (t, d) →
      unpack d p.toNat = some b →
        (∀ e, walk t b = .error e → decodeArtifact (p :: z) = .error e ∧ e = .corruptStream) ∧
          ∀ out, walk t b = .ok out → decodeArtifact (p :: z) = .ok (t, b.length, out)) ∧
    (∀ (c : Byte) (f : Nat) (b : Bits), walk (.leaf c f) b = .error .corruptStream ↔ true ∈ b) ∧
    ∀ (l r : HufTree) (f : Nat) (b : Bits),
      walk (.node l r f) b = .error .corruptStream ↔
        ∃ w x out, b = w ++ x ∧ walk (.node l r f) w = .ok out ∧ (HufTree.node l r f).CutInside x

/-- 42_huffman.md R285: HUF_DECODE of what HUF_ENCODE wrote gives the source bytes back. -/
def Obligations.HuffmanRoundTrip : Prop :=
  ∀ s t u : State, exec .hufEncode s = .next t → s.status.err = false → t.status.err = false → u.RegionsOk →
    u.src = s.dst → u.srcLen = t.res.outLen.toNat → s.srcLen ≤ u.dstCap →
    (∀ a, s.dst ≤ a → a < s.dst + t.res.outLen.toNat → u.readByte a = t.readByte a) →
      ∃ v, exec .hufDecode u = .next v ∧ v.status = { u.status with done := true } ∧
        v.readMem u.dst s.srcLen = s.readMem s.src s.srcLen ∧ v.res.outLen = BitVec.ofNat 32 s.srcLen ∧
        v.res.bitCount = t.res.bitCount

/-- 42_huffman.md R290: a source of n copies of one byte. -/
def Obligations.SingleSymbolRoundTrip : Prop :=
  ∀ (n : Nat) (c : Byte), 1 ≤ n →
    (∀ s : State, s.RegionsOk → s.readMem s.src s.srcLen = List.replicate n c → 3 + (n + 7) / 8 ≤ s.dstCap →
        ∃ t, exec .hufEncode s = .next t ∧ t.status = { s.status with done := true } ∧
          t.res.outLen = BitVec.ofNat 32 (3 + (n + 7) / 8) ∧
          t.readMem s.dst (3 + (n + 7) / 8) =
            [BitVec.ofNat 8 ((8 - n % 8) % 8), 0x01, c] ++ List.replicate ((n + 7) / 8) 0x00) ∧
      ∀ u : State, u.RegionsOk →
        u.readMem u.src u.srcLen =
          [BitVec.ofNat 8 ((8 - n % 8) % 8), 0x01, c] ++ List.replicate ((n + 7) / 8) 0x00 →
        n ≤ u.dstCap →
        ∃ v, exec .hufDecode u = .next v ∧ v.status = { u.status with done := true } ∧
          v.readMem u.dst n = List.replicate n c

/-! ## LZW -/

/-- 43_lzw.md R310: LZW_ENCODE by the codes of its source, and its failures; LZW_NEXT only on success. -/
def Obligations.LzwEncodeWritesTheCodes : Prop :=
  ∀ s : State,
    ((s.params.lmemSize < s.src + s.srcLen ∨ s.params.lmemSize < s.dst + s.dstCap) →
        exec .lzwEncode s = .next (s.completeErr .addressRange)) ∧
      (s.src + s.srcLen ≤ s.params.lmemSize → s.dst + s.dstCap ≤ s.params.lmemSize → ¬s.RegionsOk →
        exec .lzwEncode s = .next (s.completeErr .regionOverlap)) ∧
      (∀ e, s.RegionsOk → lzwEncode (s.readMem s.src s.srcLen) = .error e →
        e = .unsupportedAlphabetSize ∧ ∃ u, exec .lzwEncode s = .next u ∧ FailedSpoiled s u e) ∧
      ∀ codes next, s.RegionsOk → lzwEncode (s.readMem s.src s.srcLen) = .ok (codes, next) →
        (s.dstCap < 2 * codes.length →
          ∃ u, exec .lzwEncode s = .next u ∧ FailedSpoiled s u .outputOverflow) ∧
          (2 * codes.length ≤ s.dstCap →
            ∃ u, exec .lzwEncode s = .next u ∧
              u = { s with
                    lmem := u.lmem
                    pending := none
                    status := { s.status with done := true }
                    res :=
                      { s.res with
                        outLen := BitVec.ofNat 32 (2 * codes.length)
                        bitCount := BitVec.ofNat 32 (16 * codes.length)
                        lzwNext := BitVec.ofNat 17 next } } ∧
              (∀ k < codes.length,
                256 * (u.readByte (s.dst + 2 * k)).toNat + (u.readByte (s.dst + 2 * k + 1)).toNat =
                  codes.getD k 0) ∧
              ∀ a, (a < s.dst ∨ s.dst + 2 * codes.length ≤ a) → u.readByte a = s.readByte a)

/-- 43_lzw.md R320: LZW_DECODE by the codes of its source, and its failures in their order. -/
def Obligations.LzwDecodeWritesTheSymbols : Prop :=
  ∀ s : State,
    ((s.params.lmemSize < s.src + s.srcLen ∨ s.params.lmemSize < s.dst + s.dstCap) →
        exec .lzwDecode s = .next (s.completeErr .addressRange)) ∧
      (s.src + s.srcLen ≤ s.params.lmemSize → s.dst + s.dstCap ≤ s.params.lmemSize → ¬s.RegionsOk →
        exec .lzwDecode s = .next (s.completeErr .regionOverlap)) ∧
      (s.RegionsOk → s.srcLen % 2 = 1 →
        ∃ u, exec .lzwDecode s = .next u ∧ FailedSpoiled s u .truncatedStream) ∧
      ∀ codes : List Nat, s.RegionsOk → s.srcLen = 2 * codes.length →
        (∀ k < codes.length,
          codes.getD k 0 = 256 * (s.readByte (s.src + 2 * k)).toNat + (s.readByte (s.src + 2 * k + 1)).toNat) →
        (∀ e, lzwDecode codes = .error e →
          (e = .invalidCode ∨ e = .unsupportedAlphabetSize) ∧
            ∃ u, exec .lzwDecode s = .next u ∧ FailedSpoiled s u e) ∧
          ∀ out next, lzwDecode codes = .ok (out, next) →
            (s.dstCap < out.length →
              ∃ u, exec .lzwDecode s = .next u ∧ FailedSpoiled s u .outputOverflow) ∧
              (out.length ≤ s.dstCap →
                ∃ u, exec .lzwDecode s = .next u ∧
                  u = { s with
                        lmem := u.lmem
                        pending := none
                        status := { s.status with done := true }
                        res :=
                          { s.res with
                            outLen := BitVec.ofNat 32 out.length
                            bitCount := BitVec.ofNat 32 (8 * s.srcLen)
                            lzwNext := BitVec.ofNat 17 next } } ∧
                  u.readMem s.dst out.length = out ∧
                  ∀ a, (a < s.dst ∨ s.dst + out.length ≤ a) → u.readByte a = s.readByte a)

/-- 43_lzw.md R303, R326-R328: how many codes LZW_ENCODE emits, how large, and the next free code; that they are the codes of the greedy cut of the source; and that after codes 0..k the decoder knows each entry 256 + j, j < k, of that cut under the same code. A source of at most 65281 bytes encodes; one that does not has, before some byte, a beginning of 65281 codes, which fills the dictionary, whose last part grown by that byte begins no entry, so that a 65537th entry is needed. -/
def Obligations.LzwCodeBounds : Prop :=
  (∀ (y : List Byte) (codes : List Nat) (next : Nat), y ≠ [] → lzwEncode y = .ok (codes, next) →
    1 ≤ codes.length ∧ codes.length ≤ y.length ∧ next = 256 + (codes.length - 1) ∧ next ≤ 65536 ∧
      (∀ k < codes.length, codes.getD k 0 < 256 + k) ∧
      ∃ parts : List (List Byte), LzwCut y codes parts ∧
        ∀ k, k < codes.length → k < 65280 → ∀ j < k,
          lzwDecode (codes.take (k + 1) ++ [256 + j]) =
            .ok ((parts.take (k + 1)).flatten ++ grownPart parts j, 256 + k + 1)) ∧
    (∀ y : List Byte, y.length ≤ 65281 → ∃ codes next, lzwEncode y = .ok (codes, next)) ∧
    ∀ (y : List Byte) (e : ErrCode), lzwEncode y = .error e →
      e = .unsupportedAlphabetSize ∧
        ∃ i codes parts, i < y.length ∧ lzwEncode (y.take i) = .ok (codes, 65536) ∧ codes.length = 65281 ∧
          LzwCut (y.take i) codes parts ∧
          ∀ j < 65280, ¬(parts.getD 65280 [] ++ [y.getD i 0]) <+: grownPart parts j

/-- 43_lzw.md R304, R301: a sequence of 16-bit codes fails with InvalidCode exactly when it has a bad code: a first code of 256 or more, or a later code above the next free code. Without one it decodes when it has at most 65281 codes, which insert 65280 entries, and else fails with UnsupportedAlphabetSize. -/
def Obligations.LzwInvalidCodeIsRejected : Prop :=
  ∀ codes : List Nat, (∀ c ∈ codes, c < 65536) →
    ((∃ k, k < codes.length ∧
        (if k = 0 then 256 ≤ codes.getD 0 0 else 256 + (k - 1) < codes.getD k 0)) ↔
      lzwDecode codes = .error .invalidCode) ∧
    ((¬∃ k, k < codes.length ∧
        (if k = 0 then 256 ≤ codes.getD 0 0 else 256 + (k - 1) < codes.getD k 0)) →
      (codes.length ≤ 65281 → ∃ out, lzwDecode codes = .ok (out, 256 + (codes.length - 1))) ∧
        (65281 < codes.length → lzwDecode codes = .error .unsupportedAlphabetSize))

/-- 43_lzw.md R325: LZW_DECODE of what LZW_ENCODE wrote gives the source bytes back, and the same LZW_NEXT. -/
def Obligations.LzwRoundTrip : Prop :=
  ∀ s t u : State, exec .lzwEncode s = .next t → s.status.err = false → t.status.err = false → u.RegionsOk →
    u.src = s.dst → u.srcLen = t.res.outLen.toNat → s.srcLen ≤ u.dstCap →
    (∀ a, s.dst ≤ a → a < s.dst + t.res.outLen.toNat → u.readByte a = t.readByte a) →
      ∃ v, exec .lzwDecode u = .next v ∧ v.status = { u.status with done := true } ∧
        v.readMem u.dst s.srcLen = s.readMem s.src s.srcLen ∧ v.res.outLen = BitVec.ofNat 32 s.srcLen ∧
        v.res.lzwNext = t.res.lzwNext

/-! ## Transform -/

/-- 44_transform.md R343, R346, R355: DCT_FWD stores the exact rounded sums, each at most 522309 in magnitude. -/
def Obligations.DctFwdStoresCoefficients : Prop :=
  ∀ s : State,
    (s.params.lmemSize < s.src + s.footprint → exec .dctFwd s = .next (s.completeErr .addressRange)) ∧
      (s.src + s.footprint ≤ s.params.lmemSize →
        ∃ Y : List Word, Y.length = 64 ∧
          (∀ u < 8, ∀ v < 8,
            (Y.getD (8 * u + v) 0).toInt =
                ((sum8 fun r => sum8 fun n =>
                    basis u r * ((s.readByte (s.sampleAddr s.src r n)).toNat : Int) * basis v n) + 2 ^ 19) /
                  2 ^ 20 ∧
              (Y.getD (8 * u + v) 0).toInt.natAbs ≤ 522309) ∧
          exec .dctFwd s = .next
            { s with
              coef := Y
              pending := none
              status := { s.status with done := true }
              res := { s.res with outLen := 0, bitCount := 0 } })

/-- 44_transform.md R358, R345: DCT_QUANT. -/
def Obligations.DctQuantThresholds : Prop :=
  ∀ s : State,
    exec .dctQuant s = .next
      { s with
        coef := s.coef.map fun c => if c.toInt.natAbs < s.regs.magLimit.toNat then 0 else c
        pending := none
        status := { s.status with done := true }
        res :=
          { s.res with
            outLen := 0
            bitCount := 0
            zeroCount := BitVec.ofNat 32 (s.coef.countP fun c => decide (c.toInt.natAbs < s.regs.magLimit.toNat))
            keptCount :=
              BitVec.ofNat 32 (64 - s.coef.countP fun c => decide (c.toInt.natAbs < s.regs.magLimit.toNat))
            blockCount := 1 } }

/-- 44_transform.md R361, R344, R353: DCT_INV writes the clipped sums in row-major order, the later sample staying where two have one address, and leaves every other byte. -/
def Obligations.DctInvWritesSamples : Prop :=
  ∀ s : State,
    (s.params.lmemSize < s.dst + s.footprint → exec .dctInv s = .next (s.completeErr .addressRange)) ∧
      (s.dst + s.footprint ≤ s.params.lmemSize →
        ∃ t, exec .dctInv s = .next t ∧
          t = { s with
                lmem := t.lmem
                pending := none
                status := { s.status with done := true }
                res := { s.res with outLen := 64, bitCount := 512 } } ∧
          (∀ i < 64, ¬s.overwritten s.dst i →
            (((t.readByte (s.sampleAddr s.dst (i / 8) (i % 8))).toNat : Int) =
              max 0 (min 255
                (((sum8 fun u => sum8 fun v =>
                    basis u (i / 8) * (s.coef.getD (8 * u + v) 0).toInt * basis v (i % 8)) + 2 ^ 35) / 2 ^ 36)))) ∧
          ∀ a, a ∉ s.blockAddrs s.dst → t.readByte a = s.readByte a)

/-- 44_transform.md R365, R353: DCT_BLOCK reads all 64 samples first, then writes the filtered block. -/
def Obligations.DctBlockFilters : Prop :=
  ∀ s : State,
    ((s.params.lmemSize < s.src + s.footprint ∨ s.params.lmemSize < s.dst + s.footprint) →
        exec .dctBlock s = .next (s.completeErr .addressRange)) ∧
      (s.src + s.footprint ≤ s.params.lmemSize → s.dst + s.footprint ≤ s.params.lmemSize →
        ∃ X Y, X = (s.blockAddrs s.src).map s.readByte ∧ Y = fwd X ∧
          ∃ t, exec .dctBlock s = .next t ∧
            t = { s with
                  lmem := t.lmem
                  coef := thr s.regs.magLimit.toNat Y
                  pending := none
                  status := { s.status with done := true }
                  res :=
                    { s.res with
                      outLen := 64
                      bitCount := 512
                      zeroCount := BitVec.ofNat 32 (zeros s.regs.magLimit.toNat Y)
                      keptCount := BitVec.ofNat 32 (64 - zeros s.regs.magLimit.toNat Y)
                      blockCount := 1 } } ∧
            (∀ i < 64, ¬s.overwritten s.dst i →
              t.readByte (s.sampleAddr s.dst (i / 8) (i % 8)) = (inv (thr s.regs.magLimit.toNat Y)).getD i 0) ∧
            ∀ a, a ∉ s.blockAddrs s.dst → t.readByte a = s.readByte a)

/-- 44_transform.md R364: the transform is reversible at limit 0, as a function of a block, by DCT_BLOCK, and by DCT_FWD and then DCT_INV; a sample whose address a later sample takes is the one exception (R353). -/
def Obligations.TransformIsReversible : Prop :=
  (∀ X : List Byte, X.length = 64 → inv (fwd X) = X ∧ thr 0 (fwd X) = fwd X) ∧
    (∀ s : State, s.src + s.footprint ≤ s.params.lmemSize → s.dst + s.footprint ≤ s.params.lmemSize → s.limit = 0 →
      ∃ t, exec .dctBlock s = .next t ∧ ∀ i < 64, ¬s.overwritten s.dst i →
        t.readByte (s.sampleAddr s.dst (i / 8) (i % 8)) = s.readByte (s.sampleAddr s.src (i / 8) (i % 8))) ∧
    ∀ s t u : State, s.src + s.footprint ≤ s.params.lmemSize → exec .dctFwd s = .next t → u.coef = t.coef →
      u.dst + u.footprint ≤ u.params.lmemSize →
        ∃ v, exec .dctInv u = .next v ∧ ∀ i < 64, ¬u.overwritten u.dst i →
          v.readByte (u.sampleAddr u.dst (i / 8) (i % 8)) = s.readByte (s.sampleAddr s.src (i / 8) (i % 8))

/-- 44_transform.md R370, 60_exceptions.md R410: the errors of DCT_FRAME in their order. -/
def Obligations.DctFrameErrors : Prop :=
  ∀ s : State,
    ((s.frameC = 0 ∨ 4 < s.frameC) → exec .dctFrame s = .next (s.completeErr .badParameter)) ∧
      (1 ≤ s.frameC → s.frameC ≤ 4 →
        (s.params.lmemSize < s.src + s.frameBytes ∨ s.params.lmemSize < s.dst + s.frameBytes) →
        exec .dctFrame s = .next (s.completeErr .addressRange)) ∧
      (1 ≤ s.frameC → s.frameC ≤ 4 → s.src + s.frameBytes ≤ s.params.lmemSize →
        s.dst + s.frameBytes ≤ s.params.lmemSize → s.src ≠ s.dst → 0 < s.frameBytes →
        s.src < s.dst + s.frameBytes → s.dst < s.src + s.frameBytes →
        exec .dctFrame s = .next (s.completeErr .regionOverlap))

/-- 44_transform.md R370-R372: DCT_FRAME filters every complete block of the source frame as it was at the start, copies every edge sample, counts over all blocks and leaves in COEF the last block's coefficients. -/
def Obligations.DctFrameFiltersEveryBlock : Prop :=
  ∀ s : State, 1 ≤ s.frameC → s.frameC ≤ 4 → s.src + s.frameBytes ≤ s.params.lmemSize →
    s.dst + s.frameBytes ≤ s.params.lmemSize →
    (s.src = s.dst ∨ s.frameBytes = 0 ∨ s.dst + s.frameBytes ≤ s.src ∨ s.src + s.frameBytes ≤ s.dst) →
      ∃ P Ys bs, P = s.readMem s.src s.frameBytes ∧ bs = frameBlocks s.frameW s.frameH s.frameC ∧
        Ys = bs.map (fun p => fwd (frameBlock P s.frameW s.frameC p)) ∧
        ∃ t, exec .dctFrame s = .next t ∧
          t = { s with
                lmem := t.lmem
                coef := ((Ys.getLast?).map (thr s.limit)).getD s.coef
                pending := none
                status := { s.status with done := true }
                res :=
                  { s.res with
                    outLen := BitVec.ofNat 32 s.frameBytes
                    bitCount := BitVec.ofNat 32 (8 * s.frameBytes)
                    zeroCount := BitVec.ofNat 32 (Ys.map (zeros s.limit)).sum
                    keptCount :=
                      BitVec.ofNat 32 (64 * (s.frameH / 8 * (s.frameW / 8) * s.frameC) - (Ys.map (zeros s.limit)).sum)
                    blockCount := BitVec.ofNat 32 (s.frameH / 8 * (s.frameW / 8) * s.frameC) } } ∧
          (∀ x < s.frameW, ∀ y < s.frameH, ∀ ch < s.frameC,
            (x < 8 * (s.frameW / 8) → y < 8 * (s.frameH / 8) →
              t.readByte (s.dst + ((y * s.frameW + x) * s.frameC + ch)) =
                (inv (thr s.limit (fwd (frameBlock P s.frameW s.frameC { row := y / 8, col := x / 8, ch := ch })))).getD
                  (8 * (y % 8) + x % 8) 0) ∧
              ((8 * (s.frameW / 8) ≤ x ∨ 8 * (s.frameH / 8) ≤ y) →
                t.readByte (s.dst + ((y * s.frameW + x) * s.frameC + ch)) =
                  s.readByte (s.src + ((y * s.frameW + x) * s.frameC + ch)))) ∧
          ∀ a, (a < s.dst ∨ s.dst + s.frameBytes ≤ a) → t.readByte a = s.readByte a

/-- 44_transform.md R373: a larger limit zeroes no fewer coefficients, of a block, of DCT_QUANT's COEF and of a frame. -/
def Obligations.ThresholdIsMonotone : Prop :=
  ∀ l m : Nat, l ≤ m →
    (∀ Y : List Word, zeros l Y ≤ zeros m Y ∧
      ∀ k < Y.length, (thr l Y).getD k 0 = 0 → (thr m Y).getD k 0 = 0) ∧
      ∀ (P : List Byte) (w h c : Nat) (coef : List Word),
        (frameLoop P w h c l coef).zt ≤ (frameLoop P w h c m coef).zt

/-- 44_transform.md R374: the zero block. -/
def Obligations.ZeroBlockStaysZero : Prop :=
  fwd (List.replicate 64 0) = List.replicate 64 0 ∧
    (∀ lim, thr lim (List.replicate 64 0) = List.replicate 64 0) ∧ inv (List.replicate 64 0) = List.replicate 64 0 ∧
    ∀ (s t : State), s.src + s.footprint ≤ s.params.lmemSize → s.dst + s.footprint ≤ s.params.lmemSize →
      (∀ a ∈ s.blockAddrs s.src, s.readByte a = 0) → exec .dctBlock s = .next t →
      ∀ a ∈ s.blockAddrs s.dst, t.readByte a = 0

/-- 44_transform.md R346, R377: with a limit of 2^20 or more every coefficient of every block of bytes is zeroed, and the block becomes 0. -/
def Obligations.LargeLimitLosesEverything : Prop :=
  ∀ (X : List Byte) (lim : Nat), X.length = 64 → 2 ^ 20 ≤ lim →
    zeros lim (fwd X) = 64 ∧ thr lim (fwd X) = List.replicate 64 0 ∧
      inv (thr lim (fwd X)) = List.replicate 64 0

/-! ## The host script -/

/-- 30_encoding.md R161, 40_control.md R170: a script that launches a command on an idle machine and waits goes on with the command's outcome once the engine has moved, and reads BUSY until then. -/
def Obligations.ScriptWaitsForCompletion : Prop :=
  ∀ (h : HostRun) (i : Instr), i.wf = true → h.core.inputs = [] → h.core.rstN = true → h.core.busy = false →
    h.prog[h.pos]? = some (.launch i) → h.prog[h.pos + 1]? = some .wait →
      (∃ h', HostRun.run [.host, .host] h = some h' ∧ h'.pos = h.pos + 1 ∧ h'.core.busy = true) ∧
        ∃ h' t, HostRun.run [.host, .engine, .host] h = some h' ∧ h'.pos = h.pos + 2 ∧
          exec i (h.core.launch (encode i)) = .next t ∧ h'.core = { t with rdata := statusWord t }
end

