-- ==== Sys2Proof/Laws/State.lean ====
section
/-! SUPPORT. One lemma per field per named update of State, each true by rfl. -/

namespace Sys2Proof.Machine

section
variable (s : State)

@[simp] theorem State.completeOk_irqEn (n m : Nat) : (s.completeOk n m).irqEn = s.irqEn := rfl
@[simp] theorem State.completeOk_status (n m : Nat) : (s.completeOk n m).status = s.status.completed := rfl
@[simp] theorem State.completeOk_cmd (n m : Nat) : (s.completeOk n m).cmd = s.cmd := rfl
@[simp] theorem State.completeOk_pending (n m : Nat) : (s.completeOk n m).pending = none := rfl
@[simp] theorem State.completeOk_regs (n m : Nat) : (s.completeOk n m).regs = s.regs := rfl
@[simp] theorem State.completeOk_res (n m : Nat) : (s.completeOk n m).res = s.res.counted n m := rfl
@[simp] theorem State.completeOk_coef (n m : Nat) : (s.completeOk n m).coef = s.coef := rfl
@[simp] theorem State.completeOk_acc (n m : Nat) : (s.completeOk n m).acc = s.acc := rfl
@[simp] theorem State.completeOk_huf (n m : Nat) : (s.completeOk n m).huf = s.huf := rfl
@[simp] theorem State.completeOk_lmem (n m : Nat) : (s.completeOk n m).lmem = s.lmem := rfl
@[simp] theorem State.completeOk_rstN (n m : Nat) : (s.completeOk n m).rstN = s.rstN := rfl
@[simp] theorem State.completeOk_params (n m : Nat) : (s.completeOk n m).params = s.params := rfl
@[simp] theorem State.completeOk_inputs (n m : Nat) : (s.completeOk n m).inputs = s.inputs := rfl
@[simp] theorem State.completeOk_rdata (n m : Nat) : (s.completeOk n m).rdata = s.rdata := rfl
@[simp] theorem State.completeOk_draws (n m : Nat) : (s.completeOk n m).draws = s.draws := rfl
@[simp] theorem State.completeOk_epoch (n m : Nat) : (s.completeOk n m).epoch = s.epoch := rfl

@[simp] theorem State.completeErr_irqEn (e : ErrCode) : (s.completeErr e).irqEn = s.irqEn := rfl
@[simp] theorem State.completeErr_status (e : ErrCode) : (s.completeErr e).status = s.status.failed e := rfl
@[simp] theorem State.completeErr_cmd (e : ErrCode) : (s.completeErr e).cmd = s.cmd := rfl
@[simp] theorem State.completeErr_pending (e : ErrCode) : (s.completeErr e).pending = none := rfl
@[simp] theorem State.completeErr_regs (e : ErrCode) : (s.completeErr e).regs = s.regs := rfl
@[simp] theorem State.completeErr_res (e : ErrCode) : (s.completeErr e).res = s.res.counted 0 0 := rfl
@[simp] theorem State.completeErr_coef (e : ErrCode) : (s.completeErr e).coef = s.coef := rfl
@[simp] theorem State.completeErr_acc (e : ErrCode) : (s.completeErr e).acc = s.acc := rfl
@[simp] theorem State.completeErr_huf (e : ErrCode) : (s.completeErr e).huf = s.huf := rfl
@[simp] theorem State.completeErr_lmem (e : ErrCode) : (s.completeErr e).lmem = s.lmem := rfl
@[simp] theorem State.completeErr_rstN (e : ErrCode) : (s.completeErr e).rstN = s.rstN := rfl
@[simp] theorem State.completeErr_params (e : ErrCode) : (s.completeErr e).params = s.params := rfl
@[simp] theorem State.completeErr_inputs (e : ErrCode) : (s.completeErr e).inputs = s.inputs := rfl
@[simp] theorem State.completeErr_rdata (e : ErrCode) : (s.completeErr e).rdata = s.rdata := rfl
@[simp] theorem State.completeErr_draws (e : ErrCode) : (s.completeErr e).draws = s.draws := rfl
@[simp] theorem State.completeErr_epoch (e : ErrCode) : (s.completeErr e).epoch = s.epoch := rfl

@[simp] theorem State.writeMem_irqEn (a : Nat) (bs : List Byte) : (s.writeMem a bs).irqEn = s.irqEn := rfl
@[simp] theorem State.writeMem_status (a : Nat) (bs : List Byte) : (s.writeMem a bs).status = s.status := rfl
@[simp] theorem State.writeMem_cmd (a : Nat) (bs : List Byte) : (s.writeMem a bs).cmd = s.cmd := rfl
@[simp] theorem State.writeMem_pending (a : Nat) (bs : List Byte) : (s.writeMem a bs).pending = s.pending := rfl
@[simp] theorem State.writeMem_regs (a : Nat) (bs : List Byte) : (s.writeMem a bs).regs = s.regs := rfl
@[simp] theorem State.writeMem_res (a : Nat) (bs : List Byte) : (s.writeMem a bs).res = s.res := rfl
@[simp] theorem State.writeMem_coef (a : Nat) (bs : List Byte) : (s.writeMem a bs).coef = s.coef := rfl
@[simp] theorem State.writeMem_acc (a : Nat) (bs : List Byte) : (s.writeMem a bs).acc = s.acc := rfl
@[simp] theorem State.writeMem_huf (a : Nat) (bs : List Byte) : (s.writeMem a bs).huf = s.huf := rfl
@[simp] theorem State.writeMem_lmem (a : Nat) (bs : List Byte) : (s.writeMem a bs).lmem = Memory.storeBytes s.lmem a bs := rfl
@[simp] theorem State.writeMem_rstN (a : Nat) (bs : List Byte) : (s.writeMem a bs).rstN = s.rstN := rfl
@[simp] theorem State.writeMem_params (a : Nat) (bs : List Byte) : (s.writeMem a bs).params = s.params := rfl
@[simp] theorem State.writeMem_inputs (a : Nat) (bs : List Byte) : (s.writeMem a bs).inputs = s.inputs := rfl
@[simp] theorem State.writeMem_rdata (a : Nat) (bs : List Byte) : (s.writeMem a bs).rdata = s.rdata := rfl
@[simp] theorem State.writeMem_draws (a : Nat) (bs : List Byte) : (s.writeMem a bs).draws = s.draws := rfl
@[simp] theorem State.writeMem_epoch (a : Nat) (bs : List Byte) : (s.writeMem a bs).epoch = s.epoch := rfl

@[simp] theorem State.writeBlock_irqEn (a : Nat) (bs : List Byte) : (s.writeBlock a bs).irqEn = s.irqEn := rfl
@[simp] theorem State.writeBlock_status (a : Nat) (bs : List Byte) : (s.writeBlock a bs).status = s.status := rfl
@[simp] theorem State.writeBlock_cmd (a : Nat) (bs : List Byte) : (s.writeBlock a bs).cmd = s.cmd := rfl
@[simp] theorem State.writeBlock_pending (a : Nat) (bs : List Byte) : (s.writeBlock a bs).pending = s.pending := rfl
@[simp] theorem State.writeBlock_regs (a : Nat) (bs : List Byte) : (s.writeBlock a bs).regs = s.regs := rfl
@[simp] theorem State.writeBlock_res (a : Nat) (bs : List Byte) : (s.writeBlock a bs).res = s.res := rfl
@[simp] theorem State.writeBlock_coef (a : Nat) (bs : List Byte) : (s.writeBlock a bs).coef = s.coef := rfl
@[simp] theorem State.writeBlock_acc (a : Nat) (bs : List Byte) : (s.writeBlock a bs).acc = s.acc := rfl
@[simp] theorem State.writeBlock_huf (a : Nat) (bs : List Byte) : (s.writeBlock a bs).huf = s.huf := rfl
@[simp] theorem State.writeBlock_lmem (a : Nat) (bs : List Byte) : (s.writeBlock a bs).lmem = Memory.storeAt s.lmem ((s.blockAddrs a).zip bs) := rfl
@[simp] theorem State.writeBlock_rstN (a : Nat) (bs : List Byte) : (s.writeBlock a bs).rstN = s.rstN := rfl
@[simp] theorem State.writeBlock_params (a : Nat) (bs : List Byte) : (s.writeBlock a bs).params = s.params := rfl
@[simp] theorem State.writeBlock_inputs (a : Nat) (bs : List Byte) : (s.writeBlock a bs).inputs = s.inputs := rfl
@[simp] theorem State.writeBlock_rdata (a : Nat) (bs : List Byte) : (s.writeBlock a bs).rdata = s.rdata := rfl
@[simp] theorem State.writeBlock_draws (a : Nat) (bs : List Byte) : (s.writeBlock a bs).draws = s.draws := rfl
@[simp] theorem State.writeBlock_epoch (a : Nat) (bs : List Byte) : (s.writeBlock a bs).epoch = s.epoch := rfl

@[simp] theorem State.spoil_irqEn (as : List Nat) : (s.spoil as).irqEn = s.irqEn := rfl
@[simp] theorem State.spoil_status (as : List Nat) : (s.spoil as).status = s.status := rfl
@[simp] theorem State.spoil_cmd (as : List Nat) : (s.spoil as).cmd = s.cmd := rfl
@[simp] theorem State.spoil_pending (as : List Nat) : (s.spoil as).pending = s.pending := rfl
@[simp] theorem State.spoil_regs (as : List Nat) : (s.spoil as).regs = s.regs := rfl
@[simp] theorem State.spoil_res (as : List Nat) : (s.spoil as).res = s.res := rfl
@[simp] theorem State.spoil_coef (as : List Nat) : (s.spoil as).coef = s.coef := rfl
@[simp] theorem State.spoil_acc (as : List Nat) : (s.spoil as).acc = s.acc := rfl
@[simp] theorem State.spoil_huf (as : List Nat) : (s.spoil as).huf = s.huf := rfl
@[simp] theorem State.spoil_lmem (as : List Nat) : (s.spoil as).lmem = Memory.storeDraws s.lmem s.draws as := rfl
@[simp] theorem State.spoil_rstN (as : List Nat) : (s.spoil as).rstN = s.rstN := rfl
@[simp] theorem State.spoil_params (as : List Nat) : (s.spoil as).params = s.params := rfl
@[simp] theorem State.spoil_inputs (as : List Nat) : (s.spoil as).inputs = s.inputs := rfl
@[simp] theorem State.spoil_rdata (as : List Nat) : (s.spoil as).rdata = s.rdata := rfl
@[simp] theorem State.spoil_draws (as : List Nat) : (s.spoil as).draws = s.draws + as.length := rfl
@[simp] theorem State.spoil_epoch (as : List Nat) : (s.spoil as).epoch = s.epoch := rfl

@[simp] theorem State.dropTree_irqEn : (s.dropTree).irqEn = s.irqEn := rfl
@[simp] theorem State.dropTree_status : (s.dropTree).status = s.status := rfl
@[simp] theorem State.dropTree_cmd : (s.dropTree).cmd = s.cmd := rfl
@[simp] theorem State.dropTree_pending : (s.dropTree).pending = s.pending := rfl
@[simp] theorem State.dropTree_regs : (s.dropTree).regs = s.regs := rfl
@[simp] theorem State.dropTree_res : (s.dropTree).res = s.res := rfl
@[simp] theorem State.dropTree_coef : (s.dropTree).coef = s.coef := rfl
@[simp] theorem State.dropTree_acc : (s.dropTree).acc = s.acc := rfl
@[simp] theorem State.dropTree_huf : (s.dropTree).huf = { s.huf with tree := none, codes := none } := rfl
@[simp] theorem State.dropTree_lmem : (s.dropTree).lmem = s.lmem := rfl
@[simp] theorem State.dropTree_rstN : (s.dropTree).rstN = s.rstN := rfl
@[simp] theorem State.dropTree_params : (s.dropTree).params = s.params := rfl
@[simp] theorem State.dropTree_inputs : (s.dropTree).inputs = s.inputs := rfl
@[simp] theorem State.dropTree_rdata : (s.dropTree).rdata = s.rdata := rfl
@[simp] theorem State.dropTree_draws : (s.dropTree).draws = s.draws := rfl
@[simp] theorem State.dropTree_epoch : (s.dropTree).epoch = s.epoch := rfl

@[simp] theorem State.launch_irqEn (w : Word) : (s.launch w).irqEn = s.irqEn := rfl
@[simp] theorem State.launch_status (w : Word) : (s.launch w).status = s.status.launched := rfl
@[simp] theorem State.launch_cmd (w : Word) : (s.launch w).cmd = w := rfl
@[simp] theorem State.launch_pending (w : Word) : (s.launch w).pending = some w := rfl
@[simp] theorem State.launch_regs (w : Word) : (s.launch w).regs = s.regs := rfl
@[simp] theorem State.launch_res (w : Word) : (s.launch w).res = s.res := rfl
@[simp] theorem State.launch_coef (w : Word) : (s.launch w).coef = s.coef := rfl
@[simp] theorem State.launch_acc (w : Word) : (s.launch w).acc = s.acc := rfl
@[simp] theorem State.launch_huf (w : Word) : (s.launch w).huf = s.huf := rfl
@[simp] theorem State.launch_lmem (w : Word) : (s.launch w).lmem = s.lmem := rfl
@[simp] theorem State.launch_rstN (w : Word) : (s.launch w).rstN = s.rstN := rfl
@[simp] theorem State.launch_params (w : Word) : (s.launch w).params = s.params := rfl
@[simp] theorem State.launch_inputs (w : Word) : (s.launch w).inputs = s.inputs := rfl
@[simp] theorem State.launch_rdata (w : Word) : (s.launch w).rdata = s.rdata := rfl
@[simp] theorem State.launch_draws (w : Word) : (s.launch w).draws = s.draws := rfl
@[simp] theorem State.launch_epoch (w : Word) : (s.launch w).epoch = s.epoch := rfl

@[simp] theorem State.readValue_irqEn (v : Word) : (s.readValue v).irqEn = s.irqEn := rfl
@[simp] theorem State.readValue_status (v : Word) : (s.readValue v).status = s.status := rfl
@[simp] theorem State.readValue_cmd (v : Word) : (s.readValue v).cmd = s.cmd := rfl
@[simp] theorem State.readValue_pending (v : Word) : (s.readValue v).pending = s.pending := rfl
@[simp] theorem State.readValue_regs (v : Word) : (s.readValue v).regs = s.regs := rfl
@[simp] theorem State.readValue_res (v : Word) : (s.readValue v).res = s.res := rfl
@[simp] theorem State.readValue_coef (v : Word) : (s.readValue v).coef = s.coef := rfl
@[simp] theorem State.readValue_acc (v : Word) : (s.readValue v).acc = s.acc := rfl
@[simp] theorem State.readValue_huf (v : Word) : (s.readValue v).huf = s.huf := rfl
@[simp] theorem State.readValue_lmem (v : Word) : (s.readValue v).lmem = s.lmem := rfl
@[simp] theorem State.readValue_rstN (v : Word) : (s.readValue v).rstN = s.rstN := rfl
@[simp] theorem State.readValue_params (v : Word) : (s.readValue v).params = s.params := rfl
@[simp] theorem State.readValue_inputs (v : Word) : (s.readValue v).inputs = s.inputs := rfl
@[simp] theorem State.readValue_rdata (v : Word) : (s.readValue v).rdata = v := rfl
@[simp] theorem State.readValue_draws (v : Word) : (s.readValue v).draws = s.draws := rfl
@[simp] theorem State.readValue_epoch (v : Word) : (s.readValue v).epoch = s.epoch := rfl

@[simp] theorem State.readDraw_irqEn (w : Width) : (s.readDraw w).irqEn = s.irqEn := rfl
@[simp] theorem State.readDraw_status (w : Width) : (s.readDraw w).status = s.status := rfl
@[simp] theorem State.readDraw_cmd (w : Width) : (s.readDraw w).cmd = s.cmd := rfl
@[simp] theorem State.readDraw_pending (w : Width) : (s.readDraw w).pending = s.pending := rfl
@[simp] theorem State.readDraw_regs (w : Width) : (s.readDraw w).regs = s.regs := rfl
@[simp] theorem State.readDraw_res (w : Width) : (s.readDraw w).res = s.res := rfl
@[simp] theorem State.readDraw_coef (w : Width) : (s.readDraw w).coef = s.coef := rfl
@[simp] theorem State.readDraw_acc (w : Width) : (s.readDraw w).acc = s.acc := rfl
@[simp] theorem State.readDraw_huf (w : Width) : (s.readDraw w).huf = s.huf := rfl
@[simp] theorem State.readDraw_lmem (w : Width) : (s.readDraw w).lmem = s.lmem := rfl
@[simp] theorem State.readDraw_rstN (w : Width) : (s.readDraw w).rstN = s.rstN := rfl
@[simp] theorem State.readDraw_params (w : Width) : (s.readDraw w).params = s.params := rfl
@[simp] theorem State.readDraw_inputs (w : Width) : (s.readDraw w).inputs = s.inputs := rfl
@[simp] theorem State.readDraw_rdata (w : Width) : (s.readDraw w).rdata = w.mask (Config.drawWord s.draws) := rfl
@[simp] theorem State.readDraw_draws (w : Width) : (s.readDraw w).draws = s.draws + 1 := rfl
@[simp] theorem State.readDraw_epoch (w : Width) : (s.readDraw w).epoch = s.epoch := rfl

@[simp] theorem State.writeStatus_irqEn (v : Word) : (s.writeStatus v).irqEn = s.irqEn := rfl
@[simp] theorem State.writeStatus_cmd (v : Word) : (s.writeStatus v).cmd = s.cmd := rfl
@[simp] theorem State.writeStatus_pending (v : Word) : (s.writeStatus v).pending = s.pending := rfl
@[simp] theorem State.writeStatus_regs (v : Word) : (s.writeStatus v).regs = s.regs := rfl
@[simp] theorem State.writeStatus_res (v : Word) : (s.writeStatus v).res = s.res := rfl
@[simp] theorem State.writeStatus_coef (v : Word) : (s.writeStatus v).coef = s.coef := rfl
@[simp] theorem State.writeStatus_acc (v : Word) : (s.writeStatus v).acc = s.acc := rfl
@[simp] theorem State.writeStatus_huf (v : Word) : (s.writeStatus v).huf = s.huf := rfl
@[simp] theorem State.writeStatus_lmem (v : Word) : (s.writeStatus v).lmem = s.lmem := rfl
@[simp] theorem State.writeStatus_rstN (v : Word) : (s.writeStatus v).rstN = s.rstN := rfl
@[simp] theorem State.writeStatus_params (v : Word) : (s.writeStatus v).params = s.params := rfl
@[simp] theorem State.writeStatus_inputs (v : Word) : (s.writeStatus v).inputs = s.inputs := rfl
@[simp] theorem State.writeStatus_rdata (v : Word) : (s.writeStatus v).rdata = s.rdata := rfl
@[simp] theorem State.writeStatus_draws (v : Word) : (s.writeStatus v).draws = s.draws := rfl
@[simp] theorem State.writeStatus_epoch (v : Word) : (s.writeStatus v).epoch = s.epoch := rfl

@[simp] theorem State.spoilDst_lmem : s.spoilDst.lmem = Memory.storeDraws s.lmem s.draws (regionAddrs s.dst s.dstCap) := rfl
@[simp] theorem State.cleared_lmem : s.cleared.lmem = s.lmem := rfl
@[simp] theorem State.cleared_params : s.cleared.params = s.params := rfl
@[simp] theorem State.cleared_pending : s.cleared.pending = none := rfl
@[simp] theorem State.cleared_rstN : s.cleared.rstN = s.rstN := rfl
@[simp] theorem State.hardReset_lmem : s.hardReset.lmem = [] := rfl
@[simp] theorem State.hardReset_params : s.hardReset.params = s.params := rfl
@[simp] theorem State.hardReset_pending : s.hardReset.pending = none := rfl

@[simp] theorem Status.completed_done (st : Status) : st.completed.done = true := rfl
@[simp] theorem Status.completed_err (st : Status) : st.completed.err = st.err := rfl
@[simp] theorem Status.completed_wrWhileBusy (st : Status) : st.completed.wrWhileBusy = st.wrWhileBusy := rfl
@[simp] theorem Status.completed_errcode (st : Status) : st.completed.errcode = st.errcode := rfl
@[simp] theorem Status.failed_done (st : Status) (e : ErrCode) : (st.failed e).done = true := rfl
@[simp] theorem Status.failed_err (st : Status) (e : ErrCode) : (st.failed e).err = true := rfl
@[simp] theorem Status.failed_wrWhileBusy (st : Status) (e : ErrCode) : (st.failed e).wrWhileBusy = st.wrWhileBusy := rfl
@[simp] theorem Status.failed_errcode (st : Status) (e : ErrCode) : (st.failed e).errcode = e.code := rfl
@[simp] theorem Status.launched_done (st : Status) : st.launched.done = false := rfl
@[simp] theorem Status.launched_err (st : Status) : st.launched.err = false := rfl
@[simp] theorem Status.launched_wrWhileBusy (st : Status) : st.launched.wrWhileBusy = st.wrWhileBusy := rfl
@[simp] theorem Status.launched_errcode (st : Status) : st.launched.errcode = 0 := rfl

@[simp] theorem ResultRegs.counted_outLen (r : ResultRegs) (n m : Nat) : (r.counted n m).outLen = BitVec.ofNat 32 n := rfl
@[simp] theorem ResultRegs.counted_bitCount (r : ResultRegs) (n m : Nat) : (r.counted n m).bitCount = BitVec.ofNat 32 m := rfl
@[simp] theorem ResultRegs.counted_lzwNext (r : ResultRegs) (n m : Nat) : (r.counted n m).lzwNext = r.lzwNext := rfl
@[simp] theorem ResultRegs.transformed_lzwNext (r : ResultRegs) (z b : Nat) : (r.transformed z b).lzwNext = r.lzwNext := rfl

end

end Sys2Proof.Machine
end

