-- ==== Sys2Proof/Laws/Memory.lean ====
section
/-! SUPPORT. The laws of LMEM: read after write, everywhere else unchanged, and the canonical form kept by every operation. -/

namespace Sys2Proof.Machine

theorem Memory.lookup_store (m : Memory) (a : Nat) (b : Byte) (c : Nat) :
    Memory.lookup (Memory.store m a b) c = if c = a then some b else Memory.lookup m c := by
  induction m with
  | nil => simp [Memory.store, Memory.lookup]
  | cons kv m ih =>
    obtain ⟨k, v⟩ := kv
    unfold Memory.store
    split_ifs <;> grind [Memory.lookup]

theorem Memory.lookup_storeBytes (m : Memory) (a : Nat) (bs : List Byte) (c : Nat) :
    Memory.lookup (Memory.storeBytes m a bs) c =
      if a ≤ c ∧ c < a + bs.length then bs[c - a]? else Memory.lookup m c := by
  induction bs generalizing m a with
  | nil =>
    have h : ¬(a ≤ c ∧ c < a) := by omega
    simp [Memory.storeBytes, h]
  | cons b bs ih =>
    rw [Memory.storeBytes, ih, Memory.lookup_store]
    rcases Nat.lt_trichotomy c a with h | h | h
    · grind
    · subst h; grind
    · obtain ⟨d, rfl⟩ : ∃ d, c = a + 1 + d := ⟨c - (a + 1), by omega⟩
      grind

theorem Memory.lookup_storeAt_of_notMem (m : Memory) (ps : List (Nat × Byte)) (c : Nat)
    (h : c ∉ ps.map Prod.fst) : Memory.lookup (Memory.storeAt m ps) c = Memory.lookup m c := by
  induction ps generalizing m with
  | nil => rfl
  | cons p ps ih =>
    obtain ⟨a, b⟩ := p
    simp only [List.map_cons, List.mem_cons, not_or] at h
    rw [Memory.storeAt, ih _ h.2, Memory.lookup_store, if_neg h.1]

theorem Memory.lookup_storeDraws_of_notMem (m : Memory) (k : Nat) (as : List Nat) (c : Nat)
    (h : c ∉ as) : Memory.lookup (Memory.storeDraws m k as) c = Memory.lookup m c := by
  induction as generalizing m k with
  | nil => rfl
  | cons a as ih =>
    simp only [List.mem_cons, not_or] at h
    rw [Memory.storeDraws, ih _ _ h.2, Memory.lookup_store, if_neg h.1]

/-- The addresses a store leaves listed. -/
theorem Memory.mem_store {m : Memory} {a : Nat} {b : Byte} {e : Host.Cell}
    (h : e ∈ Memory.store m a b) : e.1 = a ∨ e ∈ m := by
  induction m with
  | nil => simp_all [Memory.store]
  | cons kv m ih =>
    obtain ⟨k, v⟩ := kv
    unfold Memory.store at h
    split_ifs at h <;> simp at h <;> grind

theorem Memory.wf_store {m : Memory} (h : Memory.wf m) (a : Nat) (b : Byte) :
    Memory.wf (Memory.store m a b) := by
  induction m with
  | nil => simp [Memory.store, Memory.wf]
  | cons kv m ih =>
    obtain ⟨k, v⟩ := kv
    have hk := (List.pairwise_cons.1 h).1
    have hm := (List.pairwise_cons.1 h).2
    unfold Memory.store
    split_ifs with h1 h2
    · refine List.pairwise_cons.2 ⟨?_, h⟩
      intro e he
      rcases List.mem_cons.1 he with rfl | he
      · exact h1
      · exact Nat.lt_trans h1 (hk e he)
    · subst h2
      exact List.pairwise_cons.2 ⟨hk, hm⟩
    · refine List.pairwise_cons.2 ⟨?_, ih hm⟩
      intro e he
      rcases Memory.mem_store he with he | he
      · simp only [he]; omega
      · exact hk e he

theorem Memory.wf_storeBytes {m : Memory} (h : Memory.wf m) (a : Nat) (bs : List Byte) :
    Memory.wf (Memory.storeBytes m a bs) := by
  induction bs generalizing m a with
  | nil => exact h
  | cons b bs ih => exact ih (Memory.wf_store h a b) _

theorem Memory.wf_storeAt {m : Memory} (h : Memory.wf m) (ps : List (Nat × Byte)) :
    Memory.wf (Memory.storeAt m ps) := by
  induction ps generalizing m with
  | nil => exact h
  | cons p ps ih => exact ih (Memory.wf_store h p.1 p.2)

theorem Memory.wf_storeDraws {m : Memory} (h : Memory.wf m) (k : Nat) (as : List Nat) :
    Memory.wf (Memory.storeDraws m k as) := by
  induction as generalizing m k with
  | nil => exact h
  | cons a as ih => exact ih (Memory.wf_store h a _) _

/-- Every listed address of a store of bytes was listed, or is one of the bytes' own. -/
theorem Memory.mem_storeBytes {m : Memory} {a : Nat} {bs : List Byte} {e : Host.Cell}
    (h : e ∈ Memory.storeBytes m a bs) : (a ≤ e.1 ∧ e.1 < a + bs.length) ∨ e ∈ m := by
  induction bs generalizing m a with
  | nil => exact .inr h
  | cons b bs ih =>
    rcases ih h with h | h
    · left; simp only [List.length_cons]; omega
    · rcases Memory.mem_store h with h | h
      · left; simp only [List.length_cons]; omega
      · exact .inr h

theorem Memory.mem_storeAt {m : Memory} {ps : List (Nat × Byte)} {e : Host.Cell}
    (h : e ∈ Memory.storeAt m ps) : e.1 ∈ ps.map Prod.fst ∨ e ∈ m := by
  induction ps generalizing m with
  | nil => exact .inr h
  | cons p ps ih =>
    rcases ih h with h | h
    · exact .inl (List.mem_cons_of_mem _ h)
    · rcases Memory.mem_store h with h | h
      · left; simp [h]
      · exact .inr h

theorem Memory.mem_storeDraws {m : Memory} {k : Nat} {as : List Nat} {e : Host.Cell}
    (h : e ∈ Memory.storeDraws m k as) : e.1 ∈ as ∨ e ∈ m := by
  induction as generalizing m k with
  | nil => exact .inr h
  | cons a as ih =>
    rcases ih h with h | h
    · exact .inl (List.mem_cons_of_mem _ h)
    · rcases Memory.mem_store h with h | h
      · left; simp [h]
      · exact .inr h

/-- Reading a byte after a contiguous write. -/
theorem State.readByte_writeMem (s : State) (a : Nat) (bs : List Byte) (c : Nat) :
    (s.writeMem a bs).readByte c =
      if a ≤ c ∧ c < a + bs.length then bs.getD (c - a) 0 else s.readByte c := by
  unfold State.readByte State.unwrittenByte
  rw [State.writeMem_lmem, State.writeMem_epoch, Memory.lookup_storeBytes]
  split_ifs with h
  · have h' : c - a < bs.length := by omega
    simp [List.getD, h']
  · rfl

theorem State.readByte_writeBlock_of_notMem (s : State) (a : Nat) (bs : List Byte) (c : Nat)
    (h : c ∉ s.blockAddrs a) : (s.writeBlock a bs).readByte c = s.readByte c := by
  unfold State.readByte State.unwrittenByte
  rw [State.writeBlock_lmem, State.writeBlock_epoch, Memory.lookup_storeAt_of_notMem]
  intro hc
  obtain ⟨p, hp, rfl⟩ := List.mem_map.1 hc
  exact h (List.of_mem_zip hp).1

theorem State.readByte_spoil_of_notMem (s : State) (as : List Nat) (c : Nat) (h : c ∉ as) :
    (s.spoil as).readByte c = s.readByte c := by
  unfold State.readByte State.unwrittenByte
  rw [State.spoil_lmem, State.spoil_epoch, Memory.lookup_storeDraws_of_notMem _ _ _ _ h]

@[simp] theorem State.readMem_length (s : State) (a n : Nat) : (s.readMem a n).length = n := by
  simp [State.readMem]

@[simp] theorem State.readBlock_length (s : State) (a : Nat) : (s.readBlock a).length = 64 := by
  simp [State.readBlock, State.blockAddrs]

@[simp] theorem State.source_length (s : State) : s.source.length = s.srcLen := State.readMem_length s s.src s.srcLen

theorem State.readMem_writeMem_self (s : State) (a : Nat) (bs : List Byte) :
    (s.writeMem a bs).readMem a bs.length = bs := by
  refine List.ext_getElem (by simp) fun i h1 h2 => ?_
  have h : i < bs.length := h2
  simp [State.readMem, State.readByte_writeMem, h]

end Sys2Proof.Machine
end

