-- ==== Sys2Proof/Laws/Ops.lean ====
section
/-! SUPPORT. One lemma per shared operation: what it answers, and the lengths of what it makes. -/

namespace Sys2Proof.Machine

theorem succeed_eq_next_iff (s t : State) (n m : Nat) : succeed s n m = .next t ↔ t = s.completeOk n m := by
  constructor
  · intro h; exact (Host.Outcome.next.inj h).symm
  · rintro rfl; rfl

theorem failWith_eq_next_iff (e : ErrCode) (s t : State) : failWith e s = .next t ↔ t = s.completeErr e := by
  constructor
  · intro h; exact (Host.Outcome.next.inj h).symm
  · rintro rfl; rfl

theorem failSpoiled_eq_next_iff (e : ErrCode) (s t : State) :
    failSpoiled e s = .next t ↔ t = s.spoilDst.completeErr e := failWith_eq_next_iff e s.spoilDst t

theorem mem_regionAddrs (a n c : Nat) : c ∈ regionAddrs a n ↔ a ≤ c ∧ c < a + n := by
  simp [regionAddrs, List.mem_range'_1]

theorem State.inRange_iff (s : State) (a n : Nat) : s.inRange a n = true ↔ a + n ≤ s.params.lmemSize := by
  simp [State.inRange]

theorem overlap_iff (a m b n : Nat) : overlap a m b n = true ↔ 0 < m ∧ 0 < n ∧ a < b + n ∧ b < a + m := by
  simp [overlap, and_assoc]

theorem State.codecCheck_eq_none_iff (s : State) :
    s.codecCheck = none ↔
      s.src + s.srcLen ≤ s.params.lmemSize ∧ s.dst + s.dstCap ≤ s.params.lmemSize ∧
        overlap s.src s.srcLen s.dst s.dstCap = false := by
  unfold State.codecCheck
  have h1 := s.inRange_iff s.src s.srcLen
  have h2 := s.inRange_iff s.dst s.dstCap
  cases hs : s.inRange s.src s.srcLen <;> cases hd : s.inRange s.dst s.dstCap <;>
    cases ho : overlap s.src s.srcLen s.dst s.dstCap <;> simp_all

/-- The only errors of the region checks. -/
theorem State.codecCheck_eq_some {s : State} {e : ErrCode} (h : s.codecCheck = some e) :
    e = .addressRange ∨ e = .regionOverlap := by
  unfold State.codecCheck at h
  split_ifs at h <;> simp_all

/-- The addresses of a block that passes its range check lie inside LMEM (40_control.md R181). -/
theorem State.mem_blockAddrs_lt {s : State} {a c : Nat} (h : s.inRange a s.footprint = true)
    (hc : c ∈ s.blockAddrs a) : c < s.params.lmemSize := by
  rw [State.inRange_iff] at h
  simp only [State.blockAddrs, List.mem_map, List.mem_range] at hc
  obtain ⟨i, hi, rfl⟩ := hc
  have h1 : i / 8 * s.regs.blkStride.toNat ≤ 7 * s.regs.blkStride.toNat := Nat.mul_le_mul_right _ (by omega)
  have h2 : i % 8 * s.regs.blkStep.toNat ≤ 7 * s.regs.blkStep.toNat := Nat.mul_le_mul_right _ (by omega)
  unfold State.footprint at h
  unfold State.sampleAddr
  omega

@[simp] theorem lowBits_length (v : Word) (n : Nat) : (lowBits v n).length = n := by
  induction n with
  | zero => rfl
  | succ n ih => simp [lowBits, ih]

@[simp] theorem bitsOfByte_length (y : Byte) : (bitsOfByte y).length = 8 := by simp [bitsOfByte]

@[simp] theorem allBits_length (y : List Byte) : (allBits y).length = 8 * y.length := by
  induction y with
  | nil => rfl
  | cons b y ih =>
    have h : allBits (b :: y) = bitsOfByte b ++ allBits y := rfl
    rw [h, List.length_append, ih, bitsOfByte_length, List.length_cons]
    omega

@[simp] theorem freqCounts_length (y : List Byte) : (freqCounts y).length = 256 := by simp [freqCounts]

@[simp] theorem freqWords_length (F : List Nat) : (freqWords F).length = F.length := by simp [freqWords]

@[simp] theorem fwd_length (X : List Byte) : (fwd X).length = 64 := by simp [fwd]

@[simp] theorem inv_length (Y : List Word) : (inv Y).length = 64 := by simp [inv]

@[simp] theorem thr_length (lim : Nat) (Y : List Word) : (thr lim Y).length = Y.length := by simp [thr]

@[simp] theorem bytesOfCodes_length (codes : List Nat) : (bytesOfCodes codes).length = 2 * codes.length := by
  induction codes with
  | nil => rfl
  | cons c codes ih =>
    have h : (bytesOfCodes (c :: codes)).length = 2 + (bytesOfCodes codes).length := by
      simp only [bytesOfCodes, List.flatMap_cons, List.length_append, List.length_cons, List.length_nil]
    rw [h, ih, List.length_cons]
    omega

@[simp] theorem putBlock_length (w c : Nat) (p : BlockPos) (out samples : List Byte) :
    (putBlock w c p out samples).length = out.length := by
  have h : ∀ (l : List Nat) (o : List Byte),
      (l.foldl (fun o i => o.set (p.index w c i) (samples.getD i 0)) o).length = o.length := by
    intro l
    induction l with
    | nil => intro o; rfl
    | cons i l ih => intro o; rw [List.foldl_cons, ih, List.length_set]
  exact h _ _

/-- The output frame is as long as the source frame. -/
@[simp] theorem frameLoop_out_length (P : List Byte) (w h c lim : Nat) (coef : List Word) :
    (frameLoop P w h c lim coef).out.length = P.length := by
  have h' : ∀ (l : List BlockPos) (acc : FrameAcc),
      (l.foldl (frameTurn P w c lim) acc).out.length = acc.out.length := by
    intro l
    induction l with
    | nil => intro acc; rfl
    | cons p l ih => intro acc; rw [List.foldl_cons, ih]; simp [frameTurn]
  exact h' _ _

end Sys2Proof.Machine
end

