-- ==== Sys2Proof/Laws/LzwFull.lean ====
section
/-! SUPPORT. LZW_ENCODE can fail: a source that fills the dictionary (43_lzw.md R301, R303, 60_exceptions.md R406). The source's 65281 new sequences are first pairs (x, x + D) for odd D, then triples (x, x + 1, x + D). -/

namespace Sys2Proof.Machine

/-- What is a key of the dictionary (43_lzw.md R303). -/
theorem LzwDict.codeOf_isSome (d : LzwDict) (a b : Byte) (w : List Byte) :
    (LzwDict.codeOf d (a :: b :: w)).isSome = true ↔ (a :: b :: w) ∈ d := by
  simp [LzwDict.codeOf, List.isSome_idxOf?]

/-- A new pair: the command fails if the dictionary is full or if it fails afterwards. -/
theorem lzwEncodeFrom_pair {d : LzwDict} {a b : Byte} {y : List Byte} (hn : [a, b] ∉ d)
    (h : LzwDict.next d = lzwCapacity ∨
      lzwEncodeFrom (d ++ [[a, b]]) [b] y = .error .unsupportedAlphabetSize) :
    lzwEncodeFrom d [a] (b :: y) = .error .unsupportedAlphabetSize := by
  have hc : (LzwDict.codeOf d ([a] ++ [b])).isSome = false := by
    rw [← Bool.not_eq_true]; exact fun h => hn ((LzwDict.codeOf_isSome d a b []).1 h)
  rw [lzwEncodeFrom, hc]
  by_cases hf : LzwDict.next d = lzwCapacity
  · simp [hf]
  · simp [hf, h.resolve_left hf]

/-- A new triple after a known pair: the same. -/
theorem lzwEncodeFrom_triple {d : LzwDict} {a b c : Byte} {y : List Byte} (hk : [a, b] ∈ d) (hn : [a, b, c] ∉ d)
    (h : LzwDict.next d = lzwCapacity ∨
      lzwEncodeFrom (d ++ [[a, b, c]]) [c] y = .error .unsupportedAlphabetSize) :
    lzwEncodeFrom d [a] (b :: c :: y) = .error .unsupportedAlphabetSize := by
  have hp : (LzwDict.codeOf d ([a] ++ [b])).isSome = true := (LzwDict.codeOf_isSome d a b []).2 hk
  have hc : (LzwDict.codeOf d ([a] ++ [b] ++ [c])).isSome = false := by
    rw [← Bool.not_eq_true]; exact fun h => hn ((LzwDict.codeOf_isSome d a b [c]).1 h)
  rw [lzwEncodeFrom, if_pos hp, lzwEncodeFrom, hc]
  by_cases hf : LzwDict.next d = lzwCapacity
  · simp [hf]
  · simp [hf, h.resolve_left hf]

/-- Sequences that are new each time, each a pair or a triple whose first two bytes are an earlier pair, each beginning where the one before ended. -/
structure FreshTrace (E : Nat → List Byte) (s : Nat → Byte) : Prop where
  shape : ∀ j, E j = [s j, s (j + 1)] ∨ ∃ m, E j = [s j, m, s (j + 1)] ∧ ∃ i < j, E i = [s j, m]
  fresh : ∀ i j, i < j → j < 65536 → E i ≠ E j

/-- The bytes of such sequences from number `j` on, without the first byte. -/
def traceTail (E : Nat → List Byte) (j n : Nat) : List Byte := (List.range' j n).flatMap fun i => (E i).tail

theorem FreshTrace.fails {E : Nat → List Byte} {s : Nat → Byte} (h : FreshTrace E s) (n j : Nat) (hj : j + n = 65280) :
    lzwEncodeFrom ((List.range j).map E) [s j] (traceTail E j (n + 1)) = .error .unsupportedAlphabetSize := by
  induction n generalizing j with
  | zero =>
    have hfull : LzwDict.next ((List.range j).map E) = lzwCapacity := by simp [LzwDict.next, lzwCapacity]; omega
    have hnew : E j ∉ (List.range j).map E := by
      simp only [List.mem_map, List.mem_range, not_exists, not_and]
      exact fun i hi => h.fresh i j hi (by omega)
    have ht : traceTail E j (0 + 1) = (E j).tail := by simp [traceTail]
    rw [ht]
    rcases h.shape j with e | ⟨m, e, i, hi, ei⟩
    · rw [e] at hnew ⊢
      exact lzwEncodeFrom_pair hnew (.inl hfull)
    · rw [e] at hnew ⊢
      exact lzwEncodeFrom_triple (List.mem_map.2 ⟨i, List.mem_range.2 hi, ei⟩) hnew (.inl hfull)
  | succ n ih =>
    have hnew : E j ∉ (List.range j).map E := by
      simp only [List.mem_map, List.mem_range, not_exists, not_and]
      exact fun i hi => h.fresh i j hi (by omega)
    have hrec := ih (j + 1) (by omega)
    rw [List.range_succ, List.map_append, List.map_singleton] at hrec
    have ht : traceTail E j (n + 1 + 1) = (E j).tail ++ traceTail E (j + 1) (n + 1) := by
      rw [traceTail, List.range'_succ, List.flatMap_cons, traceTail]
    rw [ht]
    rcases h.shape j with e | ⟨m, e, i, hi, ei⟩
    · rw [e] at hrec hnew ⊢
      exact lzwEncodeFrom_pair hnew (.inr hrec)
    · rw [e] at hrec hnew ⊢
      exact lzwEncodeFrom_triple (List.mem_map.2 ⟨i, List.mem_range.2 hi, ei⟩) hnew (.inr hrec)

/-- The odd step of sequence `j`. -/
def fillStep (j : Nat) : Nat := 2 * (j % 32768 / 256) + 1

/-- Where sequence `j` begins. -/
def fillByte (j : Nat) : Byte := BitVec.ofNat 8 (fillStep j * (j % 256))

/-- Sequence `j`: a pair for the first 32768, then a triple. -/
def fillSeq (j : Nat) : List Byte :=
  if j < 32768 then [fillByte j, fillByte (j + 1)]
  else [fillByte j, BitVec.ofNat 8 (fillStep j * (j % 256) + 1), fillByte (j + 1)]

theorem fillByte_succ (j : Nat) : fillByte (j + 1) = BitVec.ofNat 8 (fillStep j * (j % 256) + fillStep j) := by
  unfold fillByte
  by_cases h : j % 256 = 255
  · have h1 : (j + 1) % 256 = 0 := by omega
    apply BitVec.eq_of_toNat_eq
    simp only [BitVec.toNat_ofNat, h, h1]
    omega
  · have h1 : (j + 1) % 256 = j % 256 + 1 := by omega
    have h2 : fillStep (j + 1) = fillStep j := by unfold fillStep; omega
    rw [h1, h2, Nat.mul_add, Nat.mul_one]

/-- The start, the step and the phase tell the number. -/
theorem fill_inj {i j : Nat} (h1 : fillByte i = fillByte j) (h2 : fillByte (i + 1) = fillByte (j + 1))
    (hp : i / 32768 = j / 32768) : i = j := by
  rw [fillByte_succ, fillByte_succ] at h2
  unfold fillByte at h1
  replace h1 := congrArg BitVec.toNat h1
  replace h2 := congrArg BitVec.toNat h2
  simp only [BitVec.toNat_ofNat] at h1 h2
  have hd : fillStep i = fillStep j := by
    have hb : fillStep i < 256 ∧ fillStep j < 256 := by unfold fillStep; omega
    omega
  rw [hd] at h1
  have hc : Nat.gcd 256 (fillStep j) = 1 := by
    have ho : Nat.Coprime 2 (fillStep j) := by
      rw [Nat.coprime_two_left]; exact ⟨_, rfl⟩
    exact Nat.Coprime.pow_left 8 ho
  have hm : i % 256 ≡ j % 256 [MOD 256] := Nat.ModEq.cancel_left_of_coprime hc h1
  unfold Nat.ModEq at hm
  unfold fillStep at hd
  omega

theorem fillSeq_freshTrace : FreshTrace fillSeq fillByte where
  shape j := by
    by_cases hj : j < 32768
    · exact .inl (if_pos hj)
    · refine .inr ⟨_, if_neg hj, fillStep j * (j % 256) % 256, ?_, ?_⟩
      · omega
      · have hlt : fillStep j * (j % 256) % 256 < 256 := Nat.mod_lt _ (by decide)
        generalize hx : fillStep j * (j % 256) = x at hlt
        have hs : fillStep (x % 256) = 1 := by unfold fillStep; omega
        rw [fillSeq, if_pos (by omega), fillByte_succ, hs, fillByte, fillByte, hs, hx]
        simp only [List.cons.injEq, and_true]
        constructor <;> apply BitVec.eq_of_toNat_eq <;> simp only [BitVec.toNat_ofNat] <;> omega
  fresh i j hij hj h := by
    unfold fillSeq at h
    split at h <;> split at h <;> simp only [List.cons.injEq, reduceCtorEq, and_true, and_false] at h
    · exact absurd (fill_inj h.1 h.2 (by omega)) (by omega)
    · exact absurd (fill_inj h.1 h.2.2 (by omega)) (by omega)

/-- A source that fills the dictionary. -/
def fillSource : List Byte := fillByte 0 :: traceTail fillSeq 0 (65280 + 1)

theorem lzwEncode_cons (c : Byte) (y : List Byte) : lzwEncode (c :: y) = lzwEncodeFrom [] [c] y := rfl

theorem lzwEncode_fillSource : lzwEncode fillSource = .error .unsupportedAlphabetSize := by
  have h := fillSeq_freshTrace.fails 65280 0 (Nat.zero_add _)
  rw [List.range_zero, List.map_nil] at h
  rw [fillSource, lzwEncode_cons]
  exact h

theorem traceTail_fillSeq_length_le (n j : Nat) : (traceTail fillSeq j n).length ≤ 2 * n := by
  induction n generalizing j with
  | zero => simp [traceTail]
  | succ n ih =>
    have hi := ih (j + 1)
    have ht : (fillSeq j).tail.length ≤ 2 := by unfold fillSeq; split <;> simp
    rw [traceTail, List.range'_succ, List.flatMap_cons, List.length_append, ← traceTail]
    omega

theorem fill_length_le (n : Nat) : (fillByte 0 :: traceTail fillSeq 0 n).length ≤ 2 * n + 1 :=
  Nat.succ_le_succ (traceTail_fillSeq_length_le n 0)

theorem fillSource_length_le : fillSource.length ≤ 2 * (65280 + 1) + 1 := by
  rw [fillSource]
  exact fill_length_le (65280 + 1)

end Sys2Proof.Machine
end

