-- ==== Sys2Proof/Laws/PerInstr.lean ====
section
/-! SUPPORT. Per-command facts about the command set as syntax: the fields of a command's word (30_encoding.md R141, R142, R144). -/

namespace Sys2Proof.Laws.EncodedFields

/-- RSV is 0, ARG is the bit count or 0, OPC is the row's opcode. -/
def Statement (i : Instr) : Prop :=
  i.wf = true → rsvField (encode i) = 0 ∧ argField (encode i) = i.arg ∧ opcField (encode i) = i.opc

/-- The word of a bit count and an opcode that fit their fields. -/
theorem fields_of_word (arg opc : Nat) (ha : arg < 256) (ho : opc < 256) :
    rsvField ((0#16) ++ BitVec.ofNat 8 arg ++ BitVec.ofNat 8 opc) = 0 ∧
      argField ((0#16) ++ BitVec.ofNat 8 arg ++ BitVec.ofNat 8 opc) = arg ∧
        opcField ((0#16) ++ BitVec.ofNat 8 arg ++ BitVec.ofNat 8 opc) = opc := by
  have h : ((0#16) ++ BitVec.ofNat 8 arg ++ BitVec.ofNat 8 opc).toNat = arg * 256 + opc := by
    simp only [BitVec.toNat_append, BitVec.toNat_ofNat]
    rw [Nat.mod_eq_of_lt ha, Nat.mod_eq_of_lt ho]
    simp only [Nat.zero_mod, Nat.zero_shiftLeft, Nat.zero_or]
    rw [← Nat.shiftLeft_add_eq_or_of_lt ho, Nat.shiftLeft_eq]
  unfold rsvField argField opcField
  simp only [BitVec.extractLsb'_toNat, h, Nat.shiftRight_eq_div_pow]
  omega

theorem countOk_lt {n : Nat} (h : countOk n = true) : n < 256 := by
  simp only [countOk, Bool.and_eq_true, decide_eq_true_eq] at h
  omega

theorem nop : Statement .nop := fun _ => fields_of_word 0 (Instr.opc .nop) (by decide) (by decide)

theorem bsClear : Statement .bsClear := fun _ => fields_of_word 0 (Instr.opc .bsClear) (by decide) (by decide)

theorem bsPut (n : Nat) : Statement (.bsPut n) := fun h =>
  fields_of_word n (0x11) (countOk_lt h) (by decide)

theorem bsFlush : Statement .bsFlush := fun _ => fields_of_word 0 (Instr.opc .bsFlush) (by decide) (by decide)

theorem bsLoad : Statement .bsLoad := fun _ => fields_of_word 0 (Instr.opc .bsLoad) (by decide) (by decide)

theorem bsGet (n : Nat) : Statement (.bsGet n) := fun h =>
  fields_of_word n (0x14) (countOk_lt h) (by decide)

theorem hufFreq : Statement .hufFreq := fun _ => fields_of_word 0 (Instr.opc .hufFreq) (by decide) (by decide)

theorem hufTree : Statement .hufTree := fun _ => fields_of_word 0 (Instr.opc .hufTree) (by decide) (by decide)

theorem hufCodes : Statement .hufCodes := fun _ => fields_of_word 0 (Instr.opc .hufCodes) (by decide) (by decide)

theorem hufEncode : Statement .hufEncode := fun _ => fields_of_word 0 (Instr.opc .hufEncode) (by decide) (by decide)

theorem hufDecode : Statement .hufDecode := fun _ => fields_of_word 0 (Instr.opc .hufDecode) (by decide) (by decide)

theorem lzwEncode : Statement .lzwEncode := fun _ => fields_of_word 0 (Instr.opc .lzwEncode) (by decide) (by decide)

theorem lzwDecode : Statement .lzwDecode := fun _ => fields_of_word 0 (Instr.opc .lzwDecode) (by decide) (by decide)

theorem dctFwd : Statement .dctFwd := fun _ => fields_of_word 0 (Instr.opc .dctFwd) (by decide) (by decide)

theorem dctQuant : Statement .dctQuant := fun _ => fields_of_word 0 (Instr.opc .dctQuant) (by decide) (by decide)

theorem dctInv : Statement .dctInv := fun _ => fields_of_word 0 (Instr.opc .dctInv) (by decide) (by decide)

theorem dctBlock : Statement .dctBlock := fun _ => fields_of_word 0 (Instr.opc .dctBlock) (by decide) (by decide)

theorem dctFrame : Statement .dctFrame := fun _ => fields_of_word 0 (Instr.opc .dctFrame) (by decide) (by decide)

end Sys2Proof.Laws.EncodedFields
end

