-- ==== Sys2Proof/Laws/Step.lean ====
section
/-! SUPPORT. The step by the head of its schedule, and the register map read both ways. -/

namespace Sys2Proof.Machine

theorem step_of_no_inputs {s : State} (h : s.inputs = []) : step s = engineStep s := by
  unfold step; rw [h]

theorem step_of_engine {s : State} {rest : List Input} (h : s.inputs = .engine :: rest) :
    step s = engineStep { s with inputs := rest } := by unfold step; rw [h]

theorem step_of_access {s : State} {a : Access} {rest : List Input} (h : s.inputs = .access a :: rest) :
    step s = .next (State.hostAccess { s with inputs := rest } a) := by unfold step; rw [h]

theorem step_of_reset {s : State} {b : Bool} {rest : List Input} (h : s.inputs = .reset b :: rest) :
    step s = .next (State.resetPin { s with inputs := rest } b) := by unfold step; rw [h]

theorem engineStep_of_idle {s : State} (h : s.pending = none) : engineStep s = .next s := by
  unfold engineStep; rw [h]

theorem engineStep_of_pending {s : State} {w : Word} (h : s.pending = some w) : engineStep s = runWord w s := by
  unfold engineStep; rw [h]

/-- Every register's offset is a 4-aligned offset below the LMEM window. -/
theorem Reg.offset_lt (r : Reg) : r.offset < lmemWindow := by
  cases r <;> simp [Reg.offset, lmemWindow] <;> omega

theorem Reg.offset_aligned (r : Reg) : r.offset % 4 = 0 := by
  cases r <;> simp [Reg.offset]

end Sys2Proof.Machine
end

