-- ==== Sys2Proof/Tests/Slice0.lean ====
section
/-! SUPPORT. Small tests against 95_test_vectors.md and the tables of 30_encoding.md, and for every statement with hypotheses a witness that meets them. -/

open Sys2Proof Sys2Proof.Machine

namespace Sys2Proof.Tests

-- One theorem after another: the kernel evaluations side by side would need too much memory.
set_option Elab.async false

/-! ## Helpers -/

/-- Bytes written as numbers. -/
def bytes (l : List Nat) : List Byte := l.map (BitVec.ofNat 8)

/-- The reset state with the region registers and the given bytes at SRC_ADDR. -/
def regions (src dst cap : Nat) (source : List Nat) : State :=
  State.writeMem
    { State.reset with
      regs :=
        { State.reset.regs with
          srcAddr := BitVec.ofNat 32 src, srcLen := BitVec.ofNat 32 source.length
          dstAddr := BitVec.ofNat 32 dst, dstCap := BitVec.ofNat 32 cap } }
    src (bytes source)

/-- The reset state with the region registers alone. -/
def ranges (src len dst cap : Nat) : State :=
  { State.reset with
    regs :=
      { State.reset.regs with
        srcAddr := BitVec.ofNat 32 src, srcLen := BitVec.ofNat 32 len
        dstAddr := BitVec.ofNat 32 dst, dstCap := BitVec.ofNat 32 cap } }

/-- A state with an accumulator. -/
def withAcc (s : State) (w r : Bits) (p : Nat) : State := { s with acc := { wbits := w, rbits := r, rpos := p } }

/-- A state with block registers. -/
def withBlock (s : State) (stride step : Nat) : State :=
  { s with regs := { s.regs with blkStride := BitVec.ofNat 16 stride, blkStep := BitVec.ofNat 16 step } }

/-- A state with a limit. -/
def withLimit (s : State) (lim : Nat) : State := { s with regs := { s.regs with magLimit := BitVec.ofNat 32 lim } }

/-- A state with frame registers. -/
def withFrame (s : State) (w h c : Nat) : State :=
  { s with
    regs := { s.regs with frameW := BitVec.ofNat 16 w, frameH := BitVec.ofNat 16 h, frameC := BitVec.ofNat 3 c } }

/-- One coefficient set, the others 0. -/
def oneCoef (i : Nat) (v : Int) : State :=
  { State.reset with coef := (List.replicate 64 (0 : Word)).set i (BitVec.ofInt 32 v) }

/-- The state after one step that runs the command word `w`. -/
def run (w : Nat) (s : State) : State :=
  match step (s.withFetchWord 32 w) with
  | .next t => t
  | .fault _ => s
  | .refused _ => s

/-- STATUS, OUT_LEN and BITCOUNT. -/
def outcome (s : State) : Nat × Nat × Nat := ((statusWord s).toNat, s.res.outLen.toNat, s.res.bitCount.toNat)

/-- The OUT_LEN bytes at DST_ADDR. -/
def output (s : State) : List Byte := s.readMem s.dst s.res.outLen.toNat

/-- The text "aaaabbbccd". -/
def text : List Nat := [0x61, 0x61, 0x61, 0x61, 0x62, 0x62, 0x62, 0x63, 0x63, 0x64]

/-- Its artifact (95_test_vectors.md 1.1). -/
def textArtifact : List Nat :=
  [0x05, 0x00, 0x01, 0x61, 0x00, 0x01, 0x62, 0x00, 0x01, 0x64, 0x01, 0x63, 0x0A, 0xBF, 0xC0]

/-- The bits `1011000001`. -/
def tenBits : Bits := [true, false, true, true, false, false, false, false, false, true]

/-! ## Well-formedness -/

/-- 30_encoding.md R142, R145: a bit count of 0 or 33 is refused, 1 and 32 are not. -/
theorem test_wellFormed :
    Instr.wf (.bsPut 0) = false ∧ Instr.wf (.bsPut 33) = false ∧ Instr.wf (.bsGet 0) = false ∧
      Instr.wf (.bsGet 33) = false ∧ Instr.wf (.bsPut 1) = true ∧ Instr.wf (.bsPut 32) = true ∧
      Instr.wf (.bsGet 1) = true ∧ Instr.wf (.bsGet 32) = true := by decide

/-! ## Decoding: RSV, ARG, OPC written out from 30_encoding.md R141, R142, R144 -/

theorem test_decode_control_bitstream :
    decodeTableWord 32 0b0000000000000000_00000000_00000000 = some .nop ∧
      decodeTableWord 32 0b0000000000000000_00000000_00010000 = some .bsClear ∧
      decodeTableWord 32 0b0000000000000000_00000011_00010001 = some (.bsPut 3) ∧
      decodeTableWord 32 0b0000000000000000_00000000_00010010 = some .bsFlush ∧
      decodeTableWord 32 0b0000000000000000_00000000_00010011 = some .bsLoad ∧
      decodeTableWord 32 0b0000000000000000_00100000_00010100 = some (.bsGet 32) := by decide

theorem test_decode_huffman_lzw :
    decodeTableWord 32 0b0000000000000000_00000000_00100000 = some .hufFreq ∧
      decodeTableWord 32 0b0000000000000000_00000000_00100001 = some .hufTree ∧
      decodeTableWord 32 0b0000000000000000_00000000_00100010 = some .hufCodes ∧
      decodeTableWord 32 0b0000000000000000_00000000_00100011 = some .hufEncode ∧
      decodeTableWord 32 0b0000000000000000_00000000_00100100 = some .hufDecode ∧
      decodeTableWord 32 0b0000000000000000_00000000_00110000 = some .lzwEncode ∧
      decodeTableWord 32 0b0000000000000000_00000000_00110001 = some .lzwDecode := by decide

theorem test_decode_transform :
    decodeTableWord 32 0b0000000000000000_00000000_01000000 = some .dctFwd ∧
      decodeTableWord 32 0b0000000000000000_00000000_01000001 = some .dctQuant ∧
      decodeTableWord 32 0b0000000000000000_00000000_01000010 = some .dctInv ∧
      decodeTableWord 32 0b0000000000000000_00000000_01000011 = some .dctBlock ∧
      decodeTableWord 32 0b0000000000000000_00000000_01000100 = some .dctFrame := by decide

/-- The illegal words of 95_test_vectors.md 2.1. -/
theorem test_decode_illegal :
    [0x00000100, 0x00000011, 0x00002111, 0x0000FF14, 0x00010000, 0x80000023, 0x00000015, 0x000000FF].map
      (decodeTableWord 32) = List.replicate 8 none := by decide

/-! ## One step of each command (95_test_vectors.md section 2) -/

/-- C1, C2: NOP; and an illegal word (2.1). -/
theorem test_nop :
    outcome (run 0x00 State.reset) = (0x2, 0, 0) ∧
      outcome (run 0x00 (run 0x22 State.reset)) = (0x2, 0, 0) ∧
      outcome (run 0x100 State.reset) = (0x1006, 0, 0) := by decide +kernel

/-- B26. -/
theorem test_bsClear :
    (run 0x10 (withAcc State.reset [true, false, true] [true, true] 1)).acc = { wbits := [], rbits := [], rpos := 0 } := by
  decide +kernel

/-- B24: the low four bits, bit 3 first. -/
theorem test_bsPut :
    (run 0x411 { State.reset with regs := { State.reset.regs with bsData := 0xFFFFFFF2 } }).acc.wbits =
      [false, false, true, false] := by decide +kernel

/-- B10. -/
theorem test_bsFlush :
    let t := run 0x12 (withAcc (ranges 0 0 0x300 4) tenBits [] 0)
    t.lmem = [(0x300, 0xB0), (0x301, 0x40)] ∧ outcome t = (0x2, 2, 10) ∧ t.regs.bsPad = 6 ∧ t.acc.wbits = [] := by
  decide +kernel

/-- B14, B11. -/
theorem test_bsFlush_errors :
    outcome (run 0x12 (ranges 0 0 262143 2)) = (0x1206, 0, 0) ∧
      outcome (run 0x12 (withAcc (ranges 0 0 0x300 1) tenBits [] 0)) = (0x1406, 0, 0) := by decide +kernel

/-- B15. -/
theorem test_bsLoad :
    let s := regions 0x300 0 0 [0xB0, 0x40]
    let t := run 0x13 { s with regs := { s.regs with bsPad := 6 } }
    t.acc.rbits = tenBits ∧ t.acc.rpos = 0 ∧ outcome t = (0x2, 0, 10) := by decide +kernel

/-- B22, B20. -/
theorem test_bsLoad_errors :
    let s := ranges 0 0 0 0
    outcome (run 0x13 (ranges 262144 131073 0 0)) = (0x1106, 0, 0) ∧
      outcome (run 0x13 { s with regs := { s.regs with bsPad := 3 } }) = (0x206, 0, 0) := by decide +kernel

/-- B16. -/
theorem test_bsGet :
    let t := run 0x414 (withAcc State.reset [] tenBits 0)
    t.regs.bsData = 0x0000000B ∧ t.acc.rpos = 4 := by decide +kernel

/-- B19: nothing is consumed. -/
theorem test_bsGet_truncated :
    let t := run 0x714 (withAcc State.reset [] tenBits 4)
    outcome t = (0x306, 0, 0) ∧ t.acc.rpos = 4 := by decide +kernel

/-- H10. -/
theorem test_hufFreq :
    ((run 0x20 (regions 0 0 0 text)).huf.freq.drop 0x61).take 5 = [4, 3, 2, 1, 0] := by decide +kernel

/-- H11 and the tree of 1.1. -/
theorem test_hufTree :
    let t := run 0x21 (run 0x20 (regions 0 0 0 text))
    t.huf.tree =
        some (.node (.leaf 0x61 4) (.node (.leaf 0x62 3) (.node (.leaf 0x64 1) (.leaf 0x63 2) 3) 6) 10) ∧
      readReg t .hufInfo = 0x80070004 := by decide +kernel

/-- H14. -/
theorem test_hufTree_empty : outcome (run 0x21 State.reset) = (0x106, 0, 0) := by decide +kernel

/-- H12: the views of the codes. -/
theorem test_hufCodes :
    let t := run 0x22 (run 0x21 (run 0x20 (regions 0 0 0 text)))
    let u := { t with regs := { t.regs with codeSel := 0x64 } }
    readReg t .hufInfo = 0xC0070004 ∧ readReg t .codeLen = 0 ∧ readReg u .codeLen = 3 ∧
      readReg u (.codeWord 0) = 0xC0000000 ∧ readReg u (.codeWord 7) = 0 := by decide +kernel

/-- H13. -/
theorem test_hufCodes_notReady : outcome (run 0x22 State.reset) = (0x1506, 0, 0) := by decide +kernel

/-- H1. -/
theorem test_hufEncode :
    let t := run 0x23 (regions 0 0x100 64 text)
    output t = bytes textArtifact ∧ outcome t = (0x2, 15, 19) := by decide +kernel

/-- H2; H21. -/
theorem test_hufEncode_single_overlap :
    output (run 0x23 (regions 0 0x100 64 [0x41, 0x41, 0x41])) = bytes [0x05, 0x01, 0x41, 0x00] ∧
      outcome (run 0x23 (ranges 0 4 2 4)) = (0x1306, 0, 0) := by decide +kernel

/-- D1. -/
theorem test_hufDecode :
    let t := run 0x24 (regions 0x100 0x200 64 textArtifact)
    output t = bytes text ∧ outcome t = (0x2, 10, 19) ∧ readReg t .hufInfo = 0x80070004 := by decide +kernel

/-- D4, D9, D12, D15. -/
theorem test_hufDecode_corners :
    output (run 0x24 (regions 0 0x200 64 [0x06, 0x00, 0x01, 0x61, 0x01, 0x62, 0x43])) = bytes [0x61, 0x62] ∧
      outcome (run 0x24 (regions 0 0x200 1 [0x00, 0x00, 0x01, 0x41])) = (0x306, 0, 0) ∧
      outcome (run 0x24 (regions 0 0x200 1 [0x03, 0x00, 0x01, 0x61, 0x01, 0x62])) = (0x206, 0, 0) ∧
      outcome (run 0x24 (regions 0 0x200 1 [0x07, 0x01, 0x41, 0x80])) = (0x206, 0, 0) := by decide +kernel

/-- L5. -/
theorem test_lzwEncode :
    let t := run 0x30 (regions 0 0x40 64 [0x61, 0x62, 0x61, 0x62, 0x61, 0x62, 0x61, 0x62])
    output t = bytes [0x00, 0x61, 0x00, 0x62, 0x01, 0x00, 0x01, 0x02, 0x00, 0x62] ∧ outcome t = (0x2, 10, 80) ∧
      readReg t .lzwNext = 260 := by decide +kernel

/-- L2, L30. -/
theorem test_lzwEncode_corners :
    readReg (run 0x30 (regions 0 0x40 0 [])) .lzwNext = 256 ∧
      outcome (run 0x30 (regions 0 0x40 3 [0x61, 0x62])) = (0x1406, 0, 0) := by decide +kernel

/-- L11: the self-referential code. -/
theorem test_lzwDecode :
    let t := run 0x31 (regions 0 0x40 64 [0x00, 0x41, 0x00, 0x42, 0x01, 0x00, 0x01, 0x02])
    output t = bytes [0x41, 0x42, 0x41, 0x42, 0x41, 0x42, 0x41] ∧ outcome t = (0x2, 7, 64) ∧
      readReg t .lzwNext = 259 := by decide +kernel

/-- E3-E6, L15. -/
theorem test_lzwDecode_errors :
    outcome (run 0x31 (ranges 262143 2 262143 2)) = (0x1206, 0, 0) ∧
      outcome (run 0x31 (ranges 0 3 2 4)) = (0x1306, 0, 0) ∧
      outcome (run 0x31 (regions 0 0x40 0 [0x00, 0x61, 0x00])) = (0x306, 0, 0) ∧
      outcome (run 0x31 (regions 0 0x40 0 [0x00, 0x61, 0x01, 0x2C])) = (0x406, 0, 0) ∧
      outcome (run 0x31 (regions 0 0x40 4 [0x01, 0x00])) = (0x406, 0, 0) := by decide +kernel

/-- T29: one byte read 64 times, with T3's coefficients. -/
theorem test_dctFwd :
    (run 0x40 (regions 0x10 0 0 [100])).coef = (BitVec.ofInt 32 204827) :: List.replicate 63 (0 : Word) := by
  decide +kernel

/-- T28. -/
theorem test_dctFwd_range : outcome (run 0x40 (withBlock (ranges 262081 0 0 0) 8 1)) = (0x1206, 0, 0) := by
  decide +kernel

/-- T11: the limit itself is kept, the most negative word is large. -/
theorem test_dctQuant :
    let s := withLimit State.reset 2560
    let t := run 0x41
      { s with
        coef := [0x80000000, BitVec.ofInt 32 2560, BitVec.ofInt 32 (-2559), BitVec.ofInt 32 (-2560)] ++ List.replicate 60 0 }
    t.coef.take 4 = [0x80000000, BitVec.ofInt 32 2560, 0, BitVec.ofInt 32 (-2560)] ∧
      (t.res.zeroCount, t.res.keptCount, t.res.blockCount) = (61, 3, 1) := by decide +kernel

/-- T24. -/
theorem test_dctInv :
    let t := run 0x42 (withBlock (oneCoef 1 25600) 8 1)
    t.readMem 56 8 = bytes [17, 15, 10, 3, 0, 0, 0, 0] ∧ outcome t = (0x2, 64, 512) := by decide +kernel

/-- T29a: the later of two samples with one address stays; T22, T23 clip. -/
theorem test_dctInv_corners :
    (run 0x42 (oneCoef 1 25600)).readByte 0 = 0 ∧ (run 0x42 (oneCoef 0 2147483647)).readByte 0 = 255 ∧
      (run 0x42 (oneCoef 0 (-2147483648))).readByte 0 = 0 := by decide +kernel

/-- T16. -/
theorem test_dctBlock :
    let s := regions 0 0x100 0 ((List.range 64).map fun i => 32 * (i % 8))
    let t := run 0x43 (withLimit (withBlock s 8 1) 2560)
    t.readMem 0x138 8 = bytes [0, 32, 65, 95, 129, 159, 192, 224] ∧
      (t.res.zeroCount, t.res.keptCount, t.res.blockCount) = (60, 4, 1) := by decide +kernel

/-- T30: filtered samples of rows 0 and 7, the edge samples beside and below them, and the counts. -/
theorem test_dctFrame :
    let s := regions 0 0x100 0 ((List.range 90).map fun j => (20 * (j % 10) + 3 * (j / 10)) % 256)
    let t := run 0x44 (withLimit (withFrame s 10 9 1) 10000)
    t.readMem 0x106 4 = bytes [125, 134, 160, 180] ∧ t.readMem 0x14D 4 = bytes [153, 181, 201, 24] ∧
      (t.res.zeroCount, t.res.keptCount, t.res.blockCount) = (61, 3, 1) ∧ outcome t = (0x2, 90, 720) := by decide +kernel

/-- E2, T34, T33. -/
theorem test_dctFrame_corners :
    outcome (run 0x44 (ranges 0xFFFFFFFF 0 0 0)) = (0x1106, 0, 0) ∧
      outcome (run 0x44 (withFrame (ranges 0 0 1 0) 8 8 1)) = (0x1306, 0, 0) ∧
      outcome (run 0x44 (withFrame (ranges 0 0 0 0) 0 0 1)) = (0x2, 0, 0) := by decide +kernel

/-! ## The host port and the two agents -/

/-- W1-W4, W6-W8. -/
theorem test_window :
    let s := State.reset.hostWrite 0x80000 .w32 0x11223344
    s.lmem = [(0, 0x44), (1, 0x33), (2, 0x22), (3, 0x11)] ∧ (s.hostRead 0x80000 .w8).rdata = 0x44 ∧
      (s.hostRead 0x80002 .w16).rdata = 0x1122 ∧ (s.hostRead 0x80001 .w16).rdata = 0 ∧
      ((run 0x00 s).hostRead 0x00008 .w8).rdata = 0 ∧ (s.hostRead 0x00000 .w32).rdata = 0x46430001 ∧
      s.hostWrite 0x02000 .w32 7 = s := by decide +kernel

/-- C3-C8. -/
theorem test_status_and_irq :
    let busy := State.reset.hostWrite 0x0000C .w32 0
    let hit := busy.hostWrite 0x00010 .w32 5
    statusWord busy = 0x1 ∧ statusWord ((run 0x22 State.reset).hostWrite 0x00008 .w32 0xE) = 0x1500 ∧
      irq ((run 0x00 State.reset).hostWrite 0x00004 .w32 2) = true ∧ statusWord hit = 0x9 ∧ hit.regs.srcAddr = 0 ∧
      statusWord (run 0x00 (run 0x00 hit)) = 0xA ∧ ctrlWord (busy.hostWrite 0x00004 .w32 3) = 0 := by decide +kernel

/-- Program P6. -/
def launchWithoutWaiting : HostRun :=
  HostRun.start State.reset
    [.wrb 0 (bytes [0x61, 0x61, 0x62]), .wr .srcAddr 0, .wr .srcLen 3, .launch .hufFreq, .launch .hufTree, .wait,
      .rd .status, .rd .hufInfo]

/-- The first six moves of P6: the source, the registers, the first launch. -/
def sixMoves : List Turn := List.replicate 6 .host

/-- The last three moves of P6. -/
def threeMoves : List Turn := List.replicate 3 .host

/-- How a run of P6 ended: whether the script is done, STATUS, CMD, HUF_INFO. -/
def ending (ts : List Turn) : Option (Bool × Word × Word × Word) :=
  (HostRun.run ts launchWithoutWaiting).map fun h => (h.ended, statusWord h.core, h.core.cmd, readReg h.core .hufInfo)

/-- P6, the good outcome: HUF_FREQ completes before the second launch. -/
theorem test_launch_after_completion :
    ending (sixMoves ++ [Turn.engine, Turn.host, Turn.engine] ++ threeMoves) = some (true, 0x2, 0x21, 0x80030002) := by
  decide +kernel

/-- P6, the bad outcome: the second launch is dropped. -/
theorem test_launch_while_busy :
    ending (sixMoves ++ [Turn.host, Turn.engine] ++ threeMoves) = some (true, 0xA, 0x20, 0) := by decide +kernel

/-- R160: a bit count of 257, an LMEM address without an offset and an unknown label are no statements of a script. -/
theorem test_broken_script :
    (HostRun.start State.reset [.launch (.bsPut 257)]).hostTurn = none ∧
      (HostRun.start State.reset [.rdb 0x80000 1]).hostTurn = none ∧
      (HostRun.start State.reset [.wrb 0x7FFFF [0]]).hostTurn.isSome = true ∧
      (HostRun.start State.reset [.goto "error"]).hostTurn = none := by decide +kernel

/-! ## Witnesses: for each statement with hypotheses, states and operands that meet them, one for each clause -/

/-- A state in which the word `w` is pending. -/
def pending (w : Nat) (s : State) : State := s.launch (BitVec.ofNat 32 w)

/-- A tree of depth `n` with 2^n leaves: 511 nodes at depth 8, 1023 at depth 9. -/
def fullTree : Nat → HufTree
  | 0 => .leaf 0 0
  | n + 1 => .node (fullTree n) (fullTree n) 0

theorem witness_DecodeAndEncodeAgree :
    Instr.wf (.bsPut 1) = true ∧ Instr.wf (.bsGet 32) = true ∧ decode 0x00002011 = .ok (.bsPut 32) :=
  ⟨by decide, by decide, rfl⟩

/-- One illegal word of each kind, pending with an empty schedule and with an engine turn. -/
theorem witness_IllegalWordsCompleteWithIllegalCommand :
    ∀ w ∈ [0x00010000, 0x00000015, 0x00000100, 0x00000011, 0x00002111],
      (pending w State.reset).inputs = [] ∧ (pending w State.reset).pending = some (BitVec.ofNat 32 w) ∧
        ({ pending w State.reset with inputs := [.engine] } : State).inputs = .engine :: [] ∧
        decodeTableWord 32 w = none := by decide +kernel

/-- A pending word with an empty schedule and with an engine turn, an idle machine with both, a read, a write, a level. -/
theorem witness_StepRunsDecodedCommand :
    ((pending 0x10 State.reset).pending = some 0x10 ∧ decode 0x10 = .ok .bsClear ∧
        (pending 0x10 State.reset).inputs = []) ∧
      ({ pending 0x10 State.reset with inputs := [.engine] } : State).inputs = .engine :: [] ∧
      (State.reset.pending = none ∧ State.reset.inputs = []) ∧
      ({ State.reset with inputs := [.engine] } : State).inputs = .engine :: [] ∧
      ({ State.reset with inputs := [.access (.read 0 .w32)] } : State).inputs = .access (.read 0 .w32) :: [] ∧
      ({ State.reset with inputs := [.access (.write 0x10 .w32 5)] } : State).inputs =
        .access (.write 0x10 .w32 5) :: [] ∧
      ({ State.reset with inputs := [.reset false] } : State).inputs = .reset false :: [] :=
  ⟨⟨rfl, rfl, rfl⟩, rfl, ⟨rfl, rfl⟩, rfl, rfl, rfl, rfl⟩

theorem witness_LaunchEffects :
    let s : State := { State.reset with inputs := [.access (.write 0x0000C .w32 0x23)] }
    s.inputs = .access (.write 0x0000C .w32 0x23) :: [] ∧ s.rstN = true ∧ s.busy = false := by decide

/-- NOP meets the premise of every clause. -/
theorem witness_CommandFrame :
    exec .nop State.reset = .next (State.reset.completeOk 0 0) ∧ (∀ n, Instr.nop ≠ .bsGet n) ∧ Instr.nop ≠ .bsFlush ∧
      Instr.isBitstream .nop = false ∧ Instr.nop ∉ [Instr.dctFwd, .dctQuant, .dctInv, .dctBlock, .dctFrame] ∧
      Instr.nop ∉ [Instr.lzwEncode, .lzwDecode, .hufFreq, .hufTree, .hufCodes, .hufEncode, .hufDecode] :=
  ⟨rfl, fun _ h => Instr.noConfusion h, by decide, rfl, by decide, by decide⟩

/-- The bytes just below and just above a flush's destination. -/
theorem witness_StoresStayInDestination :
    (∃ t, exec .bsFlush (withAcc (ranges 0 0 0x300 2) tenBits [] 0) = .next t) ∧
      0x2FF ∉ State.destAddrs (withAcc (ranges 0 0 0x300 2) tenBits [] 0) .bsFlush ∧
      0x302 ∉ State.destAddrs (withAcc (ranges 0 0 0x300 2) tenBits [] 0) .bsFlush :=
  ⟨⟨_, rfl⟩, by decide +kernel, by decide +kernel⟩

theorem witness_PlainErrorsArePrecise :
    ∃ t, exec .hufCodes State.reset = .next t ∧ State.reset.status.err = false ∧ t.status.err = true ∧
      Instr.hufCodes ∉ [Instr.hufTree, .hufEncode, .hufDecode, .lzwEncode, .lzwDecode] :=
  ⟨_, rfl, rfl, rfl, by decide⟩

theorem witness_InterruptFollowsDone :
    (∃ t, exec .nop State.reset = .next t) ∧ (run 0x00 State.reset).rstN = true ∧
      (run 0x00 State.reset).status.done = true ∧ (run 0x00 State.reset).busy = false :=
  ⟨⟨_, rfl⟩, by decide, by decide, by decide⟩

/-- For the statements about an idle machine out of reset: registers, window bounds, ill-placed accesses. -/
theorem witness_idle_host_port :
    State.reset.rstN = true ∧ State.reset.busy = false ∧ State.reset.coef.length = 64 ∧
      (∀ p ∈ [(0x80000, Width.w32), (0xBFFFC, .w32), (0xBFFFE, .w16), (0xBFFFF, .w8)],
        0x80000 ≤ p.1 ∧ p.1 % p.2.bytes = 0 ∧ p.1 - 0x80000 + p.2.bytes ≤ State.reset.params.lmemSize) ∧
      (0x7FFFC % 4 = 0 ∧ 0x7FFFE % 4 ≠ 0 ∧ Width.w8 ≠ .w32) ∧ 0x80001 % Width.w16.bytes ≠ 0 ∧
      State.reset.params.lmemSize < 0xC0000 - 0x80000 + Width.w8.bytes := by decide +kernel

/-- For the statements about a busy machine: both register sets, both sides of CTRL and STATUS, both values of bit 0. -/
theorem witness_busy_host_port :
    (pending 0x23 State.reset).rstN = true ∧ (pending 0x23 State.reset).busy = true ∧
      Reg.readableBusy .bsPad = true ∧ Reg.readableBusy (.coef 63) = false ∧
      (0x00003#20).toNat < 0x004 ∧ 0x00C ≤ (0x0000C#20).toNat ∧
      (0xBFFFC % Width.w32.bytes = 0 ∧
        0xBFFFC - 0x80000 + Width.w32.bytes ≤ (pending 0x23 State.reset).params.lmemSize) ∧ (1#32).getLsbD 0 = true ∧ (2#32).getLsbD 0 = false := by
  decide +kernel

/-- A tree of 511 nodes, and the selected code of a codebook with a code of 255 bits. -/
theorem witness_HuffmanViewRegisters :
    (fullTree 8).nodes ≤ 511 ∧ (List.replicate 255 true).length ≤ 255 ∧
      CodeBook.find [(0, List.replicate 255 true)] State.reset.regs.codeSel = some (List.replicate 255 true) := by
  decide +kernel

theorem witness_SoftResetClearsAllButLmem :
    State.reset.rstN = true ∧ (3#32).getLsbD 0 = true ∧ State.reset.pending = none ∧ Reg.cmd ≠ .id := by decide

/-- For the clauses of RegistersReadBackTheirBits: a CTRL value with bit 0 clear, a read-only register, the unmapped offsets beside the mapped ones and the last one below the LMEM window. -/
theorem witness_RegistersReadBackTheirBits :
    (2#32).getLsbD 0 = false ∧
      (Reg.codeWord 7 ∉ [Reg.ctrl, .status, .cmd] ∧ Reg.codeWord 7 ∉ operandMap.map (fun p => p.2.1) ∧
        ∀ i, Reg.codeWord 7 ≠ .coef i) ∧
      ∀ off ∈ [0x05C, 0x094, 0xFFC, 0x1100, 0x1FFC, 0x2400, 0x7FFFC], off < 0x80000 ∧ off % 4 = 0 ∧
        ∀ r : Reg, r.offset ≠ off := by
  refine ⟨by decide, ⟨by decide, by decide, fun _ h => Reg.noConfusion h⟩, fun off h => ⟨?_, ?_, fun r => ?_⟩⟩
  · revert off; decide
  · revert off; decide
  · simp only [List.mem_cons, List.not_mem_nil, or_false] at h
    cases r <;> simp only [Reg.offset] <;> omega

/-- Destinations that run one byte past LMEM and destinations that fit, of a flush, a block and a frame; an illegal word. -/
theorem witness_AbortSpoilsOnlyTheDestination :
    let s := ranges 0 0 262143 2
    let u := ranges 0 0 262143 1
    ((pending 0x12 s).rstN = true ∧ (pending 0x12 s).pending = some 0x12 ∧ decodeTableWord 32 0x12 = some .bsFlush) ∧
      (262143 ∈ s.destAddrs .bsFlush ∧ s.params.lmemSize < s.dst + s.destSize .bsFlush) ∧
      (262143 ∈ u.destAddrs .bsFlush ∧ 262142 ∉ u.destAddrs .bsFlush ∧
        u.dst + u.destSize .bsFlush ≤ u.params.lmemSize) ∧
      (262143 ∈ s.destAddrs .dctInv ∧ s.dst + s.destSize .dctInv ≤ s.params.lmemSize ∧
        s.params.lmemSize < (withBlock s 0 1).dst + (withBlock s 0 1).destSize .dctBlock) ∧
      (262143 ∈ (withFrame s 2 1 1).destAddrs .dctFrame ∧
        s.params.lmemSize < (withFrame s 2 1 1).dst + (withFrame s 2 1 1).destSize .dctFrame) ∧
      (pending 0x15 State.reset).pending = some 0x15 ∧ decodeTableWord 32 0x15 = none := by decide +kernel

/-- A machine with a pending NOP meets the invariant and steps. -/
theorem witness_StepKeepsInvariant :
    (pending 0x00 State.reset).Inv ∧ ∃ t, step (pending 0x00 State.reset) = .next t where
  left :=
    { params := by decide
      lmem := ⟨List.Pairwise.nil, fun _ h => absurd h List.not_mem_nil⟩
      coef := by decide +kernel
      acc := ⟨by decide, by decide, by decide⟩
      huf := ⟨by decide +kernel, by rintro _ ⟨⟩, by rintro _ ⟨⟩⟩
      engine := ⟨.inr rfl, fun _ => ⟨rfl, rfl, rfl⟩⟩
      errcode := .inl rfl
      lzwNext := .inl rfl
      held := fun h => Bool.noConfusion (h : true = false) }
  right := ⟨_, rfl⟩

/-- A capacity of 8 bits: 7 bits and one more fit, 8 and one more do not. -/
theorem witness_BsPutAppends :
    let s : State := { withAcc State.reset (tenBits.take 7) [] 0 with params := { lmemSize := 1, bsCapBits := 8 } }
    let u : State := { withAcc State.reset (tenBits.take 8) [] 0 with params := { lmemSize := 1, bsCapBits := 8 } }
    s.acc.wbits.length + 1 ≤ s.params.bsCapBits ∧ u.params.bsCapBits < u.acc.wbits.length + 1 ∧
      State.reset.acc.wbits.length + 32 ≤ State.reset.params.bsCapBits := by decide

/-- The destination one byte past LMEM, one byte too small, of the exact size. -/
theorem witness_BsFlushWritesPaddedBytes :
    let s := withAcc (ranges 0 0 262143 2) tenBits [] 0
    let u := withAcc (ranges 0 0 262143 1) tenBits [] 0
    let v := withAcc (ranges 0 0 262142 2) tenBits [] 0
    s.params.lmemSize < s.dst + s.dstCap ∧
      (u.dst + u.dstCap ≤ u.params.lmemSize ∧ u.dstCap < (u.acc.wbits.length + 7) / 8) ∧
      v.dst + v.dstCap ≤ v.params.lmemSize ∧ (v.acc.wbits.length + 7) / 8 ≤ v.dstCap := by decide +kernel

/-- The largest length and one more; the last byte and one more; no bytes with and without padding. -/
theorem witness_BsLoadUnpacks :
    (ranges 0 131073 0 0).params.bsCapBits < 8 * (ranges 0 131073 0 0).srcLen ∧
      8 * (ranges 0 131072 0 0).srcLen ≤ (ranges 0 131072 0 0).params.bsCapBits ∧
      (ranges 262144 1 0 0).params.lmemSize < (ranges 262144 1 0 0).src + (ranges 262144 1 0 0).srcLen ∧
      (ranges 262143 1 0 0).src + (ranges 262143 1 0 0).srcLen ≤ (ranges 262143 1 0 0).params.lmemSize ∧
      (ranges 262143 1 0 0).srcLen ≠ 0 ∧
      ((ranges 0 0 0 0).srcLen = 0 ∧ (ranges 0 0 0 0).regs.bsPad = 0) ∧
      ({ (ranges 0 0 0 0).regs with bsPad := 7 } : OperandRegs).bsPad ≠ 0 := by decide +kernel

/-- The last bit, and one more. -/
theorem witness_BsGetReads :
    (withAcc State.reset [] tenBits 9).acc.rpos + 1 ≤ (withAcc State.reset [] tenBits 9).acc.rbits.length ∧
      (withAcc State.reset [] tenBits 10).acc.rbits.length < (withAcc State.reset [] tenBits 10).acc.rpos + 1 := by
  decide

theorem witness_AccumulatorIndependence :
    (∃ t, exec (.bsPut 32) State.reset = .next t) ∧ (∃ t, exec (.bsGet 1) State.reset = .next t) ∧
      (∃ t, exec .hufCodes State.reset = .next t) ∧ Instr.isBitstream .hufCodes = false :=
  ⟨⟨_, rfl⟩, ⟨_, rfl⟩, ⟨_, rfl⟩, rfl⟩

/-- Two bit sequences with one packing are one bit sequence. -/
theorem witness_PackAndUnpackAreInverse :
    packBytes tenBits = [0xB0, 0x40] ∧ padCount tenBits.length = 6 := by decide +kernel

/-- One bit and then 32 bits, flushed into five bytes. -/
theorem witness_BitstreamRoundTrip :
    let s := ranges 0 0 0x300 5
    s.params.legal = true ∧ s.acc.wbits = [] ∧ (∀ p ∈ [(1, (1 : Word)), (32, 0xDEADBEEF)], 1 ≤ p.1 ∧ p.1 ≤ 32) ∧
      ((putAll [(1, 1), (32, 0xDEADBEEF)] s).bind fun t => t.runCommand .bsFlush).isSome = true := by decide +kernel

/-- A source at the end of LMEM and one past it. -/
theorem witness_HufFreqCounts :
    (ranges 262143 2 0 0).params.lmemSize < (ranges 262143 2 0 0).src + (ranges 262143 2 0 0).srcLen ∧
      (ranges 262142 2 0 0).src + (ranges 262142 2 0 0).srcLen ≤ (ranges 262142 2 0 0).params.lmemSize := by
  decide +kernel

theorem witness_HufTreeBuildsOrFails :
    (∀ f ∈ State.reset.huf.freq, f = 0) ∧
      ∃ f ∈ ({ State.reset.huf with freq := (1 : Word) :: List.replicate 255 0 } : HufStore).freq, f ≠ 0 :=
  ⟨fun _ h => List.eq_of_mem_replicate h, 1, List.mem_cons_self, by decide⟩

/-- For BuiltTreeCarriesTheCounts and KraftEquality: a table of 256 entries, two of them not 0, with codes of two counts. -/
theorem witness_built_tree :
    (freqCounts [0x61, 0x62, 0x61]).length = 256 ∧ 2 ≤ (freqCounts [0x61, 0x62, 0x61]).countP (fun f => f != 0) ∧
      buildTree (freqCounts [0x61, 0x62, 0x61]) = some (.node (.leaf 0x62 1) (.leaf 0x61 2) 3) ∧
      codesOf (.node (.leaf 0x62 1) (.leaf 0x61 2) 3) = [(0x62, [false]), (0x61, [true])] ∧
      (freqCounts [0x61, 0x62, 0x61]).getD 0x62 0 < (freqCounts [0x61, 0x62, 0x61]).getD 0x61 0 := by decide +kernel

/-- The queue R248 starts from, and one turn of its loop. -/
theorem test_merge_turn :
    startQueue (freqCounts [0x61, 0x62, 0x61]) =
        [{ freq := 2, arrival := 0, tree := .leaf 0x61 2 }, { freq := 1, arrival := 1, tree := .leaf 0x62 1 }] ∧
      MergeTurn 2 (startQueue (freqCounts [0x61, 0x62, 0x61]))
        [{ freq := 3, arrival := 2, tree := .node (.leaf 0x62 1) (.leaf 0x61 2) 3 }] := by
  have h : startQueue (freqCounts [0x61, 0x62, 0x61]) =
      [{ freq := 2, arrival := 0, tree := .leaf 0x61 2 }, { freq := 1, arrival := 1, tree := .leaf 0x62 1 }] := by
    decide +kernel
  refine ⟨h, ?_⟩
  rw [h]
  exact ⟨_, _, [], List.Perm.swap _ _ _, by simp, by simp, List.Perm.refl _⟩

/-- A symbol on two leaves: the first in pre-order has the code, the other leaf's path is another one. -/
theorem witness_HufCodesAreTreePaths :
    let t : HufTree := .node (.leaf 5 0) (.node (.leaf 6 0) (.leaf 5 0) 0) 0
    State.reset.huf.tree = none ∧ (run 0x21 (run 0x20 (regions 0 0 0 text))).huf.tree.isSome = true ∧
      CodeBook.find (codesOf t) 5 = some [false] ∧ t.IsPath [true, true] 5 ∧ [true, true] ≠ [false] := by
  refine ⟨by decide, by decide +kernel, by decide, ⟨⟨0, rfl⟩, fun k h => ?_⟩, by decide⟩
  match k, h with
  | 0, _ => exact ⟨_, _, _, rfl⟩
  | 1, _ => exact ⟨_, _, _, rfl⟩

/-- Two codes of a tree, and both commands that produce a codebook. -/
theorem witness_CodesArePrefixFree :
    codesOf (.node (.leaf 0x62 1) (.leaf 0x61 2) 3) = [(0x62, [false]), (0x61, [true])] ∧
      (run 0x22 (run 0x21 (run 0x20 (regions 0 0x100 64 text)))).huf.tree ≠ none ∧
      (run 0x22 (run 0x21 (run 0x20 (regions 0 0x100 64 text)))).huf.codes.isSome = true ∧
      (run 0x23 (regions 0 0x100 64 text)).huf.codes.isSome = true ∧ (regions 0 0x100 64 text).codecCheck = none := by
  decide +kernel

/-- The largest tree that parses, and one that does not. -/
theorem witness_SerializedTreeParsesBack : (fullTree 8).nodes ≤ 511 ∧ 511 < (fullTree 9).nodes := by decide +kernel

/-- For the codec statements: regions past LMEM, regions that overlap in one byte, regions that touch, an empty source. -/
theorem witness_codec_regions :
    (ranges 262143 2 0 4).params.lmemSize < (ranges 262143 2 0 4).src + (ranges 262143 2 0 4).srcLen ∧
      (ranges 0 4 262143 2).params.lmemSize < (ranges 0 4 262143 2).dst + (ranges 0 4 262143 2).dstCap ∧
      ((ranges 0 4 3 4).src + (ranges 0 4 3 4).srcLen ≤ (ranges 0 4 3 4).params.lmemSize ∧
        (ranges 0 4 3 4).dst + (ranges 0 4 3 4).dstCap ≤ (ranges 0 4 3 4).params.lmemSize ∧
        ¬(ranges 0 4 3 4).RegionsOk) ∧
      (ranges 0 4 4 4).RegionsOk ∧ (ranges 0 0 0 4).RegionsOk ∧ (ranges 0 0 0 4).srcLen = 0 := by
  unfold State.RegionsOk
  decide +kernel

/-- HUF_ENCODE: a destination of the artifact's size and one of a byte less. -/
theorem witness_HufEncodeWritesTheArtifact :
    (regions 0 0x100 15 text).RegionsOk ∧ (regions 0 0x100 15 text).srcLen ≠ 0 ∧ textArtifact.length ≤ 15 ∧
      14 < textArtifact.length ∧ (regions 0 0x100 15 text).source = bytes text := by
  unfold State.RegionsOk
  decide +kernel

/-- HUF_DECODE: a bad artifact, and a good one of three symbols. -/
theorem witness_HufDecodeWritesTheSymbols :
    (regions 0 0x100 3 [0x05, 0x01, 0x41, 0x00]).RegionsOk ∧
      (regions 0 0x100 3 [0x05, 0x01, 0x41, 0x00]).source = bytes [0x05, 0x01, 0x41, 0x00] ∧
      decodeArtifact (bytes [0x05, 0x01, 0x41, 0x00]) = .ok (.leaf 0x41 0, 3, bytes [0x41, 0x41, 0x41]) ∧
      (regions 0 0x100 3 [0x08]).source = bytes [0x08] ∧ decodeArtifact (bytes [0x08]) = .error .corruptStream := by
  unfold State.RegionsOk
  refine ⟨by decide +kernel, by decide +kernel, by rfl, by decide +kernel, by rfl⟩

/-- Padding 8; a bad tree of either kind; a tree without data under padding 7 and 0; data that walks and data that does not; a 1 under a leaf; a bit cut inside a code after a whole code. -/
theorem witness_MalformedArtifactErrors :
    let t : HufTree := .node (.leaf 0 0) (.node (.leaf 1 0) (.leaf 2 0) 0) 0
    (7 < (8 : Byte).toNat ∧ (7 : Byte).toNat ≤ 7 ∧ (7 : Byte) ≠ 0) ∧
      (treeError 1 0 (bytes [0x02]) = some .corruptStream ∧ treeError 1 0 (bytes [0x01]) = some .truncatedStream ∧
        treeError 1 0 (bytes [0x01, 0x41]) = none ∧ treeError 1 0 (List.replicate 511 0) = some .truncatedStream ∧
        treeError 1 0 (List.replicate 512 0) = some .corruptStream) ∧
      parseTree (bytes [0x01, 0x41]) = .ok (.leaf 0x41 0, []) ∧
      (parseTree (bytes [0x01, 0x41, 0x80]) = .ok (.leaf 0x41 0, [0x80]) ∧ unpack [0x80] 7 = some [true] ∧
        walk (.leaf 0x41 0) [true] = .error .corruptStream ∧ unpack [0x00] 7 = some [false] ∧
        walk (.leaf 0x41 0) [false] = .ok [0x41]) ∧
      walk t [false] = .ok [0] ∧ t.CutInside [true] ∧ walk t [false, true] = .error .corruptStream := by
  refine ⟨by decide, ⟨by decide, by decide, by decide, by decide +kernel, by decide +kernel⟩, by rfl,
    ⟨by rfl, by decide, by rfl, by decide, by rfl⟩, by rfl, ⟨by decide, fun k h0 h1 => ?_⟩, by rfl⟩
  obtain rfl : k = 1 := by simp only [List.length_cons, List.length_nil] at h1; omega
  exact ⟨_, _, _, rfl⟩

/-- What HUF_ENCODE wrote, as the source of HUF_DECODE. -/
theorem witness_HuffmanRoundTrip :
    let s := pending 0x23 (regions 0 0x100 64 [0x61, 0x62])
    ∃ t u : State, exec .hufEncode s = .next t ∧
      s.status.err = false ∧ t.status.err = false ∧ u.RegionsOk ∧
      u.src = s.dst ∧ u.srcLen = t.res.outLen.toNat ∧
      s.srcLen ≤ u.dstCap ∧ ∀ a, u.readByte a = t.readByte a :=
  let t := (run 0x23 (regions 0 0x100 64 [0x61, 0x62]))
  ⟨t, { t with regs := { t.regs with srcAddr := 0x100, srcLen := 7, dstAddr := 0x200, dstCap := 2 } }, by rfl,
    by decide +kernel, by decide +kernel, by unfold State.RegionsOk; decide +kernel, by decide +kernel,
    by decide +kernel, by decide +kernel, fun _ => rfl⟩

/-- Nine copies of one byte, and their artifact of five bytes. -/
theorem witness_SingleSymbolRoundTrip :
    (regions 0 0x100 5 (List.replicate 9 0x41)).RegionsOk ∧
      (regions 0 0x100 5 (List.replicate 9 0x41)).source = List.replicate 9 0x41 ∧
      3 + (9 + 7) / 8 ≤ (regions 0 0x100 5 (List.replicate 9 0x41)).dstCap ∧
      (regions 0x100 0x200 9 [0x07, 0x01, 0x41, 0x00, 0x00]).RegionsOk ∧
      (regions 0x100 0x200 9 [0x07, 0x01, 0x41, 0x00, 0x00]).source =
        [BitVec.ofNat 8 ((8 - 9 % 8) % 8), 0x01, 0x41] ++ List.replicate ((9 + 7) / 8) 0x00 ∧
      9 ≤ (regions 0x100 0x200 9 [0x07, 0x01, 0x41, 0x00, 0x00]).dstCap := by
  unfold State.RegionsOk
  decide +kernel

/-- LZW_ENCODE: two codes, into four bytes and into three. -/
theorem witness_LzwEncodeWritesTheCodes :
    (regions 0 0x100 4 [0x61, 0x62]).RegionsOk ∧ (regions 0 0x100 4 [0x61, 0x62]).source = bytes [0x61, 0x62] ∧
      lzwEncode (bytes [0x61, 0x62]) = .ok ([97, 98], 257) ∧
      2 * [97, 98].length ≤ (regions 0 0x100 4 [0x61, 0x62]).dstCap ∧
      (regions 0 0x100 3 [0x61, 0x62]).dstCap < 2 * [97, 98].length := by
  unfold State.RegionsOk
  refine ⟨by decide +kernel, by decide +kernel, by rfl, by decide +kernel, by decide +kernel⟩

/-- The reset state with a source at 0, no destination. -/
def withSource (y : List Byte) : State :=
  State.writeMem
    { State.reset with regs := { State.reset.regs with srcLen := BitVec.ofNat 32 y.length } } 0 y

theorem withSource_spec (y : List Byte) (h : y.length ≤ 262144) :
    (withSource y).RegionsOk ∧ (withSource y).readMem (withSource y).src (withSource y).srcLen = y := by
  have hl : (withSource y).srcLen = y.length := by
    show (BitVec.ofNat 32 y.length).toNat = y.length
    rw [BitVec.toNat_ofNat]
    exact Nat.mod_eq_of_lt (by omega)
  have hs : (withSource y).src = 0 := rfl
  have hp : (withSource y).params.lmemSize = 262144 := rfl
  refine ⟨⟨?_, ?_, fun hc => absurd hc.2.1 (Nat.lt_irrefl 0)⟩, ?_⟩
  · rw [hs, hl, hp]
    omega
  · rw [hp]
    exact (by decide : 0 + 0 ≤ 262144)
  · rw [hs, hl]
    exact State.readMem_writeMem_self _ 0 y

/-- LZW_ENCODE: a source that fills the dictionary (L31). -/
theorem witness_lzwEncode_full :
    (withSource fillSource).RegionsOk ∧
      lzwEncode ((withSource fillSource).readMem (withSource fillSource).src (withSource fillSource).srcLen) =
        .error .unsupportedAlphabetSize := by
  have h := withSource_spec fillSource (fillSource_length_le.trans (by decide))
  rw [h.2]
  exact ⟨h.1, lzwEncode_fillSource⟩

/-- LZW_DECODE: an odd length, a bad code, and three bytes out of two codes. -/
theorem witness_LzwDecodeWritesTheSymbols :
    (ranges 0 3 0x100 3).RegionsOk ∧ (ranges 0 3 0x100 3).srcLen % 2 = 1 ∧
      (regions 0 0x100 3 [0x00, 0x61, 0x01, 0x00]).RegionsOk ∧
      (regions 0 0x100 3 [0x00, 0x61, 0x01, 0x00]).srcLen = 2 * [97, 256].length ∧
      (∀ k < 2, [97, 256].getD k 0 =
        256 * ((regions 0 0x100 3 [0x00, 0x61, 0x01, 0x00]).readByte (2 * k)).toNat +
          ((regions 0 0x100 3 [0x00, 0x61, 0x01, 0x00]).readByte (2 * k + 1)).toNat) ∧
      lzwDecode [97, 256] = .ok (bytes [0x61, 0x61, 0x61], 257) ∧ lzwDecode [97, 257] = .error .invalidCode := by
  unfold State.RegionsOk
  refine ⟨by decide +kernel, by decide +kernel, by decide +kernel, by decide +kernel, by decide +kernel, by rfl,
    by rfl⟩

/-- One code; five codes, so that the clauses about two parts and two entries have an instance (L5). -/
theorem witness_LzwCodeBounds :
    (bytes [0x61] ≠ [] ∧ lzwEncode (bytes [0x61]) = .ok ([97], 256)) ∧
      lzwEncode (bytes [0x61, 0x62, 0x61, 0x62, 0x61, 0x62, 0x61, 0x62]) = .ok ([97, 98, 256, 258, 98], 260) ∧
      lzwDecode ([97, 98, 256, 258] ++ [256 + 1]) =
        .ok (bytes [0x61, 0x62, 0x61, 0x62, 0x61, 0x62, 0x61] ++ bytes [0x62, 0x61], 260) :=
  ⟨⟨by decide, by rfl⟩, by rfl, by rfl⟩

/-- A first code of 255 and of 256; a second code of 256 and of 257. -/
theorem witness_LzwInvalidCodeIsRejected :
    (∀ c ∈ [97, 257], c < 65536) ∧ lzwDecode [256] = .error .invalidCode ∧
      lzwDecode [255] = .ok ([0xFF], 256) ∧ lzwDecode [97, 257] = .error .invalidCode ∧
      lzwDecode [97, 256] = .ok (bytes [0x61, 0x61, 0x61], 257) :=
  ⟨by decide, by rfl, by rfl, by rfl, by rfl⟩

/-- A sequence of any length without a bad code, so one of 65281 codes and one of 65282. -/
theorem witness_lzwDecode_no_bad_code (n : Nat) :
    (List.replicate n 97).length = n ∧ (∀ c ∈ List.replicate n 97, c < 65536) ∧
      ¬∃ k, k < (List.replicate n 97).length ∧
        (if k = 0 then 256 ≤ (List.replicate n 97).getD 0 0 else 256 + (k - 1) < (List.replicate n 97).getD k 0) := by
  refine ⟨List.length_replicate, fun c h => ?_, ?_⟩
  · rw [List.eq_of_mem_replicate h]
    decide
  · rintro ⟨k, hk, h⟩
    rw [List.length_replicate] at hk
    have hg : ∀ i < n, (List.replicate n 97).getD i 0 = 97 := fun i hi => by simp [List.getD, hi]
    rw [hg k hk, hg 0 (by omega)] at h
    split at h <;> omega

/-- What LZW_ENCODE wrote, as the source of LZW_DECODE. -/
theorem witness_LzwRoundTrip :
    let s := pending 0x30 (regions 0 0x100 64 [0x61, 0x62])
    ∃ t u : State, exec .lzwEncode s = .next t ∧
      s.status.err = false ∧ t.status.err = false ∧ u.RegionsOk ∧
      u.src = s.dst ∧ u.srcLen = t.res.outLen.toNat ∧
      s.srcLen ≤ u.dstCap ∧ ∀ a, u.readByte a = t.readByte a :=
  let t := (run 0x30 (regions 0 0x100 64 [0x61, 0x62]))
  ⟨t, { t with regs := { t.regs with srcAddr := 0x100, srcLen := 4, dstAddr := 0x200, dstCap := 2 } }, by rfl,
    by decide +kernel, by decide +kernel, by unfold State.RegionsOk; decide +kernel, by decide +kernel,
    by decide +kernel, by decide +kernel, fun _ => rfl⟩

/-- For the block statements: the last footprint inside LMEM and the first one past it; a sample no later one overwrites. -/
theorem witness_block_regions :
    let s := withBlock (ranges 262080 0 262080 0) 8 1
    let u := withBlock (ranges 262081 0 262081 0) 8 1
    (s.src + s.footprint ≤ s.params.lmemSize ∧ s.dst + s.footprint ≤ s.params.lmemSize) ∧
      (u.params.lmemSize < u.src + u.footprint ∧ u.params.lmemSize < u.dst + u.footprint) ∧
      262079 ∉ s.blockAddrs s.dst ∧
      ¬∃ j, 62 < j ∧ j < 64 ∧ s.sampleAddr s.dst (j / 8) (j % 8) = s.sampleAddr s.dst (62 / 8) (62 % 8) := by
  refine ⟨by decide +kernel, by decide +kernel, by decide +kernel, ?_⟩
  rintro ⟨j, h1, h2, h3⟩
  obtain rfl : j = 63 := by omega
  revert h3
  decide +kernel

/-- FRAME_C of 0 and 5; a frame past LMEM; frames that overlap in one byte. -/
theorem witness_DctFrameErrors :
    let s := withFrame (ranges 0 0 63 0) 8 8 1
    let u := withFrame (ranges 262081 0 0 0) 8 8 1
    (withFrame (ranges 0 0 0 0) 8 8 0).frameC = 0 ∧ 4 < (withFrame (ranges 0 0 0 0) 8 8 5).frameC ∧
      (1 ≤ u.frameC ∧ u.frameC ≤ 4 ∧ u.params.lmemSize < u.src + u.frameBytes) ∧
      (1 ≤ s.frameC ∧ s.src + s.frameBytes ≤ s.params.lmemSize ∧ s.dst + s.frameBytes ≤ s.params.lmemSize ∧
        s.src ≠ s.dst ∧ 0 < s.frameBytes ∧ s.src < s.dst + s.frameBytes ∧ s.dst < s.src + s.frameBytes) := by
  decide +kernel

/-- A frame in place, an empty frame, frames that touch; a sample of a block and edge samples to its right and below it. -/
theorem witness_DctFrameFiltersEveryBlock :
    let s := withFrame (ranges 0 0 90 0) 10 9 1
    (1 ≤ s.frameC ∧ s.frameC ≤ 4 ∧ s.src + s.frameBytes ≤ s.params.lmemSize ∧
        s.dst + s.frameBytes ≤ s.params.lmemSize ∧ s.src + s.frameBytes ≤ s.dst) ∧
      (withFrame (ranges 0 0 0 0) 10 9 4).src = (withFrame (ranges 0 0 0 0) 10 9 4).dst ∧
      (withFrame (ranges 0 0 0 0) 0 9 1).frameBytes = 0 ∧
      (7 < 8 * (s.frameW / 8) ∧ 7 < 8 * (s.frameH / 8)) ∧ 8 * (s.frameW / 8) ≤ 8 ∧ 8 * (s.frameH / 8) ≤ 8 ∧
      8 < s.frameW ∧ 8 < s.frameH := by decide +kernel

/-- Limits 0 and 1, and a coefficient both zero. -/
theorem witness_ThresholdIsMonotone : 0 ≤ 1 ∧ 0 < [(0 : Word)].length ∧ (thr 0 [(0 : Word)]).getD 0 0 = 0 := by
  decide

/-- A block whose 64 samples are one byte 0. -/
theorem witness_ZeroBlockStaysZero :
    let s := regions 0 0x100 0 [0]
    s.src + s.footprint ≤ s.params.lmemSize ∧ s.dst + s.footprint ≤ s.params.lmemSize ∧
      (∀ a ∈ s.blockAddrs s.src, s.readByte a = 0) ∧ ∃ t, exec .dctBlock s = .next t :=
  ⟨by decide +kernel, by decide +kernel, by decide +kernel, ⟨_, rfl⟩⟩

/-- A block of bytes; a block at the end of LMEM in place under limit 0; DCT_FWD of it, and DCT_INV from what it left. -/
theorem witness_TransformIsReversible :
    let s := withBlock (ranges 262080 0 262080 0) 8 1
    (List.replicate 64 (255 : Byte)).length = 64 ∧ s.src + s.footprint ≤ s.params.lmemSize ∧
      s.dst + s.footprint ≤ s.params.lmemSize ∧ s.limit = 0 ∧ ∃ t, exec .dctFwd s = .next t ∧ t.coef = t.coef ∧
      t.dst + t.footprint ≤ t.params.lmemSize :=
  ⟨by decide, by decide +kernel, by decide +kernel, by decide, _, rfl, rfl, by decide +kernel⟩

theorem witness_LargeLimitLosesEverything : (List.replicate 64 (255 : Byte)).length = 64 ∧ 2 ^ 20 ≤ 2 ^ 20 := by
  decide

/-- A script that launches BS_GET 32 and waits. -/
theorem witness_ScriptWaitsForCompletion :
    let h := HostRun.start State.reset (cmdStmts (.bsGet 32))
    Instr.wf (.bsGet 32) = true ∧ h.core.inputs = [] ∧ h.core.rstN = true ∧ h.core.busy = false ∧
      h.prog[h.pos]? = some (.launch (.bsGet 32)) ∧ h.prog[h.pos + 1]? = some .wait :=
  ⟨rfl, rfl, rfl, rfl, rfl, rfl⟩

end Sys2Proof.Tests
end

/-! What a command can do, said once: its listed outcomes, and that every answer of exec is one of them. -/

namespace Sys2Proof.Machine

/-- What a command leaves when it answers a next state, one constructor per outcome of its rule, with the guards the outcome was reached under (40_control.md R173-R175 and the commands' own rules). -/
inductive Completes (s : State) : Instr → State → Prop where
  /-- An error taken before the command changed anything. -/
  | refusedEarly (i : Instr) (e : ErrCode) : Completes s i (s.completeErr e)
  | nop : Completes s .nop (s.completeOk 0 0)
  | bsClear : Completes s .bsClear (State.completeOk { s with acc := { wbits := [], rbits := [], rpos := 0 } } 0 0)
  | bsPut (n : Nat) (hn : countOk n = true) (hcap : s.acc.wbits.length + n ≤ s.params.bsCapBits) :
      Completes s (.bsPut n)
        (State.completeOk { s with acc := { s.acc with wbits := s.acc.wbits ++ lowBits s.regs.bsData n } } 0 0)
  | bsFlush (hdst : s.inRange s.dst s.dstCap = true) (hlen : (packBytes s.acc.wbits).length ≤ s.dstCap) :
      Completes s .bsFlush
        (State.completeOk
          { s.writeMem s.dst (packBytes s.acc.wbits) with
            regs := { s.regs with bsPad := BitVec.ofNat 3 (padCount s.acc.wbits.length) }
            acc := { s.acc with wbits := [] } }
          (packBytes s.acc.wbits).length s.acc.wbits.length)
  | bsLoad (b : Bits) (hcap : 8 * s.srcLen ≤ s.params.bsCapBits) (hsrc : s.inRange s.src s.srcLen = true)
      (hb : unpack s.source s.regs.bsPad.toNat = some b) :
      Completes s .bsLoad (State.completeOk { s with acc := { s.acc with rbits := b, rpos := 0 } } 0 b.length)
  | bsGet (n : Nat) (hn : countOk n = true) (hlen : s.acc.rpos + n ≤ s.acc.rbits.length) :
      Completes s (.bsGet n)
        (State.completeOk
          { s with
            regs := { s.regs with
              bsData := BitVec.ofNat 32 (bitsToNat ((s.acc.rbits.drop s.acc.rpos).take n)) }
            acc := { s.acc with rpos := s.acc.rpos + n } }
          0 0)
  | hufFreq (hsrc : s.inRange s.src s.srcLen = true) :
      Completes s .hufFreq
        (State.completeOk { s with huf := { s.huf with freq := freqWords (freqCounts s.source) } } 0 0)
  | hufTreeEmpty (ht : buildTree (s.huf.freq.map BitVec.toNat) = none) :
      Completes s .hufTree (s.dropTree.completeErr .emptyInput)
  | hufTree (t : HufTree) (ht : buildTree (s.huf.freq.map BitVec.toNat) = some t) :
      Completes s .hufTree (State.completeOk { s with huf := { s.huf with tree := some t, codes := none } } 0 0)
  | hufCodes (t : HufTree) (ht : s.huf.tree = some t) :
      Completes s .hufCodes (State.completeOk { s with huf := { s.huf with codes := some (codesOf t) } } 0 0)
  | hufEncodeEmpty (hc : s.codecCheck = none) (ht : buildTree (freqCounts s.source) = none) :
      Completes s .hufEncode
        (State.completeErr
          (State.spoilDst { s with huf := { freq := freqWords (freqCounts s.source), tree := none, codes := none } })
          .emptyInput)
  | hufEncodeOverflow (hc : s.codecCheck = none) (t : HufTree) (ht : buildTree (freqCounts s.source) = some t)
      (hlen : s.dstCap < (artifact t (codedBits (codesOf t) s.source)).length) :
      Completes s .hufEncode
        (State.completeErr
          (State.spoilDst
            { s with
              huf := { freq := freqWords (freqCounts s.source), tree := some t, codes := some (codesOf t) } })
          .outputOverflow)
  | hufEncode (hc : s.codecCheck = none) (t : HufTree) (ht : buildTree (freqCounts s.source) = some t)
      (hlen : (artifact t (codedBits (codesOf t) s.source)).length ≤ s.dstCap) :
      Completes s .hufEncode
        (State.completeOk
          (State.writeMem
            { s with
              huf := { freq := freqWords (freqCounts s.source), tree := some t, codes := some (codesOf t) } }
            s.dst (artifact t (codedBits (codesOf t) s.source)))
          (artifact t (codedBits (codesOf t) s.source)).length (codedBits (codesOf t) s.source).length)
  | hufDecodeFailed (hc : s.codecCheck = none) (e : ErrCode) :
      Completes s .hufDecode (s.dropTree.spoilDst.completeErr e)
  | hufDecode (hc : s.codecCheck = none) (t : HufTree) (nbits : Nat) (out : List Byte)
      (hd : decodeArtifact s.source = .ok (t, nbits, out)) (hlen : out.length ≤ s.dstCap) :
      Completes s .hufDecode
        (State.completeOk
          (State.writeMem { s with huf := { s.huf with tree := some t, codes := none } } s.dst out)
          out.length nbits)
  | lzwFailed (i : Instr) (hi : i = .lzwEncode ∨ i = .lzwDecode) (hc : s.codecCheck = none) (e : ErrCode) :
      Completes s i (s.spoilDst.completeErr e)
  | lzwEncode (hc : s.codecCheck = none) (codes : List Nat) (next : Nat)
      (he : Machine.lzwEncode s.source = .ok (codes, next)) (hlen : (bytesOfCodes codes).length ≤ s.dstCap) :
      Completes s .lzwEncode
        (State.completeOk
          { s.writeMem s.dst (bytesOfCodes codes) with res := { s.res with lzwNext := BitVec.ofNat 17 next } }
          (bytesOfCodes codes).length (16 * codes.length))
  | lzwDecode (hc : s.codecCheck = none) (out : List Byte) (next : Nat)
      (hd : Machine.lzwDecode (codesOfBytes s.source) = .ok (out, next)) (hlen : out.length ≤ s.dstCap) :
      Completes s .lzwDecode
        (State.completeOk
          { s.writeMem s.dst out with res := { s.res with lzwNext := BitVec.ofNat 17 next } }
          out.length (8 * s.srcLen))
  | dctFwd (hsrc : s.inRange s.src s.footprint = true) :
      Completes s .dctFwd (State.completeOk { s with coef := fwd (s.readBlock s.src) } 0 0)
  | dctQuant :
      Completes s .dctQuant
        (State.completeOk
          { s with coef := thr s.limit s.coef, res := s.res.transformed (zeros s.limit s.coef) 1 } 0 0)
  | dctInv (hdst : s.inRange s.dst s.footprint = true) :
      Completes s .dctInv ((s.writeBlock s.dst (inv s.coef)).completeOk 64 512)
  | dctBlock (hsrc : s.inRange s.src s.footprint = true) (hdst : s.inRange s.dst s.footprint = true)
      (Y : List Word) (hY : Y = fwd (s.readBlock s.src)) :
      Completes s .dctBlock
        (State.completeOk
          { s.writeBlock s.dst (inv (thr s.limit Y)) with
            coef := thr s.limit Y, res := s.res.transformed (zeros s.limit Y) 1 }
          64 512)
  | dctFrame (hsrc : s.inRange s.src s.frameBytes = true) (hdst : s.inRange s.dst s.frameBytes = true)
      (r : FrameAcc)
      (hr : r = frameLoop (s.readMem s.src s.frameBytes) s.frameW s.frameH s.frameC s.limit s.coef) :
      Completes s .dctFrame
        (State.completeOk
          { s.writeMem s.dst r.out with coef := r.coef, res := s.res.transformed r.zt r.nb }
          s.frameBytes (8 * s.frameBytes))

section
variable {s t u : State} {i : Instr} {e : ErrCode} {n m : Nat}

theorem completes_of_failWith (h : failWith e s = .next t) : Completes s i t := by
  rw [failWith_eq_next_iff] at h
  exact h ▸ .refusedEarly i e

theorem completes_of_failWith_from (hu : Completes s i (u.completeErr e)) (h : failWith e u = .next t) :
    Completes s i t := by
  rw [failWith_eq_next_iff] at h
  exact h ▸ hu

theorem completes_of_succeed (hu : Completes s i (u.completeOk n m)) (h : succeed u n m = .next t) :
    Completes s i t := by
  rw [succeed_eq_next_iff] at h
  exact h ▸ hu

theorem completes_execBsPut (h : execBsPut n s = .next t) : Completes s (.bsPut n) t := by
  unfold execBsPut at h
  split_ifs at h with hn hcap
  · exact completes_of_failWith h
  · exact completes_of_failWith h
  · exact completes_of_succeed (.bsPut n (by simpa using hn) (by omega)) h

theorem completes_execBsFlush (h : execBsFlush s = .next t) : Completes s .bsFlush t := by
  unfold execBsFlush at h
  dsimp only at h
  split_ifs at h with hdst hlen
  · exact completes_of_failWith h
  · exact completes_of_failWith h
  · exact completes_of_succeed (.bsFlush (by simpa using hdst) (by omega)) h

theorem completes_execBsLoad (h : execBsLoad s = .next t) : Completes s .bsLoad t := by
  unfold execBsLoad at h
  split_ifs at h with hcap hsrc
  · exact completes_of_failWith h
  · exact completes_of_failWith h
  · split at h
    · exact completes_of_failWith h
    next b hb => exact completes_of_succeed (.bsLoad b (by omega) (by simpa using hsrc) hb) h

theorem completes_execBsGet (h : execBsGet n s = .next t) : Completes s (.bsGet n) t := by
  unfold execBsGet at h
  split_ifs at h with hn hlen
  · exact completes_of_failWith h
  · exact completes_of_failWith h
  · exact completes_of_succeed (.bsGet n (by simpa using hn) (by omega)) h

theorem completes_execHufFreq (h : execHufFreq s = .next t) : Completes s .hufFreq t := by
  unfold execHufFreq at h
  split_ifs at h with hsrc
  · exact completes_of_failWith h
  · exact completes_of_succeed (.hufFreq (by simpa using hsrc)) h

theorem completes_execHufTree (h : execHufTree s = .next t) : Completes s .hufTree t := by
  unfold execHufTree at h
  split at h
  next ht => exact completes_of_failWith_from (.hufTreeEmpty ht) h
  next T ht => exact completes_of_succeed (.hufTree T ht) h

theorem completes_execHufCodes (h : execHufCodes s = .next t) : Completes s .hufCodes t := by
  unfold execHufCodes at h
  split at h
  · exact completes_of_failWith h
  next T ht => exact completes_of_succeed (.hufCodes T ht) h

theorem completes_execHufEncode (h : execHufEncode s = .next t) : Completes s .hufEncode t := by
  unfold execHufEncode at h
  split at h
  · exact completes_of_failWith h
  next hc =>
    dsimp only at h
    split at h
    next ht => exact completes_of_failWith_from (.hufEncodeEmpty hc ht) h
    next T ht =>
      split_ifs at h with hlen
      · exact completes_of_failWith_from (.hufEncodeOverflow hc T ht hlen) h
      · exact completes_of_succeed (.hufEncode hc T ht (by omega)) h

theorem completes_execHufDecode (h : execHufDecode s = .next t) : Completes s .hufDecode t := by
  unfold execHufDecode at h
  split at h
  · exact completes_of_failWith h
  next hc =>
    split at h
    · exact completes_of_failWith_from (.hufDecodeFailed hc _) h
    next T nbits out hd =>
      split_ifs at h with hlen
      · exact completes_of_failWith_from (.hufDecodeFailed hc _) h
      · exact completes_of_succeed (.hufDecode hc T nbits out hd (by omega)) h

theorem completes_execLzwEncode (h : execLzwEncode s = .next t) : Completes s .lzwEncode t := by
  unfold execLzwEncode at h
  split at h
  · exact completes_of_failWith h
  next hc =>
    split at h
    · exact completes_of_failWith_from (.lzwFailed _ (.inl rfl) hc _) h
    next codes next he =>
      dsimp only at h
      split_ifs at h with hlen
      · exact completes_of_failWith_from (.lzwFailed _ (.inl rfl) hc _) h
      · exact completes_of_succeed (.lzwEncode hc codes next he (by omega)) h

theorem completes_execLzwDecode (h : execLzwDecode s = .next t) : Completes s .lzwDecode t := by
  unfold execLzwDecode at h
  split at h
  · exact completes_of_failWith h
  next hc =>
    split_ifs at h
    · exact completes_of_failWith_from (.lzwFailed _ (.inr rfl) hc _) h
    · split at h
      · exact completes_of_failWith_from (.lzwFailed _ (.inr rfl) hc _) h
      next out next hd =>
        split_ifs at h with hlen
        · exact completes_of_failWith_from (.lzwFailed _ (.inr rfl) hc _) h
        · exact completes_of_succeed (.lzwDecode hc out next hd (by omega)) h

theorem completes_execDctFwd (h : execDctFwd s = .next t) : Completes s .dctFwd t := by
  unfold execDctFwd at h
  split_ifs at h with hsrc
  · exact completes_of_failWith h
  · exact completes_of_succeed (.dctFwd (by simpa using hsrc)) h

theorem completes_execDctInv (h : execDctInv s = .next t) : Completes s .dctInv t := by
  unfold execDctInv at h
  split_ifs at h with hdst
  · exact completes_of_failWith h
  · exact completes_of_succeed (.dctInv (by simpa using hdst)) h

theorem completes_execDctBlock (h : execDctBlock s = .next t) : Completes s .dctBlock t := by
  unfold execDctBlock at h
  split_ifs at h with hr
  · exact completes_of_failWith h
  · simp only [Bool.not_eq_true, Bool.not_eq_false', Bool.and_eq_true] at hr
    exact completes_of_succeed (.dctBlock hr.1 hr.2 _ rfl) h

theorem completes_execDctFrame (h : execDctFrame s = .next t) : Completes s .dctFrame t := by
  unfold execDctFrame at h
  dsimp only at h
  split_ifs at h with hc hr ho
  · exact completes_of_failWith h
  · exact completes_of_failWith h
  · exact completes_of_failWith h
  · simp only [Bool.not_eq_true, Bool.not_eq_false', Bool.and_eq_true] at hr
    exact completes_of_succeed (.dctFrame hr.1 hr.2 _ rfl) h

/-- Every answer of a command is one of its listed outcomes. -/
theorem completes_of_exec (h : exec i s = .next t) : Completes s i t := by
  cases i with
  | nop => exact completes_of_succeed .nop h
  | bsClear => exact completes_of_succeed .bsClear h
  | bsPut n => exact completes_execBsPut h
  | bsFlush => exact completes_execBsFlush h
  | bsLoad => exact completes_execBsLoad h
  | bsGet n => exact completes_execBsGet h
  | hufFreq => exact completes_execHufFreq h
  | hufTree => exact completes_execHufTree h
  | hufCodes => exact completes_execHufCodes h
  | hufEncode => exact completes_execHufEncode h
  | hufDecode => exact completes_execHufDecode h
  | lzwEncode => exact completes_execLzwEncode h
  | lzwDecode => exact completes_execLzwDecode h
  | dctFwd => exact completes_execDctFwd h
  | dctQuant => exact completes_of_succeed .dctQuant h
  | dctInv => exact completes_execDctInv h
  | dctBlock => exact completes_execDctBlock h
  | dctFrame => exact completes_execDctFrame h

end
end Sys2Proof.Machine

/-! The frame of every command (O8). -/

namespace Sys2Proof.Machine

@[simp] theorem ResultRegs.counted_zeroCount (r : ResultRegs) (n m : Nat) :
    (r.counted n m).zeroCount = r.zeroCount := rfl
@[simp] theorem ResultRegs.counted_keptCount (r : ResultRegs) (n m : Nat) :
    (r.counted n m).keptCount = r.keptCount := rfl
@[simp] theorem ResultRegs.counted_blockCount (r : ResultRegs) (n m : Nat) :
    (r.counted n m).blockCount = r.blockCount := rfl

section
variable {s t : State} {i : Instr}

/-- The control fields no command touches (10_state.md R44, R46). -/
theorem Completes.control (h : Completes s i t) :
    t.irqEn = s.irqEn ∧ t.cmd = s.cmd ∧ t.params = s.params ∧ t.inputs = s.inputs ∧ t.rdata = s.rdata ∧
      t.rstN = s.rstN ∧ t.epoch = s.epoch := by
  cases h <;> simp [State.spoilDst]

theorem Completes.regs (h : Completes s i t) :
    t.regs = { s.regs with bsData := t.regs.bsData, bsPad := t.regs.bsPad } := by
  cases h <;> simp [State.spoilDst]

theorem Completes.bsData (h : Completes s i t) (hi : ∀ n, i ≠ .bsGet n) : t.regs.bsData = s.regs.bsData := by
  cases h with
  | bsGet n => exact absurd rfl (hi n)
  | _ => simp [State.spoilDst]

theorem Completes.bsPad (h : Completes s i t) (hi : i ≠ .bsFlush) : t.regs.bsPad = s.regs.bsPad := by
  cases h with
  | bsFlush => exact absurd rfl hi
  | _ => simp [State.spoilDst]

theorem Completes.acc (h : Completes s i t) (hi : i.isBitstream = false) : t.acc = s.acc := by
  cases h with
  | bsClear | bsPut | bsFlush | bsLoad | bsGet => exact Bool.noConfusion hi
  | _ => simp [State.spoilDst]

theorem Completes.coef (h : Completes s i t) (hi : i ∉ [Instr.dctFwd, .dctQuant, .dctBlock, .dctFrame]) :
    t.coef = s.coef := by
  cases h with
  | dctFwd | dctQuant | dctBlock | dctFrame => exact absurd hi (by decide)
  | _ => simp [State.spoilDst]

theorem Completes.transformCounts (h : Completes s i t) (hi : i ∉ [Instr.dctQuant, .dctBlock, .dctFrame]) :
    t.res.zeroCount = s.res.zeroCount ∧ t.res.keptCount = s.res.keptCount ∧ t.res.blockCount = s.res.blockCount := by
  cases h with
  | dctQuant | dctBlock | dctFrame => exact absurd hi (by decide)
  | _ => simp [State.spoilDst]

theorem Completes.lzwNext (h : Completes s i t) (hi : i ∉ [Instr.lzwEncode, .lzwDecode]) :
    t.res.lzwNext = s.res.lzwNext := by
  cases h with
  | lzwEncode | lzwDecode => exact absurd hi (by decide)
  | _ => simp [State.spoilDst]

theorem Completes.freq (h : Completes s i t) (hi : i ∉ [Instr.hufFreq, .hufEncode]) : t.huf.freq = s.huf.freq := by
  cases h with
  | hufFreq | hufEncodeEmpty | hufEncodeOverflow | hufEncode => exact absurd hi (by decide)
  | _ => simp [State.spoilDst]

theorem Completes.tree (h : Completes s i t) (hi : i ∉ [Instr.hufTree, .hufEncode, .hufDecode]) :
    t.huf.tree = s.huf.tree := by
  cases h with
  | hufTreeEmpty | hufTree | hufEncodeEmpty | hufEncodeOverflow | hufEncode | hufDecodeFailed | hufDecode =>
    exact absurd hi (by decide)
  | _ => simp [State.spoilDst]

theorem Completes.codes (h : Completes s i t) (hi : i ∉ [Instr.hufTree, .hufCodes, .hufEncode, .hufDecode]) :
    t.huf.codes = s.huf.codes := by
  cases h with
  | hufTreeEmpty | hufTree | hufCodes | hufEncodeEmpty | hufEncodeOverflow | hufEncode | hufDecodeFailed | hufDecode =>
    exact absurd hi (by decide)
  | _ => simp [State.spoilDst]

end

/-- Settles O8, from what each listed outcome of a command leaves unchanged. -/
theorem commandFrame : Obligations.CommandFrame := by
  intro i s t h
  have hc := completes_of_exec h
  exact ⟨hc.control, hc.regs, hc.bsData, hc.bsPad, hc.acc,
    hc.coef, hc.transformCounts, hc.lzwNext, hc.freq, hc.tree, hc.codes⟩

end Sys2Proof.Machine

/-! Bounds of what the commands compute: trees, codes, accumulator bits, LZW_NEXT, coefficient blocks. -/

namespace Sys2Proof.Machine

theorem HufTree.leaves_pos (t : HufTree) : 1 ≤ t.leaves := by
  induction t with
  | leaf => exact Nat.le_refl 1
  | node l r f ihl ihr => simp only [HufTree.leaves]; omega

/-- A binary tree has one node less than twice its leaves (42_huffman.md R241). -/
theorem HufTree.nodes_add_one (t : HufTree) : t.nodes + 1 = 2 * t.leaves := by
  induction t with
  | leaf => rfl
  | node l r f ihl ihr => simp only [HufTree.leaves, HufTree.nodes]; omega

/-- The entry taken out of the queue and the others are the queue's entries. -/
theorem extractMin_perm (e : QEntry) (q : List QEntry) :
    ((extractMin e q).1 :: (extractMin e q).2).Perm (e :: q) := by
  induction q generalizing e with
  | nil => exact .refl _
  | cons x xs ih =>
    unfold extractMin
    split
    · exact ((List.Perm.swap _ _ _).trans ((ih x).cons e))
    · exact ((List.Perm.swap _ _ _).trans ((ih e).cons x)).trans (List.Perm.swap _ _ _)

/-- The leaves of all trees of a queue. -/
def queueLeaves (q : List QEntry) : Nat := (q.map fun e => e.tree.leaves).sum

@[simp] theorem queueLeaves_cons (e : QEntry) (q : List QEntry) :
    queueLeaves (e :: q) = e.tree.leaves + queueLeaves q := rfl

@[simp] theorem queueLeaves_concat (q : List QEntry) (e : QEntry) :
    queueLeaves (q ++ [e]) = queueLeaves q + e.tree.leaves := by
  simp [queueLeaves]

theorem queueLeaves_extractMin (e : QEntry) (q : List QEntry) :
    (extractMin e q).1.tree.leaves + queueLeaves (extractMin e q).2 = e.tree.leaves + queueLeaves q :=
  ((extractMin_perm e q).map fun x : QEntry => x.tree.leaves).sum_eq

/-- Merging keeps the leaves: the built tree has no more than the queue had. -/
theorem mergeLoop_leaves_le (fuel arrival : Nat) (e : QEntry) (q : List QEntry) :
    (mergeLoop fuel arrival e q).leaves ≤ queueLeaves (e :: q) := by
  induction fuel generalizing arrival e q with
  | zero => cases q <;> simp [mergeLoop]
  | succ fuel ih =>
    cases q with
    | nil => simp [mergeLoop]
    | cons x xs =>
      have h1 := queueLeaves_extractMin e (x :: xs)
      rw [queueLeaves_cons, ← h1]
      unfold mergeLoop
      dsimp only
      split
      · omega
      next y ys hy =>
        have h2 := queueLeaves_extractMin y ys
        rw [hy, queueLeaves_cons, ← h2]
        split
        · simp only [mergeEntries, HufTree.leaves]; omega
        next z zs hz =>
          refine (ih _ _ _).trans ?_
          rw [hz]
          simp only [queueLeaves_cons, queueLeaves_concat, mergeEntries, HufTree.leaves]
          omega

theorem queueLeaves_leafEntries_le (sym arrival : Nat) (F : List Nat) :
    queueLeaves (leafEntries sym arrival F) ≤ F.length := by
  induction F generalizing sym arrival with
  | nil => exact Nat.le_refl 0
  | cons f fs ih =>
    unfold leafEntries
    split
    · exact (ih _ _).trans (Nat.le_succ _)
    · have h := ih (sym + 1) (arrival + 1)
      simp only [queueLeaves_cons, HufTree.leaves, List.length_cons]
      omega

theorem buildTree_leaves_le {F : List Nat} {t : HufTree} (h : buildTree F = some t) : t.leaves ≤ F.length := by
  unfold buildTree at h
  split at h
  · cases h
  next e q hq =>
    cases h
    calc _ ≤ queueLeaves (e :: q) := mergeLoop_leaves_le _ _ e q
      _ = queueLeaves (leafEntries 0 0 F) := by rw [hq]
      _ ≤ F.length := queueLeaves_leafEntries_le 0 0 F

/-- The tree of a table of 256 counts fits the tree store (10_state.md R74). -/
theorem buildTree_nodes_le {F : List Nat} {t : HufTree} (hF : F.length = 256) (h : buildTree F = some t) :
    t.nodes ≤ 511 := by
  have h1 := buildTree_leaves_le h
  have h2 := t.nodes_add_one
  omega

theorem CodeBook.find_isSome_iff (C : CodeBook) (s : Byte) :
    (CodeBook.find C s).isSome = true ↔ s ∈ C.map Prod.fst := by
  simp only [CodeBook.find, List.lookup_isSome_iff, List.mem_map, beq_iff_eq]
  exact exists_congr fun e => and_congr_right fun _ => eq_comm

/-- Visiting a tree enters each symbol at most once. -/
theorem visit_keys_nodup (t : HufTree) (p : Bits) {C : CodeBook} (hC : (C.map Prod.fst).Nodup) :
    ((visit t p C).map Prod.fst).Nodup := by
  induction t generalizing p C with
  | node l r f ihl ihr => exact ihr _ (ihl _ hC)
  | leaf s f =>
    unfold visit
    split
    · exact hC
    next h =>
      rw [CodeBook.find_isSome_iff] at h
      rw [List.map_append, List.map_singleton]
      exact hC.append (List.nodup_singleton s) (List.disjoint_singleton.2 h)

/-- A new entry's code extends the path to the visited tree by at most one bit less than the tree has leaves. -/
theorem visit_code_length (t : HufTree) (p : Bits) {C : CodeBook} {e : Byte × Bits} (h : e ∈ visit t p C) :
    e ∈ C ∨ (p.length ≤ e.2.length ∧ e.2.length + 1 ≤ p.length + t.leaves) := by
  induction t generalizing p C with
  | leaf s f =>
    unfold visit at h
    split at h
    · exact .inl h
    · rcases List.mem_append.1 h with h | h
      · exact .inl h
      · rw [List.mem_singleton.1 h]
        exact .inr ⟨Nat.le_refl _, Nat.le_refl _⟩
  | node l r f ihl ihr =>
    have hl := l.leaves_pos
    have hr := r.leaves_pos
    simp only [HufTree.leaves]
    rcases ihr _ h with h | h
    · rcases ihl _ h with h | h
      · exact .inl h
      · rw [List.length_append, List.length_singleton] at h
        right; omega
    · rw [List.length_append, List.length_singleton] at h
      right; omega

/-- The codes of a tree within the capacity are a map of codes of 1..255 bits (10_state.md R75). -/
theorem codesOf_ok {t : HufTree} (ht : t.nodes ≤ 511) : CodeBook.Ok (codesOf t) := by
  cases t with
  | leaf s f => exact ⟨List.nodup_singleton s, by simp [codesOf]⟩
  | node l r f =>
    refine ⟨visit_keys_nodup (.node l r f) [] List.nodup_nil, fun e he => ?_⟩
    have hl := l.leaves_pos
    have hr := r.leaves_pos
    have hn := (HufTree.node l r f).nodes_add_one
    simp only [HufTree.leaves] at hn
    rcases visit_code_length r [true] he with he | he
    · rcases visit_code_length l [false] he with he | he
      · cases he
      · rw [List.length_singleton] at he; omega
    · rw [List.length_singleton] at he; omega

/-- The parse counts the nodes it reads and stops before the count passes the capacity (42_huffman.md R246). -/
theorem parseNode_count {fuel count count' : Nat} {z z' : List Byte} {t : HufTree}
    (h : parseNode fuel count z = .ok (t, count', z')) : count' = count + t.nodes ∧ count' ≤ 511 := by
  induction fuel generalizing count count' z z' t with
  | zero => cases h
  | succ fuel ih =>
    cases z with
    | nil => cases h
    | cons tag z =>
      unfold parseNode at h
      split_ifs at h with htag hcap hleaf
      · split at h
        · cases h
        · cases h
          exact ⟨rfl, Nat.le_of_not_lt hcap⟩
      · split at h
        · cases h
        next l c1 z1 hl =>
          split at h
          · cases h
          next r c2 z2 hr =>
            cases h
            obtain ⟨hl1, -⟩ := ih hl
            obtain ⟨hr1, hr2⟩ := ih hr
            simp only [HufTree.nodes]
            omega

theorem parseTree_nodes_le {z rest : List Byte} {t : HufTree} (h : parseTree z = .ok (t, rest)) : t.nodes ≤ 511 := by
  unfold parseTree at h
  split at h
  · cases h
  next hp =>
    cases h
    have := parseNode_count hp
    omega

theorem decodeArtifact_nodes_le {y out : List Byte} {t : HufTree} {n : Nat}
    (h : decodeArtifact y = .ok (t, n, out)) : t.nodes ≤ 511 := by
  unfold decodeArtifact at h
  split at h
  · cases h
  · split_ifs at h
    split at h
    · cases h
    next hp =>
      split at h
      · cases h
      · split at h
        · cases h
        · cases h
          exact parseTree_nodes_le hp

theorem unpack_length_le {y : List Byte} {pad : Nat} {b : Bits} (h : unpack y pad = some b) :
    b.length ≤ 8 * y.length := by
  unfold unpack at h
  split_ifs at h
  cases h
  simp only [List.length_take, allBits_length]
  omega

/-! The next free code after an LZW command: the dictionary only grows, and not past its ceiling (43_lzw.md R301). -/

@[simp] theorem LzwDict.next_concat (d : LzwDict) (w : List Byte) : LzwDict.next (d ++ [w]) = LzwDict.next d + 1 := by
  simp [LzwDict.next, Nat.add_assoc]

theorem LzwDict.le_next (d : LzwDict) : 256 ≤ LzwDict.next d := Nat.le_add_right _ _

theorem lzwEncodeFrom_next {d : LzwDict} {w y : List Byte} {codes : List Nat} {next : Nat}
    (hd : LzwDict.next d ≤ 65536) (h : lzwEncodeFrom d w y = .ok (codes, next)) : 256 ≤ next ∧ next ≤ 65536 := by
  induction y generalizing d w codes with
  | nil =>
    cases h
    exact ⟨d.le_next, hd⟩
  | cons c y ih =>
    unfold lzwEncodeFrom at h
    split_ifs at h with hkey hfull
    · exact ih hd h
    · split at h
      · cases h
      next hrec =>
        cases h
        refine ih ?_ hrec
        rw [LzwDict.next_concat]
        unfold lzwCapacity at hfull
        omega

theorem lzwEncode_next {y : List Byte} {codes : List Nat} {next : Nat} (h : lzwEncode y = .ok (codes, next)) :
    256 ≤ next ∧ next ≤ 65536 := by
  cases y with
  | nil => cases h; decide
  | cons s y => exact lzwEncodeFrom_next (by decide) h

theorem lzwDecodeFrom_next {d : LzwDict} {prev out : List Byte} {codes : List Nat} {next : Nat}
    (hd : LzwDict.next d ≤ 65536) (h : lzwDecodeFrom d prev codes = .ok (out, next)) :
    256 ≤ next ∧ next ≤ 65536 := by
  induction codes generalizing d prev out with
  | nil =>
    cases h
    exact ⟨d.le_next, hd⟩
  | cons c codes ih =>
    unfold lzwDecodeFrom at h
    split at h
    · cases h
    · split_ifs at h with hfull
      split at h
      · cases h
      next hrec =>
        cases h
        refine ih ?_ hrec
        rw [LzwDict.next_concat]
        unfold lzwCapacity at hfull
        omega

theorem lzwDecode_next {codes : List Nat} {out : List Byte} {next : Nat} (h : lzwDecode codes = .ok (out, next)) :
    256 ≤ next ∧ next ≤ 65536 := by
  cases codes with
  | nil => cases h; decide
  | cons c codes =>
    unfold lzwDecode at h
    dsimp only at h
    split_ifs at h
    split at h
    · cases h
    next hrec =>
      cases h
      exact lzwDecodeFrom_next (by decide) hrec

@[simp] theorem frameTurn_coef_length (P : List Byte) (w c lim : Nat) (acc : FrameAcc) (p : BlockPos) :
    (frameTurn P w c lim acc p).coef.length = 64 := by
  simp [frameTurn]

theorem foldl_frameTurn_coef_length (P : List Byte) (w c lim : Nat) (l : List BlockPos) {acc : FrameAcc}
    (hacc : acc.coef.length = 64) : (l.foldl (frameTurn P w c lim) acc).coef.length = 64 := by
  induction l generalizing acc with
  | nil => exact hacc
  | cons p l ih =>
    rw [List.foldl_cons]
    exact ih (frameTurn_coef_length P w c lim acc p)

/-- The frame loop leaves a whole block: the last one's, or the store as it was when the frame has no block. -/
theorem frameLoop_coef_length (P : List Byte) (w h c lim : Nat) {coef : List Word} (hc : coef.length = 64) :
    (frameLoop P w h c lim coef).coef.length = 64 :=
  foldl_frameTurn_coef_length P w c lim (frameBlocks w h c) hc

end Sys2Proof.Machine

/-! The invariant under every command (O24, the engine's part). -/

namespace Sys2Proof.Machine

section
variable {s t : State} {i : Instr}

/-! One lemma per update of the state: what it must meet to keep the invariant. -/

theorem State.Inv.withAcc {a : Accumulator} (h : s.Inv) (ha : a.Ok s.params.bsCapBits) :
    State.Inv { s with acc := a } := { h with acc := ha }

theorem State.Inv.withHuf {f : HufStore} (h : s.Inv) (hf : f.Ok) : State.Inv { s with huf := f } :=
  { h with huf := hf }

theorem State.Inv.withCoef {C : List Word} (h : s.Inv) (hC : C.length = 64) : State.Inv { s with coef := C } :=
  { h with coef := hC }

theorem State.Inv.withRegs (h : s.Inv) (g : OperandRegs) : State.Inv { s with regs := g } := { h with }

theorem State.Inv.withIrqEn (h : s.Inv) (b : Bool) : State.Inv { s with irqEn := b } := { h with }

theorem State.Inv.withInputs (h : s.Inv) (l : List Input) : State.Inv { s with inputs := l } := { h with }

theorem State.Inv.withTransformed (h : s.Inv) (z blocks : Nat) :
    State.Inv { s with res := s.res.transformed z blocks } := { h with lzwNext := h.lzwNext }

theorem State.Inv.withLzwNext {next : Nat} (h : s.Inv) (hn : 256 ≤ next ∧ next ≤ 65536) :
    State.Inv { s with res := { s.res with lzwNext := BitVec.ofNat 17 next } } :=
  { h with
    lzwNext := by
      have hlt : next % 2 ^ 17 = next := Nat.mod_eq_of_lt (by omega)
      rw [BitVec.toNat_ofNat, hlt]
      exact .inr hn }

theorem State.Inv.writeMem {a : Nat} {bs : List Byte} (h : s.Inv) (hr : a + bs.length ≤ s.params.lmemSize) :
    (s.writeMem a bs).Inv :=
  { h with
    lmem := by
      refine ⟨Memory.wf_storeBytes h.lmem.1 a bs, fun c hc => ?_⟩
      rcases Memory.mem_storeBytes hc with hc | hc
      · exact Nat.lt_of_lt_of_le hc.2 hr
      · exact h.lmem.2 c hc }

theorem State.Inv.writeBlock {a : Nat} (h : s.Inv) (bs : List Byte) (hr : s.inRange a s.footprint = true) :
    (s.writeBlock a bs).Inv :=
  { h with
    lmem := by
      refine ⟨Memory.wf_storeAt h.lmem.1 _, fun c hc => ?_⟩
      rcases Memory.mem_storeAt hc with hc | hc
      · obtain ⟨p, hp, hpc⟩ := List.mem_map.1 hc
        exact hpc ▸ State.mem_blockAddrs_lt hr (List.of_mem_zip hp).1
      · exact h.lmem.2 c hc }

theorem State.Inv.spoil {as : List Nat} (h : s.Inv) (hr : ∀ a ∈ as, a < s.params.lmemSize) : (s.spoil as).Inv :=
  { h with
    lmem := by
      refine ⟨Memory.wf_storeDraws h.lmem.1 _ as, fun c hc => ?_⟩
      rcases Memory.mem_storeDraws hc with hc | hc
      · exact hr _ hc
      · exact h.lmem.2 c hc }

theorem State.mem_regionAddrs_lt {a n c : Nat} (h : s.inRange a n = true) (hc : c ∈ regionAddrs a n) :
    c < s.params.lmemSize := by
  rw [State.inRange_iff] at h
  rw [mem_regionAddrs] at hc
  omega

theorem State.Inv.spoilDst (h : s.Inv) (hr : s.dst + s.dstCap ≤ s.params.lmemSize) : s.spoilDst.Inv :=
  h.spoil fun _ hc => State.mem_regionAddrs_lt ((s.inRange_iff _ _).2 hr) hc

theorem State.Inv.completeOk (h : s.Inv) (n m : Nat) : (s.completeOk n m).Inv :=
  { h with engine := ⟨.inl rfl, fun hb => Bool.noConfusion hb⟩, held := fun _ => rfl }

theorem State.Inv.completeErr (h : s.Inv) (e : ErrCode) : (s.completeErr e).Inv :=
  { h with
    engine := ⟨.inl rfl, fun hb => Bool.noConfusion hb⟩
    errcode := .inr ⟨e, rfl⟩
    held := fun _ => rfl }

/-! The accumulators the commands leave. -/

section
variable {a : Accumulator} {cap : Nat}

theorem Accumulator.Ok.empty (cap : Nat) : Accumulator.Ok { wbits := [], rbits := [], rpos := 0 } cap :=
  ⟨Nat.zero_le _, Nat.zero_le _, Nat.zero_le _⟩

theorem Accumulator.Ok.withWbits {b : Bits} (h : a.Ok cap) (hb : b.length ≤ cap) :
    Accumulator.Ok { a with wbits := b } cap := ⟨hb, h.2⟩

theorem Accumulator.Ok.withRbits {b : Bits} {k : Nat} (h : a.Ok cap) (hb : b.length ≤ cap) (hk : k ≤ b.length) :
    Accumulator.Ok { a with rbits := b, rpos := k } cap := ⟨h.1, hb, hk⟩

theorem Accumulator.Ok.withRpos {k : Nat} (h : a.Ok cap) (hk : k ≤ a.rbits.length) :
    Accumulator.Ok { a with rpos := k } cap := ⟨h.1, h.2.1, hk⟩

end

/-! The Huffman stores the commands leave. -/

theorem HufStore.Ok.empty {F : List Word} (hF : F.length = 256) :
    HufStore.Ok { freq := F, tree := none, codes := none } :=
  ⟨hF, by rintro _ ⟨⟩, by rintro _ ⟨⟩⟩

theorem HufStore.Ok.ofTree {F : List Word} {T : HufTree} (hF : F.length = 256) (hT : T.nodes ≤ 511) :
    HufStore.Ok { freq := F, tree := some T, codes := none } :=
  ⟨hF, fun _ h => Option.some.inj h ▸ hT, by rintro _ ⟨⟩⟩

theorem HufStore.Ok.withCodes {f : HufStore} {T : HufTree} (hf : f.Ok) (hT : T.nodes ≤ 511) :
    HufStore.Ok { f with codes := some (codesOf T) } :=
  ⟨hf.1, hf.2.1, fun _ h => Option.some.inj h ▸ codesOf_ok hT⟩

theorem freqWords_freqCounts_length (y : List Byte) : (freqWords (freqCounts y)).length = 256 := by simp

theorem HufStore.Ok.withFreq {f : HufStore} {F : List Word} (hf : f.Ok) (hF : F.length = 256) :
    HufStore.Ok { f with freq := F } := ⟨hF, hf.2⟩

theorem State.Inv.dropTree (h : s.Inv) : s.dropTree.Inv := h.withHuf (.empty h.huf.1)

/-- A destination of a codec command that passed the region checks holds what fits its capacity. -/
theorem State.dst_add_le_of_codecCheck {n : Nat} (hc : s.codecCheck = none) (hn : n ≤ s.dstCap) :
    s.dst + n ≤ s.params.lmemSize := by
  obtain ⟨-, hd, -⟩ := s.codecCheck_eq_none_iff.1 hc
  omega

/-- Every outcome of a command keeps the invariant. -/
theorem Completes.inv (hs : s.Inv) (h : Completes s i t) : t.Inv := by
  cases h with
  | refusedEarly i e => exact hs.completeErr e
  | nop => exact hs.completeOk _ _
  | bsClear => exact (hs.withAcc (Accumulator.Ok.empty _)).completeOk _ _
  | bsPut n hn hcap =>
    have hw' : (s.acc.wbits ++ lowBits s.regs.bsData n).length ≤ s.params.bsCapBits := by
      rwa [List.length_append, lowBits_length]
    exact (hs.withAcc (hs.acc.withWbits hw')).completeOk _ _
  | bsFlush hdst hlen =>
    rw [State.inRange_iff] at hdst
    have hout : s.dst + (packBytes s.acc.wbits).length ≤ s.params.lmemSize := by omega
    have ha := (hs.writeMem hout).withAcc (hs.acc.withWbits (b := []) (Nat.zero_le _))
    exact (ha.withRegs _).completeOk _ _
  | bsLoad b hcap hsrc hb =>
    have hlen := unpack_length_le hb
    rw [State.source_length] at hlen
    exact (hs.withAcc (hs.acc.withRbits (hlen.trans hcap) (Nat.zero_le _))).completeOk _ _
  | bsGet n hn hlen =>
    have ha := hs.withAcc (hs.acc.withRpos hlen)
    exact (ha.withRegs _).completeOk _ _
  | hufFreq hsrc =>
    exact (hs.withHuf (hs.huf.withFreq (freqWords_freqCounts_length _))).completeOk _ _
  | hufTreeEmpty ht => exact hs.dropTree.completeErr _
  | hufTree T ht =>
    have hT := buildTree_nodes_le ((List.length_map _).trans hs.huf.1) ht
    exact (hs.withHuf (.ofTree hs.huf.1 hT)).completeOk _ _
  | hufCodes T ht => exact (hs.withHuf (hs.huf.withCodes (hs.huf.2.1 T ht))).completeOk _ _
  | hufEncodeEmpty hc ht =>
    exact ((hs.withHuf (.empty (freqWords_freqCounts_length _))).spoilDst
      (State.dst_add_le_of_codecCheck hc le_rfl)).completeErr _
  | hufEncodeOverflow hc T ht hlen =>
    have hT := buildTree_nodes_le (freqCounts_length _) ht
    exact ((hs.withHuf (HufStore.Ok.withCodes (.ofTree (freqWords_freqCounts_length _) hT) hT)).spoilDst
      (State.dst_add_le_of_codecCheck hc le_rfl)).completeErr _
  | hufEncode hc T ht hlen =>
    have hT := buildTree_nodes_le (freqCounts_length _) ht
    exact ((hs.withHuf (HufStore.Ok.withCodes (.ofTree (freqWords_freqCounts_length _) hT) hT)).writeMem
      (State.dst_add_le_of_codecCheck hc hlen)).completeOk _ _
  | hufDecodeFailed hc e =>
    exact (hs.dropTree.spoilDst (State.dst_add_le_of_codecCheck hc le_rfl)).completeErr _
  | hufDecode hc T nbits out hd hlen =>
    exact ((hs.withHuf (.ofTree hs.huf.1 (decodeArtifact_nodes_le hd))).writeMem
      (State.dst_add_le_of_codecCheck hc hlen)).completeOk _ _
  | lzwFailed i hi hc e => exact (hs.spoilDst (State.dst_add_le_of_codecCheck hc le_rfl)).completeErr _
  | lzwEncode hc codes next he hlen =>
    exact ((hs.writeMem (State.dst_add_le_of_codecCheck hc hlen)).withLzwNext (lzwEncode_next he)).completeOk _ _
  | lzwDecode hc out next hd hlen =>
    exact ((hs.writeMem (State.dst_add_le_of_codecCheck hc hlen)).withLzwNext (lzwDecode_next hd)).completeOk _ _
  | dctFwd hsrc => exact (hs.withCoef (fwd_length _)).completeOk _ _
  | dctQuant =>
    exact ((hs.withCoef ((thr_length _ _).trans hs.coef)).withTransformed _ _).completeOk _ _
  | dctInv hdst => exact (hs.writeBlock _ hdst).completeOk _ _
  | dctBlock hsrc hdst Y hY =>
    have hq : (thr s.limit Y).length = 64 := by rw [thr_length, hY, fwd_length]
    -- The samples do not matter here, and unfolding them is costly.
    generalize inv (thr s.limit Y) = out
    exact (((hs.writeBlock out hdst).withCoef hq).withTransformed _ 1).completeOk _ _
  | dctFrame hsrc hdst r hr =>
    have hq : r.coef.length = 64 := hr ▸ frameLoop_coef_length _ _ _ _ _ hs.coef
    have hout : s.dst + r.out.length ≤ s.params.lmemSize := by
      rw [hr, frameLoop_out_length, State.readMem_length, ← State.inRange_iff]
      exact hdst
    exact (((hs.writeMem hout).withCoef hq).withTransformed _ _).completeOk _ _

theorem engineStep_inv (hs : s.Inv) (h : engineStep s = .next t) : t.Inv := by
  cases hp : s.pending with
  | none =>
    rw [engineStep_of_idle hp] at h
    exact Host.Outcome.next.inj h ▸ hs
  | some w =>
    rw [engineStep_of_pending hp] at h
    unfold runWord at h
    split at h
    next i _ => exact (completes_of_exec h).inv hs
    next => exact (failWith_eq_next_iff _ _ _).1 h ▸ hs.completeErr _

end

end Sys2Proof.Machine

/-! The invariant at reset (O23) and under the host port and rst_n, and so under every step (O24). -/

namespace Sys2Proof.Machine

section
variable {s t : State}

theorem reset_inv : State.reset.Inv where
  params := by decide
  lmem := ⟨List.Pairwise.nil, fun _ h => absurd h List.not_mem_nil⟩
  coef := List.length_replicate
  acc := .empty _
  huf := .empty List.length_replicate
  engine := ⟨.inl rfl, fun hb => Bool.noConfusion hb⟩
  errcode := .inl rfl
  lzwNext := .inl rfl
  held := fun _ => rfl

theorem State.Inv.cleared (h : s.Inv) : s.cleared.Inv :=
  { reset_inv with params := h.params, lmem := h.lmem, acc := .empty _, held := fun _ => rfl }

/-- A hardware reset holding or releasing at either level (70_reset_and_hazards.md R451). -/
theorem State.Inv.hardReset (h : s.Inv) (level : Bool) : State.Inv { s.hardReset with rstN := level } :=
  { h.cleared with
    lmem := ⟨List.Pairwise.nil, fun _ hc => absurd hc List.not_mem_nil⟩
    held := fun _ => rfl }

theorem State.Inv.resetPin (h : s.Inv) (level : Bool) : (s.resetPin level).Inv := by
  unfold State.resetPin
  split_ifs
  · exact h.hardReset false
  · exact h
  · exact h.hardReset true

/-- An abort spoils only bytes of LMEM (70_reset_and_hazards.md R453). -/
theorem abortAddrs_lt {i : Instr} {a : Nat} (ha : a ∈ abortAddrs i s) : a < s.params.lmemSize := by
  have region : ∀ n, a ∈ (if s.inRange s.dst n then regionAddrs s.dst n else []) → a < s.params.lmemSize := by
    intro n h
    split_ifs at h with hr
    · exact State.mem_regionAddrs_lt hr h
    · cases h
  have block : a ∈ (if s.inRange s.dst s.footprint then s.blockAddrs s.dst else []) → a < s.params.lmemSize := by
    intro h
    split_ifs at h with hr
    · exact State.mem_blockAddrs_lt hr h
    · cases h
  cases i with
  | bsFlush | hufEncode | hufDecode | lzwEncode | lzwDecode => exact region s.dstCap ha
  | dctFrame => exact region s.frameBytes ha
  | dctInv | dctBlock => exact block ha
  | _ => cases ha

theorem State.Inv.abort (h : s.Inv) : s.abort.Inv := by
  unfold State.abort
  split
  · exact h
  · split
    · exact h
    · exact h.spoil fun _ ha => abortAddrs_lt ha

theorem State.Inv.softReset (h : s.Inv) : s.softReset.Inv := h.abort.cleared

theorem State.Inv.launch (h : s.Inv) (hrst : s.rstN = true) (w : Word) : (s.launch w).Inv :=
  { h with
    engine := ⟨.inr rfl, fun _ => ⟨rfl, rfl, rfl⟩⟩
    errcode := .inl rfl
    held := fun hlow => Bool.noConfusion (hrst.symm.trans hlow) }

/-- Clearing flags keeps a busy engine's flags at 0. -/
theorem State.Inv.writeStatus (h : s.Inv) (v : Word) : (s.writeStatus v).Inv :=
  { h with
    engine := by
      refine ⟨h.engine.1, fun hb => ?_⟩
      obtain ⟨hdone, herr, hcode⟩ := h.engine.2 hb
      simp [State.writeStatus, hdone, herr, hcode] }

theorem State.Inv.withWrWhileBusy (h : s.Inv) (b : Bool) :
    State.Inv { s with status := { s.status with wrWhileBusy := b } } := { h with }

theorem State.Inv.writeCtrl (h : s.Inv) (v : Word) : (s.writeCtrl v).Inv := by
  unfold State.writeCtrl
  split_ifs
  · exact h.softReset
  · exact h.withIrqEn _

theorem State.Inv.writeReg (h : s.Inv) (hrst : s.rstN = true) (r : Reg) (v : Word) : (s.writeReg r v).Inv := by
  cases r with
  | ctrl => exact h.writeCtrl v
  | status => exact h.writeStatus v
  | cmd => exact h.launch hrst v
  | coef i => exact h.withCoef (List.length_set.trans h.coef)
  | _ => exact h.withRegs _

@[simp] theorem leBytes_length (v : Word) (n : Nat) : (leBytes v n).length = n := by simp [leBytes]

/-- An accepted access of the LMEM window lies inside LMEM (20_memory.md R103). -/
theorem State.le_of_accepts {off : Nat} {w : Width} (ha : s.accepts off w = true) (hoff : ¬off < lmemWindow) :
    off - lmemWindow + w.bytes ≤ s.params.lmemSize := by
  simp only [State.accepts, hoff, if_false, Bool.and_eq_true, decide_eq_true_eq] at ha
  exact ha.2

theorem State.Inv.hostWrite (h : s.Inv) (off : BitVec 20) (w : Width) (v : Word) : (s.hostWrite off w v).Inv := by
  unfold State.hostWrite
  split_ifs with hrst hbusy hacc hoff
  · exact h
  · exact h.withWrWhileBusy true
  · exact h
  · split
    · exact h
    · exact h.writeReg (by simpa using hrst) _ v
  · exact h.writeMem (by simpa using State.le_of_accepts (by simpa using hacc) hoff)

/-- A host read delivers a value and, at most, uses up a draw (20_memory.md R110). -/
theorem State.hostRead_frame (s : State) (off : BitVec 20) (w : Width) :
    s.hostRead off w = { s with rdata := (s.hostRead off w).rdata, draws := (s.hostRead off w).draws } := by
  unfold State.hostRead
  split_ifs
  · rfl
  · rfl
  · split
    · rfl
    · split_ifs <;> rfl
  · rfl
  · rfl

theorem State.Inv.hostRead (h : s.Inv) (off : BitVec 20) (w : Width) : (s.hostRead off w).Inv := by
  rw [State.hostRead_frame]
  exact { h with }

theorem State.Inv.hostAccess (h : s.Inv) (a : Access) : (s.hostAccess a).Inv := by
  cases a with
  | read off w => exact h.hostRead off w
  | write off w v => exact h.hostWrite off w v

end

/-- Settles O23: every store is empty or zero and no command is pending. -/
theorem resetMeetsInvariant : Obligations.ResetMeetsInvariant := reset_inv

/-- Settles O24: the invariant is kept by each agent's move, the host's, the engine's and the reset input's. -/
theorem stepKeepsInvariant : Obligations.StepKeepsInvariant := by
  intro s t hs h
  have hrest : ∀ rest, State.Inv { s with inputs := rest } := hs.withInputs
  cases hi : s.inputs with
  | nil =>
    rw [step_of_no_inputs hi] at h
    exact engineStep_inv hs h
  | cons x rest =>
    cases x with
    | engine =>
      rw [step_of_engine hi] at h
      exact engineStep_inv (hrest rest) h
    | access a =>
      rw [step_of_access hi] at h
      exact Host.Outcome.next.inj h ▸ (hrest rest).hostAccess a
    | reset level =>
      rw [step_of_reset hi] at h
      exact Host.Outcome.next.inj h ▸ (hrest rest).resetPin level

end Sys2Proof.Machine

/-! Register accesses of the host by the register map, and STATUS (O12). -/

namespace Sys2Proof.Machine

/-! The register map read both ways (10_state.md R41). -/

theorem offset_of_regAt {off : Nat} {r : Reg} (h : regAt off = some r) : r.offset = off := by
  unfold regAt at h
  split at h
  any_goals (cases h; rfl)
  split_ifs at h <;> cases h <;> simp only [Reg.offset, Fin.ofNat] <;> omega

theorem regAt_offset (r : Reg) : regAt r.offset = some r := by
  cases r with
  | codeWord k => revert k; decide
  | coef i => revert i; decide +kernel
  | freq c => revert c; decide +kernel
  | _ => rfl

theorem regAt_eq_some_iff {off : Nat} {r : Reg} : regAt off = some r ↔ r.offset = off :=
  ⟨offset_of_regAt, fun h => h ▸ regAt_offset r⟩

theorem regAt_eq_none_iff {off : Nat} : regAt off = none ↔ ∀ r : Reg, r.offset ≠ off := by
  simp only [Option.eq_none_iff_forall_ne_some, ne_eq, regAt_eq_some_iff]

theorem Reg.offset_toNat (r : Reg) : (BitVec.ofNat 20 r.offset).toNat = r.offset := by
  have h := r.offset_lt
  unfold lmemWindow at h
  exact BitVec.toNat_ofNat _ _ ▸ Nat.mod_eq_of_lt (by omega)

section
variable {s : State}

/-- A 32-bit access at a multiple of 4 below the LMEM window is accepted (20_memory.md R103). -/
theorem State.accepts_below_window {off : Nat} (hoff : off < lmemWindow) (hal : off % 4 = 0) :
    s.accepts off .w32 = true := by
  simp [State.accepts, hoff, hal]

theorem toCtrlOrStatus_offset {r : Reg} (hr : r = .ctrl ∨ r = .status) : toCtrlOrStatus r.offset = true := by
  rcases hr with rfl | rfl <;> decide

/-- A 32-bit read of a register that is not hidden by a pending command returns its value. -/
theorem State.hostRead_reg (hrst : s.rstN = true) (r : Reg) (hb : s.busy = false ∨ r.readableBusy = true) :
    s.hostRead (BitVec.ofNat 20 r.offset) .w32 = s.readValue (readReg s r) := by
  have hread : (s.busy && !r.readableBusy) = false := by rcases hb with h | h <;> simp [h]
  simp [State.hostRead, hrst, r.offset_toNat, r.offset_lt, State.accepts_below_window r.offset_lt r.offset_aligned,
    regAt_offset, hread]

/-- A 32-bit write of a register, of CTRL and STATUS at any time, is performed. -/
theorem State.hostWrite_reg (hrst : s.rstN = true) (r : Reg) (hb : s.busy = false ∨ r = .ctrl ∨ r = .status)
    (v : Word) : s.hostWrite (BitVec.ofNat 20 r.offset) .w32 v = s.writeReg r v := by
  have hopen : (s.busy && !toCtrlOrStatus r.offset) = false := by
    rcases hb with h | h
    · rw [h, Bool.false_and]
    · rw [toCtrlOrStatus_offset h, Bool.not_true, Bool.and_false]
  simp [State.hostWrite, hrst, r.offset_toNat, r.offset_lt, State.accepts_below_window r.offset_lt r.offset_aligned,
    regAt_offset, hopen]

section
variable {off : BitVec 20} (hrst : s.rstN = true) (hoff : off.toNat < lmemWindow) (hal : off.toNat % 4 = 0)
  (hun : ∀ r : Reg, r.offset ≠ off.toNat)
include hrst hoff hal hun

theorem State.hostRead_unmapped : s.hostRead off .w32 = s.readValue 0 := by
  simp [State.hostRead, hrst, hoff, State.accepts_below_window hoff hal, regAt_eq_none_iff.2 hun]

theorem State.hostWrite_unmapped (hb : s.busy = false) (v : Word) : s.hostWrite off .w32 v = s := by
  simp [State.hostWrite, hrst, hb, hoff, State.accepts_below_window hoff hal, regAt_eq_none_iff.2 hun]

end

end

/-! STATUS (10_state.md R45). -/

theorem toNat_append_eq_add {n m : Nat} (x : BitVec n) (y : BitVec m) :
    (x ++ y).toNat = x.toNat * 2 ^ m + y.toNat := by
  rw [BitVec.toNat_append, ← Nat.shiftLeft_add_eq_or_of_lt y.isLt, Nat.shiftLeft_eq]

@[simp] theorem flagBit_toNat (b : Bool) : (flagBit b).toNat = b.toNat := by cases b <;> rfl

theorem statusWord_toNat (s : State) :
    (statusWord s).toNat =
      s.busy.toNat + 2 * s.status.done.toNat + 4 * s.status.err.toNat + 8 * s.status.wrWhileBusy.toNat +
        256 * s.status.errcode.toNat := by
  simp only [statusWord, toNat_append_eq_add, flagBit_toNat, BitVec.toNat_ofNat]
  omega

/-- Settles O12: the word is the sum of its fields, and a write of STATUS is performed busy or idle. -/
theorem statusRegisterReadsAndClears : Obligations.StatusRegisterReadsAndClears := fun s =>
  ⟨statusWord_toNat s, fun v hrst => State.hostWrite_reg hrst .status (.inr (.inr rfl)) v⟩

end Sys2Proof.Machine

/-! The registers on an idle machine (O15). -/

namespace Sys2Proof.Machine

section
variable {s : State} {v : Word} {p : Nat × Reg × Nat}

/-! The operand registers (10_state.md R47-R50, R53-R57, R61, R64, R65), by the table of their offsets and widths. -/

theorem offset_of_mem_operandMap (hp : p ∈ operandMap) : p.2.1.offset = p.1 := by
  revert p; decide

theorem writeReg_of_mem_operandMap (s : State) (v : Word) (hp : p ∈ operandMap) :
    s.writeReg p.2.1 v = { s with regs := s.regs.set p.2.1 v } := by
  revert p
  simp [operandMap, State.writeReg]

theorem toNat_eq_mod_word (v : Word) : v.toNat = v.toNat % 2 ^ 32 := (Nat.mod_eq_of_lt v.isLt).symm

/-- A field of `n` bits of a written word, as a register reads it. -/
theorem toNat_field (n : Nat) (hn : n ≤ 32) (v : Word) : ((v.setWidth n).setWidth 32).toNat = v.toNat % 2 ^ n := by
  rw [BitVec.toNat_setWidth, BitVec.toNat_setWidth]
  exact Nat.mod_eq_of_lt ((Nat.mod_lt _ (Nat.two_pow_pos n)).trans_le (Nat.pow_le_pow_right (by decide) hn))

/-- A written operand register reads back the value's low bits. -/
theorem readReg_set_self (s : State) (v : Word) (hp : p ∈ operandMap) :
    (readReg { s with regs := s.regs.set p.2.1 v } p.2.1).toNat = v.toNat % 2 ^ p.2.2 := by
  have word := toNat_eq_mod_word v
  have field (n : Nat) (hn : n ≤ 32) := toNat_field n hn v
  revert p
  simp only [operandMap, List.forall_mem_cons]
  exact ⟨word, word, word, word, word, field 16 (by decide), field 16 (by decide), field 16 (by decide),
    field 16 (by decide), field 3 (by decide), field 8 (by decide), word, field 3 (by decide), List.forall_mem_nil _⟩

theorem readReg_set_other (s : State) (v : Word) : ∀ p ∈ operandMap, ∀ q ∈ operandMap, q.1 ≠ p.1 →
    readReg { s with regs := s.regs.set p.2.1 v } q.2.1 = readReg s q.2.1 := by
  simp [operandMap, readReg, OperandRegs.set]

theorem operandRegister_readsBack (hrst : s.rstN = true) (hb : s.busy = false) (v : Word) (hp : p ∈ operandMap) :
    ∃ g : OperandRegs,
      s.hostWrite (BitVec.ofNat 20 p.1) .w32 v = { s with regs := g } ∧
        (State.hostRead { s with regs := g } (BitVec.ofNat 20 p.1) .w32).rdata.toNat = v.toNat % 2 ^ p.2.2 ∧
        ∀ q ∈ operandMap, q.1 ≠ p.1 → readReg { s with regs := g } q.2.1 = readReg s q.2.1 := by
  refine ⟨s.regs.set p.2.1 v, ?_, ?_, readReg_set_other s v p hp⟩
  · rw [← offset_of_mem_operandMap hp, State.hostWrite_reg hrst _ (.inl hb), writeReg_of_mem_operandMap s v hp]
  · rw [← offset_of_mem_operandMap hp]
    have hread := State.hostRead_reg (s := { s with regs := s.regs.set p.2.1 v }) hrst p.2.1 (.inl hb)
    rw [hread]
    exact readReg_set_self s v hp

/-- A written COEF entry reads back whole, and no other entry changes (10_state.md R68). -/
theorem coefRegister_readsBack (hrst : s.rstN = true) (hb : s.busy = false) (v : Word) (i : Fin 64)
    (hC : s.coef.length = 64) :
    ∃ C : List Word, C.length = 64 ∧
      s.hostWrite (BitVec.ofNat 20 (0x1000 + 4 * i.val)) .w32 v = { s with coef := C } ∧
        ∀ j : Fin 64, (State.hostRead { s with coef := C } (BitVec.ofNat 20 (0x1000 + 4 * j.val)) .w32).rdata =
          if j = i then v else s.coef.getD j.val 0 := by
  refine ⟨s.coef.set i.val v, List.length_set.trans hC, State.hostWrite_reg hrst (.coef i) (.inl hb) v, fun j => ?_⟩
  have hread := State.hostRead_reg (s := { s with coef := s.coef.set i.val v }) hrst (.coef j) (.inl hb)
  simp only [Reg.offset] at hread
  rw [hread]
  simp [readReg, hC, List.getElem_set, Fin.ext_iff, eq_comm]

/-! CTRL (10_state.md R44). -/

@[simp] theorem ctrlWord_toNat (s : State) : (ctrlWord s).toNat = 2 * s.irqEn.toNat := by
  simp only [ctrlWord, toNat_append_eq_add, flagBit_toNat, BitVec.toNat_ofNat]
  omega

theorem State.writeCtrl_of_bit0_clear (s : State) (hv : v.getLsbD 0 = false) :
    s.writeCtrl v = { s with irqEn := v.getLsbD 1 } := by
  simp only [State.writeCtrl, hv, Bool.false_eq_true, if_false]

/-- A register that is not CTRL, STATUS, CMD, an operand register or a COEF entry ignores a write (10_state.md R42). -/
theorem writeReg_readOnly (s : State) (v : Word) {r : Reg} (hc : r ∉ [Reg.ctrl, .status, .cmd])
    (ho : r ∉ operandMap.map (fun p => p.2.1)) (hcoef : ∀ i, r ≠ .coef i) : s.writeReg r v = s := by
  cases r with
  | ctrl | status | cmd => exact absurd (by decide) hc
  | srcAddr | srcLen | dstAddr | dstCap | magLimit | blkStride | blkStep | frameW | frameH | frameC | codeSel
  | bsData | bsPad => exact absurd (by decide) ho
  | coef i => exact absurd rfl (hcoef i)
  | _ => rfl

end

/-- Settles O15: each clause is the rule of a register's read or write on an idle machine. -/
theorem registersReadBackTheirBits : Obligations.RegistersReadBackTheirBits := by
  intro s v hrst hb
  refine ⟨fun r => State.hostRead_reg hrst r (.inl hb), ?_, fun p hp => operandRegister_readsBack hrst hb v hp,
    fun i hC => coefRegister_readsBack hrst hb v i hC, fun hv => ?_, fun r hc ho hcoef => ?_,
    fun off hoff hal hun =>
      ⟨State.hostWrite_unmapped hrst hoff hal hun hb v, State.hostRead_unmapped hrst hoff hal hun⟩⟩
  · exact ⟨rfl, rfl, rfl, rfl, rfl, rfl, rfl, BitVec.toNat_setWidth_of_le (by decide), rfl, rfl, rfl, fun _ => rfl⟩
  · have hw : s.hostWrite 0x00004 .w32 v = { s with irqEn := v.getLsbD 1 } :=
      (State.hostWrite_reg hrst .ctrl (.inl hb) v).trans (s.writeCtrl_of_bit0_clear hv)
    refine ⟨hw, ?_⟩
    have hr := State.hostRead_reg (s := { s with irqEn := v.getLsbD 1 }) hrst .ctrl (.inl hb)
    rw [hw]
    exact (congrArg (fun u => u.rdata.toNat) hr).trans (ctrlWord_toNat _)
  · rw [State.hostWrite_reg hrst r (.inl hb), writeReg_readOnly s v hc ho hcoef]

end Sys2Proof.Machine

/-! The views of the Huffman stores (O18) and the reset values (O19). -/

namespace Sys2Proof.Machine

/-! HUF_INFO, CODE_LEN and CODE_WORDk (10_state.md R60, R62, R63). -/

theorem hufInfo_toNat {s : State} (h : ∀ t, s.huf.tree = some t → t.nodes ≤ 511) :
    (hufInfo s).toNat =
      (s.huf.tree.map HufTree.leaves).getD 0 + 65536 * (s.huf.tree.map HufTree.nodes).getD 0 +
        2 ^ 30 * s.huf.codes.isSome.toNat + 2 ^ 31 * s.huf.tree.isSome.toNat := by
  have hfit : (s.huf.tree.map HufTree.leaves).getD 0 < 512 ∧ (s.huf.tree.map HufTree.nodes).getD 0 < 512 := by
    cases ht : s.huf.tree with
    | none => simp
    | some t =>
      have hn := h t ht
      have hl := t.nodes_add_one
      simp only [Option.map_some, Option.getD_some]
      omega
  simp only [hufInfo, toNat_append_eq_add, flagBit_toNat, BitVec.toNat_ofNat]
  omega

theorem codeLen_toNat {s : State} (h : (selectedCode s).length ≤ 255) :
    (codeLen s).toNat = (selectedCode s).length := by
  simp only [codeLen, BitVec.toNat_setWidth, BitVec.toNat_ofNat]
  omega

theorem bitsToNat_concat (b : Bits) (e : Bool) : bitsToNat (b ++ [e]) = 2 * bitsToNat b + bitNat e := by
  simp [bitsToNat]

/-- The first bit is the most significant (41_bitstream.md R221). -/
theorem bitsToNat_testBit (b : Bits) {i : Nat} (hi : i < b.length) :
    (bitsToNat b).testBit i = b.getD (b.length - 1 - i) false := by
  induction b using List.reverseRecOn generalizing i with
  | nil => cases hi
  | append_singleton b e ih =>
    rw [bitsToNat_concat]
    cases i with
    | zero => cases e <;> simp [bitNat, Nat.testBit_zero]
    | succ i =>
      simp only [List.length_append, List.length_singleton] at hi ⊢
      have hhalf : (2 * bitsToNat b + bitNat e) / 2 = bitsToNat b := by
        have : bitNat e ≤ 1 := by cases e <;> decide
        omega
      have hidx : b.length + 1 - 1 - (i + 1) = b.length - 1 - i := by omega
      rw [Nat.testBit_succ, hhalf, ih (by omega), hidx, List.getD_append _ _ _ _ (by omega)]

/-- Bit 255 - m of the left-aligned code is its element m, 0 past its end. -/
theorem codeValue_getLsbD {b : Bits} (hb : b.length ≤ 255) {m : Nat} (hm : m < 256) :
    (codeValue b).getLsbD (255 - m) = b.getD m false := by
  have hlen : (b ++ List.replicate (256 - b.length) false).length = 256 := by
    rw [List.length_append, List.length_replicate]; omega
  have hidx : 256 - 1 - (255 - m) = m := by omega
  rw [codeValue, BitVec.getLsbD_ofNat, bitsToNat_testBit _ (by omega), hlen, hidx]
  have hlt : 255 - m < 256 := by omega
  simp only [hlt, decide_true, Bool.true_and]
  rcases Nat.lt_or_ge m b.length with h | h
  · exact List.getD_append _ _ _ _ h
  · rw [List.getD_append_right _ _ _ _ h, List.getD_eq_default _ _ h]
    simp [List.getD]

theorem codeWord_getLsbD {s : State} (hb : (selectedCode s).length ≤ 255) (k : Fin 8) {j : Nat} (hj : j < 32) :
    (codeWord s k.val).getLsbD (31 - j) = (selectedCode s).getD (32 * k.val + j) false := by
  have hk := k.isLt
  have hidx : 224 - 32 * k.val + (31 - j) = 255 - (32 * k.val + j) := by omega
  have hlt : 31 - j < 32 := by omega
  rw [codeWord, BitVec.getLsbD_extractLsb', hidx, codeValue_getLsbD hb (by omega), decide_eq_true hlt, Bool.true_and]

/-- Settles O18: the fields of HUF_INFO do not overlap, and a bit of CODE_WORDk is a bit of the left-aligned code. -/
theorem huffmanViewRegisters : Obligations.HuffmanViewRegisters := by
  refine ⟨fun s h => hufInfo_toNat h, ?_⟩
  rintro s _ rfl hb
  exact ⟨codeLen_toNat hb, fun k j hj => codeWord_getLsbD hb k hj⟩

/-! The reset values (10_state.md R80). -/

theorem readReg_reset {r : Reg} (hr : r ≠ .id) : readReg State.reset r = 0 := by
  cases r with
  | id => exact absurd rfl hr
  | codeWord k => revert k; decide +kernel
  | coef i => exact List.getD_replicate _ i.isLt
  | freq c => exact List.getD_replicate _ c.isLt
  | _ => rfl

/-- Settles O19: each register is read from the reset state. -/
theorem resetValues : Obligations.ResetValues :=
  ⟨rfl, fun _ hr => readReg_reset hr, rfl, rfl, rfl, rfl, rfl, rfl, 0, fun _ => rfl⟩

end Sys2Proof.Machine

/-! The LMEM window of the host port (O16) and the accesses the port does not accept (O17). -/

namespace Sys2Proof.Machine

/-! Little-endian byte sequences (20_memory.md R104): digits in base 256, least significant first. -/

theorem leNat_eq_ofDigits (bs : List Byte) : leNat bs = Nat.ofDigits 256 (bs.map BitVec.toNat) := by
  induction bs with
  | nil => rfl
  | cons b bs ih => rw [leNat, ih, List.map_cons, Nat.ofDigits_cons]

theorem leNat_lt (bs : List Byte) : leNat bs < 256 ^ bs.length := by
  have hdigit : ∀ d ∈ bs.map BitVec.toNat, d < 256 := by
    simp only [List.forall_mem_map]
    exact fun b _ => b.isLt
  have h := Nat.ofDigits_lt_base_pow_length (by decide) hdigit
  rwa [List.length_map, ← leNat_eq_ofDigits] at h

theorem leNat_concat (bs : List Byte) (b : Byte) : leNat (bs ++ [b]) = leNat bs + b.toNat * 256 ^ bs.length := by
  simp only [leNat_eq_ofDigits, List.map_append, Nat.ofDigits_append, List.length_map, List.map_cons, List.map_nil,
    Nat.ofDigits_singleton, Nat.mul_comm]

theorem leNat_map_range (f : Nat → Byte) (n : Nat) :
    leNat ((List.range n).map f) = ((List.range n).map fun k => (f k).toNat * 256 ^ k).sum := by
  induction n with
  | zero => rfl
  | succ n ih => simp [List.range_succ, leNat_concat, ih]

/-- The low bytes of a word spell its residue. -/
theorem leNat_leBytes (v : Word) (n : Nat) : leNat (leBytes v n) = v.toNat % 2 ^ (8 * n) := by
  have hpow (m : Nat) : 2 ^ (8 * m) = 256 ^ m := Nat.pow_mul 2 8 m
  rw [hpow]
  induction n with
  | zero => exact (Nat.mod_one _).symm
  | succ n ih =>
    have hstep : leBytes v (n + 1) = leBytes v n ++ [v.extractLsb' (8 * n) 8] := by
      simp [leBytes, List.range_succ]
    rw [hstep, leNat_concat, ih, leBytes_length, BitVec.extractLsb'_toNat, Nat.shiftRight_eq_div_pow, hpow,
      Nat.mod_pow_succ (b := 256), Nat.mul_comm]

theorem leBytes_getD (v : Word) {n k : Nat} (hk : k < n) : (leBytes v n).getD k 0 = v.extractLsb' (8 * k) 8 := by
  simp [leBytes, List.getD, hk]

theorem Width.bytes_le (w : Width) : w.bytes ≤ 4 := by cases w <;> decide

section
variable {s : State} {off : BitVec 20} {w : Width} (hrst : s.rstN = true)

/-! Accepted accesses of the window (20_memory.md R102-R104). -/

section
variable (hb : s.busy = false) (hoff : lmemWindow ≤ off.toNat) (hacc : s.accepts off.toNat w = true)
include hrst hb hoff hacc

theorem State.hostWrite_window (v : Word) :
    s.hostWrite off w v = s.writeMem (off.toNat - lmemWindow) (leBytes v w.bytes) := by
  simp [State.hostWrite, hrst, hb, hacc, Nat.not_lt.2 hoff]

theorem State.hostRead_window :
    s.hostRead off w = s.readValue (BitVec.ofNat 32 (leNat (s.readMem (off.toNat - lmemWindow) w.bytes))) := by
  simp [State.hostRead, hrst, hb, hacc, Nat.not_lt.2 hoff]

theorem State.readByte_hostWrite_window (v : Word) (a : Nat) :
    (s.hostWrite off w v).readByte a =
      if off.toNat - lmemWindow ≤ a ∧ a < off.toNat - lmemWindow + w.bytes then
        v.extractLsb' (8 * (a - (off.toNat - lmemWindow))) 8
      else s.readByte a := by
  rw [State.hostWrite_window hrst hb hoff hacc, State.readByte_writeMem, leBytes_length]
  split_ifs with ha
  · exact leBytes_getD v (by omega)
  · rfl

/-- The number the bytes spell fits in the 32 bits a read returns. -/
theorem State.hostRead_window_toNat :
    (s.hostRead off w).rdata.toNat = leNat (s.readMem (off.toNat - lmemWindow) w.bytes) := by
  have hlt := leNat_lt (s.readMem (off.toNat - lmemWindow) w.bytes)
  rw [State.readMem_length] at hlt
  have hword : 256 ^ w.bytes ≤ 2 ^ 32 := Nat.pow_le_pow_right (by decide : 0 < 256) w.bytes_le
  rw [State.hostRead_window hrst hb hoff hacc]
  exact Nat.mod_eq_of_lt (hlt.trans_le hword)

theorem State.hostRead_hostWrite_window_toNat (v : Word) :
    ((s.hostWrite off w v).hostRead off w).rdata.toNat = v.toNat % 2 ^ (8 * w.bytes) := by
  have hself := s.readMem_writeMem_self (off.toNat - lmemWindow) (leBytes v w.bytes)
  rw [leBytes_length] at hself
  rw [State.hostWrite_window hrst hb hoff hacc,
    State.hostRead_window_toNat (s := s.writeMem _ _) hrst hb hoff hacc, hself, leNat_leBytes]

end

/-! Accesses that are not accepted (20_memory.md R103). -/

theorem State.accepts_eq_false_iff {off : Nat} :
    s.accepts off w = false ↔
      if off < lmemWindow then w ≠ .w32 ∨ off % 4 ≠ 0
      else off % w.bytes ≠ 0 ∨ s.params.lmemSize < off - lmemWindow + w.bytes := by
  unfold State.accepts
  split_ifs <;> simp [imp_iff_not_or]

section
variable (hacc : s.accepts off.toNat w = false)
include hrst hacc

theorem State.hostWrite_not_accepted (hb : s.busy = false) (v : Word) : s.hostWrite off w v = s := by
  simp [State.hostWrite, hrst, hb, hacc]

theorem State.hostRead_not_accepted : s.hostRead off w = s.readValue 0 := by
  simp [State.hostRead, hrst, hacc]

end

end

/-- Settles O16: an accepted access of the window writes or reads the bytes at its place, digits in base 256 of its value. -/
theorem lmemWindowIsLittleEndian : Obligations.LmemWindowIsLittleEndian := by
  intro s off w v hrst hb hoff hal hfit
  have hacc : s.accepts off.toNat w = true := by
    simp [State.accepts, lmemWindow, Nat.not_lt.2 hoff, hal, hfit]
  have hbyte := State.readByte_hostWrite_window hrst hb hoff hacc v
  refine ⟨fun k hk => ?_, fun a ha => ?_, State.hostRead_hostWrite_window_toNat hrst hb hoff hacc v, ?_⟩
  · have hin := hbyte (off.toNat - lmemWindow + k)
    rwa [if_pos ⟨Nat.le_add_right _ _, Nat.add_lt_add_left hk _⟩, Nat.add_sub_cancel_left] at hin
  · exact (hbyte a).trans (if_neg fun hin => by unfold lmemWindow at hin; omega)
  · exact (State.hostRead_window_toNat hrst hb hoff hacc).trans (leNat_map_range _ _)

/-- Settles O17: the port accepts no such access. -/
theorem illPlacedAccessIsIgnored : Obligations.IllPlacedAccessIsIgnored := by
  intro s off w v hrst hb hill
  have hacc : s.accepts off.toNat w = false := State.accepts_eq_false_iff.2 hill
  exact ⟨State.hostWrite_not_accepted hrst hacc hb v, State.hostRead_not_accepted hrst hacc⟩

end Sys2Proof.Machine

/-! The decoder and the encoder: which words decode, and to what (O1, O2, O3). -/

namespace Sys2Proof

/-! A row's answer by its format (30_encoding.md R147). -/

section
variable {arg : Nat} {i j : Instr} {f : Nat → Instr}

@[simp] theorem decodeF0_eq_ok_iff : decodeF0 arg j = .ok i ↔ arg = 0 ∧ j = i := by
  unfold decodeF0; split_ifs <;> simp [*]

@[simp] theorem decodeF1_eq_ok_iff : decodeF1 arg f = .ok i ↔ countOk arg = true ∧ f arg = i := by
  unfold decodeF1; split_ifs <;> simp [*]

@[simp] theorem exists_decodeF0_eq_error_iff : (∃ r, decodeF0 arg j = .error r) ↔ arg ≠ 0 := by
  unfold decodeF0; split_ifs <;> simp [*]

@[simp] theorem exists_decodeF1_eq_error_iff : (∃ r, decodeF1 arg f = .error r) ↔ arg = 0 ∨ 32 < arg := by
  unfold decodeF1 countOk; split_ifs with h <;> simp at h ⊢ <;> omega

end

/-! The opcode map (30_encoding.md R144, R145). -/

/-- The row of a well-formed command's opcode answers that command. -/
theorem decodeRow_of_wf {i : Instr} (h : i.wf = true) : decodeRow i.opc i.arg = .ok i := by
  cases i with
  | bsPut n | bsGet n => exact decodeF1_eq_ok_iff.2 ⟨h, rfl⟩
  | _ => rfl

theorem fields_of_decodeRow {opc arg : Nat} {i : Instr} (h : decodeRow opc arg = .ok i) :
    i.wf = true ∧ i.opc = opc ∧ i.arg = arg := by
  unfold decodeRow at h
  split at h
  case h_3 | h_6 =>
    obtain ⟨hcount, rfl⟩ := decodeF1_eq_ok_iff.1 h
    exact ⟨hcount, rfl, rfl⟩
  case h_19 => cases h
  all_goals
    obtain ⟨rfl, rfl⟩ := decodeF0_eq_ok_iff.1 h
    exact ⟨rfl, rfl, rfl⟩

theorem decodeRow_eq_ok_iff {opc arg : Nat} {i : Instr} :
    decodeRow opc arg = .ok i ↔ i.wf = true ∧ i.opc = opc ∧ i.arg = arg := by
  refine ⟨fields_of_decodeRow, ?_⟩
  rintro ⟨hwf, rfl, rfl⟩
  exact decodeRow_of_wf hwf

/-- The pairs of OPC and ARG that are no command (30_encoding.md R145). -/
theorem exists_decodeRow_eq_error_iff {opc arg : Nat} :
    (∃ r, decodeRow opc arg = .error r) ↔
      opc ∉ [0x00, 0x10, 0x11, 0x12, 0x13, 0x14, 0x20, 0x21, 0x22, 0x23, 0x24, 0x30, 0x31, 0x40, 0x41, 0x42, 0x43,
          0x44] ∨
        (opc ≠ 0x11 ∧ opc ≠ 0x14 ∧ arg ≠ 0) ∨ ((opc = 0x11 ∨ opc = 0x14) ∧ (arg = 0 ∨ 32 < arg)) := by
  unfold decodeRow
  split
  case h_19 =>
    refine iff_of_true ⟨_, rfl⟩ (.inl ?_)
    simp only [List.mem_cons, List.not_mem_nil, or_false, not_or]
    and_intros <;> assumption
  all_goals simp

/-! The fields of a word (30_encoding.md R141). -/

theorem opcField_eq (w : Word) : opcField w = w.toNat % 256 := by simp [opcField]

theorem argField_eq (w : Word) : argField w = w.toNat / 256 % 256 := by
  simp [argField, Nat.shiftRight_eq_div_pow]

theorem rsvField_eq (w : Word) : rsvField w = w.toNat / 65536 := by
  have hw := w.isLt
  simp only [rsvField, BitVec.extractLsb'_toNat, Nat.shiftRight_eq_div_pow]
  omega

/-- A word is its three fields. -/
theorem word_eq_of_fields {v w : Word} (hr : rsvField v = rsvField w) (ha : argField v = argField w)
    (ho : opcField v = opcField w) : v = w := by
  rw [rsvField_eq, rsvField_eq] at hr
  rw [argField_eq, argField_eq] at ha
  rw [opcField_eq, opcField_eq] at ho
  exact BitVec.eq_of_toNat_eq (by omega)

theorem encode_fields {i : Instr} (h : i.wf = true) :
    rsvField (encode i) = 0 ∧ argField (encode i) = i.arg ∧ opcField (encode i) = i.opc := by
  cases i with
  | nop => exact Laws.EncodedFields.nop h
  | bsClear => exact Laws.EncodedFields.bsClear h
  | bsPut n => exact Laws.EncodedFields.bsPut n h
  | bsFlush => exact Laws.EncodedFields.bsFlush h
  | bsLoad => exact Laws.EncodedFields.bsLoad h
  | bsGet n => exact Laws.EncodedFields.bsGet n h
  | hufFreq => exact Laws.EncodedFields.hufFreq h
  | hufTree => exact Laws.EncodedFields.hufTree h
  | hufCodes => exact Laws.EncodedFields.hufCodes h
  | hufEncode => exact Laws.EncodedFields.hufEncode h
  | hufDecode => exact Laws.EncodedFields.hufDecode h
  | lzwEncode => exact Laws.EncodedFields.lzwEncode h
  | lzwDecode => exact Laws.EncodedFields.lzwDecode h
  | dctFwd => exact Laws.EncodedFields.dctFwd h
  | dctQuant => exact Laws.EncodedFields.dctQuant h
  | dctInv => exact Laws.EncodedFields.dctInv h
  | dctBlock => exact Laws.EncodedFields.dctBlock h
  | dctFrame => exact Laws.EncodedFields.dctFrame h

/-! Decoding (30_encoding.md R147). -/

section
variable {w : Word} {i : Instr}

/-- A word decodes to a command exactly when its fields are those of the command. -/
theorem decode_eq_ok_iff :
    decode w = .ok i ↔ i.wf = true ∧ rsvField w = 0 ∧ argField w = i.arg ∧ opcField w = i.opc := by
  unfold decode
  split_ifs with hr
  · rw [decodeRow_eq_ok_iff]
    exact ⟨fun ⟨hwf, ho, ha⟩ => ⟨hwf, hr, ha.symm, ho.symm⟩, fun ⟨hwf, _, ha, ho⟩ => ⟨hwf, ho.symm, ha.symm⟩⟩
  · exact iff_of_false nofun fun ⟨_, hr', _⟩ => hr hr'

theorem decode_encode (h : i.wf = true) : decode (encode i) = .ok i :=
  decode_eq_ok_iff.2 ⟨h, encode_fields h⟩

theorem encode_of_decode (h : decode w = .ok i) : encode i = w := by
  obtain ⟨hwf, hr, ha, ho⟩ := decode_eq_ok_iff.1 h
  obtain ⟨hr', ha', ho'⟩ := encode_fields hwf
  exact word_eq_of_fields (hr'.trans hr.symm) (ha'.trans ha.symm) (ho'.trans ho.symm)

theorem exists_decode_eq_error_iff :
    (∃ r, decode w = .error r) ↔ rsvField w ≠ 0 ∨ ∃ r, decodeRow (opcField w) (argField w) = .error r := by
  unfold decode
  split_ifs with hr <;> simp [hr]

end

/-- Settles O2: a word decodes to a command exactly when its three fields are the command's, and a word is its fields. -/
theorem decodeAndEncodeAgree : Obligations.DecodeAndEncodeAgree :=
  ⟨fun _ h => decode_encode h, fun _ _ h => ⟨(decode_eq_ok_iff.1 h).1, encode_of_decode h⟩⟩

/-- Settles O1: the words are encodings of well-formed commands, so they decode to them. -/
theorem workedEncodings : Obligations.WorkedEncodings :=
  ⟨decode_encode (i := .nop) rfl, decode_encode (i := .bsPut 3) rfl, decode_encode (i := .bsPut 32) rfl,
    decode_encode (i := .bsGet 7) rfl, decode_encode (i := .hufEncode) rfl, decode_encode (i := .hufDecode) rfl,
    decode_encode (i := .lzwEncode) rfl, decode_encode (i := .lzwDecode) rfl, decode_encode (i := .dctFrame) rfl,
    rfl, rfl, rfl, rfl, rfl, rfl, rfl, rfl, rfl⟩

end Sys2Proof

/-! A pending word under the engine's turn (O3). -/

namespace Sys2Proof.Machine

theorem runWord_of_decode_ok {w : Word} {i : Instr} (h : decode w = .ok i) (s : State) : runWord w s = exec i s := by
  simp only [runWord, h]

theorem runWord_of_decode_error {w : Word} {r : Illegal} (h : decode w = .error r) (s : State) :
    runWord w s = .next (s.completeErr .illegalCommand) := by
  simp only [runWord, h]
  rfl

/-- The engine takes a step with an empty schedule, and with an engine entry, which it uses up (40_control.md R170; log 4). -/
theorem step_of_engine_turn {s : State} {rest : List Input}
    (h : (s.inputs = [] ∧ rest = []) ∨ s.inputs = .engine :: rest) :
    step s = engineStep { s with inputs := rest } := by
  rcases h with ⟨hs, rfl⟩ | hs
  · rw [step_of_no_inputs hs, ← hs]
  · exact step_of_engine hs

/-- Settles O3: the fields of an illegal word are the ones the opcode map refuses, and the engine completes it with the one error. -/
theorem illegalWordsCompleteWithIllegalCommand : Obligations.IllegalWordsCompleteWithIllegalCommand := by
  refine fun w => ⟨?_, fun s hp ⟨r, hr⟩ rest hrest => ?_⟩
  · rw [exists_decode_eq_error_iff, exists_decodeRow_eq_error_iff, rsvField_eq, argField_eq, opcField_eq]
  · calc step s = engineStep { s with inputs := rest } := step_of_engine_turn hrest
      _ = runWord w { s with inputs := rest } := engineStep_of_pending hp
      _ = _ := runWord_of_decode_error hr _

end Sys2Proof.Machine

/-! A host script that launches a command and waits (O60). -/

namespace Sys2Proof.Machine

/-- Execute is total (40_control.md R173): every command answers a next state. -/
theorem exec_answers (i : Instr) (s : State) : ∃ t, exec i s = .next t := by
  cases i with
  | nop | bsClear | dctQuant => exact ⟨_, rfl⟩
  | bsPut | bsFlush | bsGet | hufFreq | dctFwd | dctInv | dctBlock | dctFrame =>
    simp only [exec, execBsPut, execBsFlush, execBsGet, execHufFreq, execDctFwd, execDctInv, execDctBlock, execDctFrame]
    split_ifs <;> exact ⟨_, rfl⟩
  | bsLoad =>
    simp only [exec, execBsLoad]
    split_ifs
    · exact ⟨_, rfl⟩
    · exact ⟨_, rfl⟩
    · split <;> exact ⟨_, rfl⟩
  | hufTree | hufCodes =>
    simp only [exec, execHufTree, execHufCodes]
    split <;> exact ⟨_, rfl⟩
  | hufEncode | hufDecode | lzwEncode =>
    simp only [exec, execHufEncode, execHufDecode, execLzwEncode]
    split
    · exact ⟨_, rfl⟩
    · split
      · exact ⟨_, rfl⟩
      · split_ifs <;> exact ⟨_, rfl⟩
  | lzwDecode =>
    simp only [exec, execLzwDecode]
    split
    · exact ⟨_, rfl⟩
    · split_ifs
      · exact ⟨_, rfl⟩
      · split
        · exact ⟨_, rfl⟩
        · split_ifs <;> exact ⟨_, rfl⟩

theorem Completes.pending {s t : State} {i : Instr} (h : Completes s i t) : t.pending = none := by
  cases h <;> rfl

theorem busyField_statusWord (s : State) : FieldName.busy.of (statusWord s) = s.busy.toNat := by
  have hb : s.busy.toNat ≤ 1 := s.busy.toNat_le
  simp only [FieldName.of, BitVec.extractLsb'_toNat, Nat.shiftRight_zero, statusWord_toNat]
  omega

/-- A script whose machine has moved to `t`. -/
def HostRun.moved (h : HostRun) (t : State) : HostRun := { h with core := t }

/-- A script just after it has launched a command (30_encoding.md R161). -/
def HostRun.launched (h : HostRun) (i : Instr) : HostRun :=
  (h.moved (h.core.launch (encode i))).advance

/-- A script that has just read STATUS. -/
def HostRun.sawStatus (h : HostRun) : HostRun :=
  { h with core := h.core.readValue (statusWord h.core), seen := (.status, statusWord h.core) :: h.seen }

/-! The turns of a script whose machine has no schedule of its own (30_encoding.md R160, log 15). -/

section
variable {h : HostRun} {i : Instr} {t : State} (hin : h.core.inputs = [])
include hin

/-- The schedule a move puts in place is used up by it. -/
theorem HostRun.withNoInputs_core : { h.core with inputs := [] } = h.core := by rw [← hin]

theorem HostRun.access_of_noInputs (a : Access) : h.access a = some (h.moved (h.core.hostAccess a)) := by
  have hstep := step_of_access (s := { h.core with inputs := [.access a] }) rfl
  simp only [HostRun.access, HostRun.move, hstep, withNoInputs_core hin, HostRun.moved]

theorem HostRun.engineTurn_of_pending (hp : h.core.pending = some (encode i)) (hwf : i.wf = true)
    (ht : exec i h.core = .next t) : h.engineTurn = some (h.moved t) := by
  have hstep := step_of_engine (s := { h.core with inputs := [.engine] }) rfl
  simp only [HostRun.engineTurn, HostRun.move, hstep, withNoInputs_core hin, engineStep_of_pending hp,
    runWord_of_decode_ok (decode_encode hwf), ht, HostRun.moved]

variable (hrst : h.core.rstN = true)
include hrst

theorem HostRun.hostTurn_launch (hb : h.core.busy = false) (hwf : i.wf = true)
    (hpos : h.prog[h.pos]? = some (.launch i)) : h.hostTurn = some (h.launched i) := by
  have hwrite := State.hostWrite_reg hrst .cmd (.inl hb) (encode i)
  simp only [HostRun.hostTurn, hpos, hwf, if_true, access_of_noInputs hin, State.hostAccess, hwrite]
  rfl

theorem HostRun.readReg_status : h.readReg .status = some h.sawStatus := by
  have hread := State.hostRead_reg hrst .status (.inr rfl)
  simp only [HostRun.readReg, access_of_noInputs hin, State.hostAccess, hread]
  rfl

/-- A waiting script reads STATUS and goes on once BUSY is 0 (30_encoding.md R160). -/
theorem HostRun.hostTurn_wait (hpos : h.prog[h.pos]? = some .wait) :
    h.hostTurn = some (if h.core.busy then h.sawStatus else h.sawStatus.advance) := by
  have hfield := busyField_statusWord h.core
  cases hb : h.core.busy <;>
    simp [HostRun.hostTurn, hpos, readReg_status hin hrst, HostRun.sawStatus, hfield, hb]

end

/-- Settles O60: the launch leaves the command pending, so STATUS reads BUSY until the engine has executed it. -/
theorem scriptWaitsForCompletion : Obligations.ScriptWaitsForCompletion := by
  intro h i hwf hin hrst hb hlaunch hwait
  obtain ⟨t, ht⟩ := exec_answers i (h.core.launch (encode i))
  obtain ⟨-, -, -, htin, -, htrst, -⟩ := (completes_of_exec ht).control
  have htb : t.busy = false := congrArg Option.isSome (completes_of_exec ht).pending
  have hstarts := HostRun.hostTurn_launch hin hrst hb hwf hlaunch
  have hwaits := HostRun.hostTurn_wait (h := h.launched i) hin hrst hwait
  have hmoves := HostRun.engineTurn_of_pending (h := h.launched i) hin rfl hwf ht
  have hends := HostRun.hostTurn_wait (h := (h.launched i).moved t) (htin.trans hin) (htrst.trans hrst) hwait
  refine ⟨⟨(h.launched i).sawStatus, ?_, rfl, rfl⟩, ((h.launched i).moved t).sawStatus.advance, t, ?_, rfl, ht, rfl⟩
  · simp only [HostRun.run, hstarts, hwaits]
    rfl
  · simp only [HostRun.run, hstarts, hmoves, hends]
    exact congrArg some (if_neg (by simp [HostRun.moved, htb]))

end Sys2Proof.Machine

/-! The step, the launch and the completions (O4, O5, O6, O25). -/

namespace Sys2Proof.Machine

/-- A pending word that decodes is executed on the engine's turn (40_control.md R170, R183). -/
theorem step_of_decode {s : State} {w : Word} {i : Instr} {rest : List Input} (hp : s.pending = some w)
    (hd : decode w = .ok i) (h : (s.inputs = [] ∧ rest = []) ∨ s.inputs = .engine :: rest) :
    step s = exec i { s with inputs := rest } :=
  calc step s = engineStep { s with inputs := rest } := step_of_engine_turn h
    _ = runWord w { s with inputs := rest } := engineStep_of_pending hp
    _ = exec i { s with inputs := rest } := runWord_of_decode_ok hd _

/-- An idle engine's turn uses up its schedule entry and changes nothing else (log 4, log 18). -/
theorem step_of_idle {s : State} {rest : List Input} (hp : s.pending = none)
    (h : (s.inputs = [] ∧ rest = []) ∨ s.inputs = .engine :: rest) : step s = .next { s with inputs := rest } :=
  (step_of_engine_turn h).trans (engineStep_of_idle hp)

/-- Settles O4: a step by the head of its schedule, and the engine's turn by its pending word. -/
theorem stepRunsDecodedCommand : Obligations.StepRunsDecodedCommand := by
  refine fun s => ⟨fun w i hp hd => ⟨fun hs => ?_, fun rest hs => step_of_decode hp hd (.inr hs)⟩,
    fun hp => ⟨fun hs => ?_, fun rest hs => step_of_idle hp (.inr hs)⟩,
    fun _ _ _ hs => step_of_access hs, fun _ _ _ _ hs => step_of_access hs, fun _ _ hs => step_of_reset hs⟩
  · rw [step_of_no_inputs hs, engineStep_of_pending hp, runWord_of_decode_ok hd]
  · rw [step_of_no_inputs hs, engineStep_of_idle hp]

/-- Settles O5: an idle machine accepts the write, and a write of CMD is a launch. -/
theorem launchEffects : Obligations.LaunchEffects := by
  intro s v rest hs hrst hb
  have hlaunch : State.hostWrite { s with inputs := rest } 0x0000C .w32 v = State.launch { s with inputs := rest } v :=
    State.hostWrite_reg (s := { s with inputs := rest }) hrst .cmd (.inl hb) v
  calc step s = .next (State.hostAccess { s with inputs := rest } (.write 0x0000C .w32 v)) := step_of_access hs
    _ = .next (State.launch { s with inputs := rest } v) := congrArg _ hlaunch
    _ = _ := rfl

/-- Settles O6: the completions and the table of codes, written out. -/
theorem completionEffects : Obligations.CompletionEffects := ⟨fun _ _ _ => rfl, fun _ _ => rfl, rfl⟩

/-- Settles O25: both commands succeed with counts 0, BS_CLEAR from the emptied accumulator. -/
theorem nopAndBsClearComplete : Obligations.NopAndBsClearComplete := by
  obtain ⟨hok, -, -⟩ := completionEffects
  exact ⟨fun s => congrArg Host.Outcome.next (hok s 0 0),
    fun s => congrArg Host.Outcome.next (hok { s with acc := { wbits := [], rbits := [], rpos := 0 } } 0 0)⟩

end Sys2Proof.Machine

/-! Every command completes (O7). -/

namespace Sys2Proof.Machine

section
variable {s t : State} {i : Instr}

/-- Every outcome is a success, or an error completion with one code and the counts 0 (40_control.md R173-R175). -/
theorem Completes.status (h : Completes s i t) :
    t.status = s.status.completed ∨
      ∃ e : ErrCode, t.status = s.status.failed e ∧ t.res.outLen = 0 ∧ t.res.bitCount = 0 := by
  cases h with
  | refusedEarly i e | hufDecodeFailed hc e | lzwFailed i hi hc e => exact .inr ⟨e, rfl, rfl, rfl⟩
  | hufTreeEmpty | hufEncodeEmpty => exact .inr ⟨.emptyInput, rfl, rfl, rfl⟩
  | hufEncodeOverflow => exact .inr ⟨.outputOverflow, rfl, rfl, rfl⟩
  | _ => exact .inl rfl

end

/-- A pending word, command or not, is executed to a next state (40_control.md R173, R183). -/
theorem runWord_answers (w : Word) (s : State) : ∃ t, runWord w s = .next t := by
  cases hd : decode w with
  | ok i => exact runWord_of_decode_ok hd s ▸ exec_answers i s
  | error r => exact ⟨_, runWord_of_decode_error hd s⟩

theorem engineStep_answers (s : State) : ∃ t, engineStep s = .next t := by
  cases hp : s.pending with
  | none => exact ⟨s, engineStep_of_idle hp⟩
  | some w => exact engineStep_of_pending hp ▸ runWord_answers w s

/-- No agent's move stops the machine (60_exceptions.md R400; log 19). -/
theorem step_answers (s : State) : ∃ t, step s = .next t := by
  cases hs : s.inputs with
  | nil => exact step_of_no_inputs hs ▸ engineStep_answers s
  | cons a rest =>
    cases a with
    | access a => exact ⟨_, step_of_access hs⟩
    | engine => exact step_of_engine hs ▸ engineStep_answers _
    | reset level => exact ⟨_, step_of_reset hs⟩

/-- Settles O7: execute is total, and each of its outcomes is one of the two completions. -/
theorem everyCommandCompletes : Obligations.EveryCommandCompletes := by
  refine ⟨fun i s => ?_, step_answers⟩
  obtain ⟨t, ht⟩ := exec_answers i s
  have hc := completes_of_exec ht
  refine ⟨t, ht, hc.pending, ?_⟩
  rcases hc.status with hok | ⟨e, hfail, hcounts⟩
  · rw [hok]
    exact ⟨rfl, rfl, .inl ⟨rfl, rfl⟩⟩
  · rw [hfail]
    exact ⟨rfl, rfl, .inr ⟨rfl, ⟨e, rfl⟩, hcounts⟩⟩

end Sys2Proof.Machine

/-! LMEM under every command (O9). -/

namespace Sys2Proof.Machine

section
variable {s t : State} {i : Instr} {a d n : Nat} {bs : List Byte}

/-- A byte of LMEM depends on the written bytes and the count of hardware resets only (log 3). -/
theorem State.readByte_congr (hl : t.lmem = s.lmem) (he : t.epoch = s.epoch) (a : Nat) :
    t.readByte a = s.readByte a := by
  unfold State.readByte State.unwrittenByte
  rw [hl, he]

theorem State.readByte_writeMem_of_notMem (ha : a ∉ regionAddrs d n) (hn : bs.length ≤ n) :
    (s.writeMem d bs).readByte a = s.readByte a := by
  rw [mem_regionAddrs] at ha
  rw [State.readByte_writeMem, if_neg (by omega)]

/-- Outside the command's destination addresses every outcome leaves LMEM as it was (40_control.md R175, R178). -/
theorem Completes.readByte (h : Completes s i t) (ha : a ∉ s.destAddrs i) : t.readByte a = s.readByte a := by
  cases h with
  | bsFlush _ hlen | hufEncode _ _ _ hlen | hufDecode _ _ _ _ _ hlen | lzwEncode _ _ _ _ hlen
  | lzwDecode _ _ _ _ hlen =>
    exact (State.readByte_congr rfl rfl a).trans (State.readByte_writeMem_of_notMem (s := s) ha hlen)
  | dctFrame _ _ r hr =>
    have hlen : r.out.length ≤ s.frameBytes := by rw [hr, frameLoop_out_length, State.readMem_length]
    exact (State.readByte_congr rfl rfl a).trans (State.readByte_writeMem_of_notMem (s := s) ha hlen)
  | dctInv =>
    -- The samples do not matter here, and unfolding them is costly.
    generalize Machine.inv s.coef = out
    exact (State.readByte_congr rfl rfl a).trans (s.readByte_writeBlock_of_notMem s.dst out a ha)
  | dctBlock _ _ Y =>
    generalize Machine.inv (thr s.limit Y) = out
    exact (State.readByte_congr rfl rfl a).trans (s.readByte_writeBlock_of_notMem s.dst out a ha)
  | hufEncodeEmpty | hufEncodeOverflow | hufDecodeFailed =>
    exact (State.readByte_congr rfl rfl a).trans (s.readByte_spoil_of_notMem _ a ha)
  | lzwFailed _ hi =>
    have hdst : a ∉ regionAddrs s.dst s.dstCap := by rcases hi with rfl | rfl <;> exact ha
    exact (State.readByte_congr rfl rfl a).trans (s.readByte_spoil_of_notMem _ a hdst)
  | _ => exact State.readByte_congr rfl rfl a

end

/-- Settles O9: each outcome stores at destination addresses or not at all. -/
theorem storesStayInDestination : Obligations.StoresStayInDestination :=
  fun _ _ _ h _ ha => (completes_of_exec h).readByte ha

end Sys2Proof.Machine

/-! Bit sequences: the number a sequence spells, the low bits of a word, and the laws of pack and unpack (O30). -/

namespace Sys2Proof.Machine

theorem countOk_iff {n : Nat} : countOk n = true ↔ 1 ≤ n ∧ n ≤ 32 := by simp [countOk]

theorem countOk_eq_false_iff {n : Nat} : countOk n = false ↔ n = 0 ∨ 32 < n := by
  rw [← Bool.not_eq_true, countOk_iff]
  omega

/-! Numbers from bits (41_bitstream.md R221). -/

theorem bitsToNat_lt (b : Bits) : bitsToNat b < 2 ^ b.length := by
  induction b using List.reverseRecOn with
  | nil => exact Nat.one_pos
  | append_singleton b e ih =>
    have he : bitNat e ≤ 1 := by cases e <;> decide
    rw [bitsToNat_concat, List.length_append, List.length_singleton, Nat.pow_succ]
    omega

theorem bitsToNat_testBit_of_length_le (b : Bits) {i : Nat} (hi : b.length ≤ i) : (bitsToNat b).testBit i = false :=
  Nat.testBit_lt_two_pow ((bitsToNat_lt b).trans_le (Nat.pow_le_pow_right Nat.two_pos hi))

/-- The element `k` of the low bits is the word's bit `n - 1 - k` (41_bitstream.md R211). -/
theorem lowBits_eq_map (v : Word) (n : Nat) : lowBits v n = (List.range n).map fun k => v.getLsbD (n - 1 - k) := by
  induction n with
  | zero => rfl
  | succ n ih =>
    rw [lowBits, ih, List.range_succ_eq_map, List.map_cons, List.map_map]
    refine congrArg (_ :: ·) (List.map_congr_left fun k _ => ?_)
    exact congrArg v.getLsbD (by omega)

theorem lowBits_getD (v : Word) {n k : Nat} (hk : k < n) : (lowBits v n).getD k false = v.getLsbD (n - 1 - k) := by
  simp [lowBits_eq_map, List.getD, hk]

/-- The low `n` bits spell the word's residue (41_bitstream.md R225). -/
theorem bitsToNat_lowBits (v : Word) (n : Nat) : bitsToNat (lowBits v n) = v.toNat % 2 ^ n := by
  refine Nat.eq_of_testBit_eq fun i => ?_
  rw [Nat.testBit_mod_two_pow]
  rcases Nat.lt_or_ge i n with hi | hi
  · have hidx : n - 1 - (n - 1 - i) = i := by omega
    rw [bitsToNat_testBit _ (by rwa [lowBits_length]), lowBits_length, lowBits_getD v (by omega), hidx,
      decide_eq_true hi, Bool.true_and]
    rfl
  · rw [bitsToNat_testBit_of_length_le _ (by rwa [lowBits_length]), decide_eq_false (by omega), Bool.false_and]

/-- Element `k` of the `n` elements from `m` on. -/
theorem take_drop_getD (b : Bits) (m : Nat) {n k : Nat} (hk : k < n) :
    ((b.drop m).take n).getD k false = b.getD (m + k) false := by
  simp [List.getD, hk]

/-! Packing (41_bitstream.md R201). -/

theorem padCount_le (n : Nat) : padCount n ≤ 7 := by unfold padCount; omega

theorem padCount_eq_zero_iff {n : Nat} : padCount n = 0 ↔ n % 8 = 0 := by unfold padCount; omega

theorem padded_length (b : Bits) : (padded b).length = 8 * ((b.length + 7) / 8) := by
  simp only [padded, List.length_append, List.length_replicate, padCount]
  omega

@[simp] theorem packBytes_length (b : Bits) : (packBytes b).length = (b.length + 7) / 8 := by
  rw [packBytes, List.length_map, List.length_range, padded_length]
  omega

theorem packBytes_length_sub_padCount (b : Bits) : 8 * ((b.length + 7) / 8) - padCount b.length = b.length := by
  unfold padCount
  omega

/-- The padding is zeros, so a bit read past the end of the sequence is a bit of its padding. -/
theorem padded_getD (b : Bits) (k : Nat) : (padded b).getD k false = b.getD k false := by
  rcases Nat.lt_or_ge k b.length with h | h
  · exact List.getD_append _ _ _ _ h
  · rw [padded, List.getD_append_right _ _ _ _ h, List.getD_eq_default _ _ h]
    rw [List.getD_eq_getElem?_getD, List.getElem?_getD_replicate_default_eq]

theorem byteOfBits_getLsbD {b : Bits} (hb : b.length = 8) {k : Nat} (hk : k < 8) :
    (byteOfBits b).getLsbD (7 - k) = b.getD k false := by
  have hlt : 7 - k < 8 := by omega
  have hidx : 8 - 1 - (7 - k) = k := by omega
  rw [byteOfBits, BitVec.getLsbD_ofNat, decide_eq_true hlt, Bool.true_and, bitsToNat_testBit _ (by omega), hb, hidx]

theorem packedByte_getLsbD (b : Bits) {j k : Nat} (hj : j < (b.length + 7) / 8) (hk : k < 8) :
    (packedByte b j).getLsbD (7 - k) = b.getD (8 * j + k) false := by
  have hlen : (((padded b).drop (8 * j)).take 8).length = 8 := by
    rw [List.length_take, List.length_drop, padded_length]
    omega
  rw [packedByte, byteOfBits_getLsbD hlen hk, take_drop_getD _ _ hk, padded_getD]

theorem packBytes_getD (b : Bits) {j : Nat} (hj : j < (b.length + 7) / 8) :
    (packBytes b).getD j 0 = packedByte b j := by
  rw [← packBytes_length, packBytes, List.length_map, List.length_range] at hj
  rw [packBytes, List.getD, List.getElem?_map, List.getElem?_range hj]
  rfl

/-! Unpacking (41_bitstream.md R202). -/

theorem bitsOfByte_getD (y : Byte) {k : Nat} (hk : k < 8) : (bitsOfByte y).getD k false = y.getLsbD (7 - k) := by
  simp [bitsOfByte, List.getD, hk]

theorem allBits_cons (y : Byte) (ys : List Byte) : allBits (y :: ys) = bitsOfByte y ++ allBits ys := rfl

/-- Bit `k` of a byte sequence stands in byte `k / 8`, the most significant bit first (20_memory.md R106). -/
theorem allBits_getD (y : List Byte) {k : Nat} (hk : k < 8 * y.length) :
    (allBits y).getD k false = (y.getD (k / 8) 0).getLsbD (7 - k % 8) := by
  induction y generalizing k with
  | nil => cases hk
  | cons x y ih =>
    rw [allBits_cons]
    rcases Nat.lt_or_ge k 8 with h | h
    · rw [List.getD_append _ _ _ _ (by rwa [bitsOfByte_length]), bitsOfByte_getD x h, Nat.div_eq_of_lt h,
        Nat.mod_eq_of_lt h, List.getD_cons_zero]
    · obtain ⟨m, rfl⟩ := Nat.exists_eq_add_of_le' h
      have hm : m < 8 * y.length := by rw [List.length_cons] at hk; omega
      rw [List.getD_append_right _ _ _ _ (by rwa [bitsOfByte_length]), bitsOfByte_length, Nat.add_sub_cancel, ih hm,
        Nat.add_div_right m (by decide), Nat.add_mod_right, List.getD_cons_succ]

theorem unpack_eq_none_iff {y : List Byte} {pad : Nat} : unpack y pad = none ↔ 8 * y.length < pad := by
  unfold unpack
  split_ifs with h <;> simp [h]

theorem unpack_of_le {y : List Byte} {pad : Nat} (h : pad ≤ 8 * y.length) :
    unpack y pad = some ((allBits y).take (8 * y.length - pad)) := if_neg (by omega)

/-- Two sequences of one length are equal when their bits are. -/
theorem bits_ext {b c : Bits} (hlen : b.length = c.length) (h : ∀ k < b.length, b.getD k false = c.getD k false) :
    b = c := by
  refine List.ext_getElem hlen fun k hb hc => ?_
  have hk := h k hb
  rwa [List.getD_eq_getElem _ _ hb, List.getD_eq_getElem _ _ hc] at hk

/-- All bits of the packed bytes are the sequence and its padding. -/
theorem allBits_packBytes (b : Bits) : allBits (packBytes b) = padded b := by
  refine bits_ext (by rw [allBits_length, packBytes_length, padded_length]) fun k hk => ?_
  rw [allBits_length] at hk
  have hj : k / 8 < (b.length + 7) / 8 := by rw [packBytes_length] at hk; omega
  rw [allBits_getD _ hk, packBytes_getD b hj, packedByte_getLsbD b hj (Nat.mod_lt _ (by decide)), Nat.div_add_mod,
    padded_getD]

/-- Law (a) of 41_bitstream.md R203. -/
theorem unpack_packBytes (b : Bits) : unpack (packBytes b) (padCount b.length) = some b := by
  have hle : padCount b.length ≤ 8 * (packBytes b).length := by
    rw [packBytes_length, padCount]
    omega
  rw [unpack_of_le hle, allBits_packBytes, packBytes_length, packBytes_length_sub_padCount, padded, List.take_left']
  rfl

/-- Settles O30: packing is undone by unpacking, hence injective; the lengths are arithmetic. -/
theorem packAndUnpackAreInverse : Obligations.PackAndUnpackAreInverse := by
  refine ⟨fun b => ⟨unpack_packBytes b, packBytes_length b, ?_, padCount_le _, padCount_eq_zero_iff⟩,
    fun b c hbytes hpad => ?_⟩
  · rw [packBytes_length, packBytes_length_sub_padCount]
  · have hb := unpack_packBytes b
    rw [hbytes, hpad, unpack_packBytes] at hb
    exact (Option.some.inj hb).symm

end Sys2Proof.Machine

/-! The commands of the bitstream family, each by its outcomes (O26, O27, O28, O29). -/

namespace Sys2Proof.Machine

section
variable {s : State} {n : Nat} {b : Bits}

/-! BS_PUT and BS_GET (41_bitstream.md R211, R221). -/

/-- Settles O26: the three outcomes of BS_PUT, and the low bits as a list by index. -/
theorem bsPutAppends : Obligations.BsPutAppends := by
  refine fun n s => ⟨fun hn => ?_, fun hpos hle hcap => ?_, fun hpos hle hcap => ?_⟩
  · exact if_pos (by rw [countOk_eq_false_iff.2 hn]; rfl)
  all_goals have hn : ¬(!countOk n) = true := by rw [countOk_iff.2 ⟨hpos, hle⟩]; decide
  · exact (if_neg hn).trans (if_pos hcap)
  · rw [← lowBits_eq_map]
    exact (if_neg hn).trans (if_neg (Nat.not_lt.2 hcap))

/-- The state BS_GET leaves to its completion (41_bitstream.md R221). -/
def State.bitsGot (s : State) (n : Nat) : State :=
  { s with
    regs := { s.regs with bsData := BitVec.ofNat 32 (bitsToNat ((s.acc.rbits.drop s.acc.rpos).take n)) }
    acc := { s.acc with rpos := s.acc.rpos + n } }

theorem exec_bsGet_of_le (hn : 1 ≤ n ∧ n ≤ 32) (h : s.acc.rpos + n ≤ s.acc.rbits.length) :
    exec (.bsGet n) s = .next ((s.bitsGot n).completeOk 0 0) := by
  have hok : ¬(!countOk n) = true := by rw [countOk_iff.2 hn]; decide
  exact (if_neg hok).trans (if_neg (Nat.not_lt.2 h))

theorem exec_bsGet_of_lt (hn : 1 ≤ n ∧ n ≤ 32) (h : s.acc.rbits.length < s.acc.rpos + n) :
    exec (.bsGet n) s = .next (s.completeErr .truncatedStream) := by
  have hok : ¬(!countOk n) = true := by rw [countOk_iff.2 hn]; decide
  exact (if_neg hok).trans (if_pos h)

/-- A word that holds the number a short bit sequence spells. -/
theorem ofNat_bitsToNat_getLsbD (hb : b.length ≤ 32) (j : Nat) :
    (BitVec.ofNat 32 (bitsToNat b)).getLsbD j = (bitsToNat b).testBit j := by
  rw [BitVec.getLsbD_ofNat]
  rcases Nat.lt_or_ge j 32 with h | h
  · rw [decide_eq_true h, Bool.true_and]
  · rw [bitsToNat_testBit_of_length_le b (hb.trans h), Bool.and_false]

/-- Settles O29: the bits taken are `n` bits, so their number has no bit from `n` on. -/
theorem bsGetReads : Obligations.BsGetReads := by
  refine fun n s => ⟨fun hn => ?_, fun hpos hle h => exec_bsGet_of_lt ⟨hpos, hle⟩ h,
    fun hpos hle h => ⟨(s.bitsGot n).regs.bsData, fun k hk => ?_, fun j hj => ?_, exec_bsGet_of_le ⟨hpos, hle⟩ h⟩⟩
  · exact if_pos (by rw [countOk_eq_false_iff.2 hn]; rfl)
  all_goals
    have hlen : ((s.acc.rbits.drop s.acc.rpos).take n).length = n := by
      rw [List.length_take, List.length_drop]
      omega
    rw [State.bitsGot, ofNat_bitsToNat_getLsbD (by omega)]
  · have hidx : n - 1 - (n - 1 - k) = k := by omega
    rw [bitsToNat_testBit _ (by omega), hlen, hidx, take_drop_getD _ _ hk]
  · exact bitsToNat_testBit_of_length_le _ (by omega)

/-! BS_FLUSH (41_bitstream.md R215). -/

/-- The state BS_FLUSH leaves to its completion (41_bitstream.md R215). -/
def State.bitsFlushed (s : State) : State :=
  { s.writeMem s.dst (packBytes s.acc.wbits) with
    regs := { s.regs with bsPad := BitVec.ofNat 3 (padCount s.acc.wbits.length) }
    acc := { s.acc with wbits := [] } }

theorem exec_bsFlush_of_le (hdst : s.dst + s.dstCap ≤ s.params.lmemSize)
    (hlen : (s.acc.wbits.length + 7) / 8 ≤ s.dstCap) :
    exec .bsFlush s =
      .next (s.bitsFlushed.completeOk ((s.acc.wbits.length + 7) / 8) s.acc.wbits.length) := by
  rw [← packBytes_length] at hlen ⊢
  exact (if_neg (by rw [(s.inRange_iff _ _).2 hdst]; decide)).trans (if_neg (Nat.not_lt.2 hlen))

theorem State.readByte_bitsFlushed (s : State) (l m a : Nat) :
    (s.bitsFlushed.completeOk l m).readByte a = (s.writeMem s.dst (packBytes s.acc.wbits)).readByte a :=
  State.readByte_congr rfl rfl a

/-- Settles O27: byte `j` of the destination is byte `j` of the packing. -/
theorem bsFlushWritesPaddedBytes : Obligations.BsFlushWritesPaddedBytes := by
  refine fun s => ⟨fun hdst => ?_, fun hdst hlen => ?_,
    fun hdst hlen => ⟨_, exec_bsFlush_of_le hdst hlen, rfl, fun j hj k hk => ?_, fun a ha => ?_⟩⟩
  · exact if_pos (by rw [Bool.eq_false_iff.2 (mt (s.inRange_iff _ _).1 (Nat.not_le.2 hdst))]; rfl)
  · rw [← packBytes_length] at hlen
    exact (if_neg (by rw [(s.inRange_iff _ _).2 hdst]; decide)).trans (if_pos hlen)
  all_goals rw [State.readByte_bitsFlushed, State.readByte_writeMem, packBytes_length]
  · rw [if_pos ⟨Nat.le_add_right _ _, Nat.add_lt_add_left hj _⟩, Nat.add_sub_cancel_left, packBytes_getD _ hj,
      packedByte_getLsbD _ hj hk]
  · exact if_neg (by omega)

/-! BS_LOAD (41_bitstream.md R218). -/

theorem exec_bsLoad_of_inRange (hcap : 8 * s.srcLen ≤ s.params.bsCapBits)
    (hsrc : s.src + s.srcLen ≤ s.params.lmemSize) :
    exec .bsLoad s =
      (unpack s.source s.regs.bsPad.toNat).elim (.next (s.completeErr .corruptStream)) fun b =>
        .next (State.completeOk { s with acc := { s.acc with rbits := b, rpos := 0 } } 0 b.length) := by
  rw [← State.inRange_iff] at hsrc
  simp only [exec, execBsLoad, Nat.not_lt.2 hcap, hsrc, Bool.not_true, Bool.false_eq_true, if_false]
  cases unpack s.source s.regs.bsPad.toNat <;> rfl

theorem State.source_getD (s : State) {j : Nat} (hj : j < s.srcLen) : s.source.getD j 0 = s.readByte (s.src + j) := by
  simp [State.source, State.readMem, List.getD, hj]

/-- Settles O28: no bytes with padding is the only source that does not unpack, since the padding is at most 7 bits. -/
theorem bsLoadUnpacks : Obligations.BsLoadUnpacks := by
  refine fun s => ⟨fun hcap => if_pos hcap, fun hcap hsrc => ?_, fun hcap hsrc hlen hpad => ?_, fun hcap hsrc hne => ?_⟩
  · exact (if_neg (Nat.not_lt.2 hcap)).trans
      (if_pos (by rw [Bool.eq_false_iff.2 (mt (s.inRange_iff _ _).1 (Nat.not_le.2 hsrc))]; rfl))
  · have hpos : 0 < s.regs.bsPad.toNat := Nat.pos_of_ne_zero fun h => hpad (BitVec.eq_of_toNat_eq h)
    have hb : unpack s.source s.regs.bsPad.toNat = none := unpack_eq_none_iff.2 (by rwa [State.source_length, hlen])
    rw [exec_bsLoad_of_inRange hcap hsrc, hb]
    rfl
  · have hpad : s.regs.bsPad.toNat ≤ 8 * s.srcLen := by
      rcases hne with h | h
      · have := s.regs.bsPad.isLt
        omega
      · rw [h]
        exact Nat.zero_le _
    have hb := unpack_of_le (y := s.source) (hpad.trans_eq (congrArg _ s.source_length.symm))
    have hlen : ((allBits s.source).take (8 * s.source.length - s.regs.bsPad.toNat)).length =
        8 * s.srcLen - s.regs.bsPad.toNat := by
      rw [List.length_take, allBits_length, State.source_length]
      omega
    refine ⟨_, hlen, fun k hk => ?_, by rw [exec_bsLoad_of_inRange hcap hsrc, hb]; rfl⟩
    have hk' : k < 8 * s.srcLen := by omega
    rw [List.getD_eq_getElem _ _ hk, List.getElem_take, ← List.getD_eq_getElem _ false,
      allBits_getD _ (by rwa [State.source_length]), State.source_getD s (by omega)]

end

end Sys2Proof.Machine

/-! The accumulator under commands that do not use it, or use one half of it (O31). -/

namespace Sys2Proof.Machine

/-- The state with its accumulator changed by `g`. -/
def State.mapAcc (g : Accumulator → Accumulator) (s : State) : State := { s with acc := g s.acc }

/-- The outcome with its next state, if it is one, changed by `f`. -/
def onNext (f : State → State) : Host.Outcome State Fault Refusal → Host.Outcome State Fault Refusal
  | .next t => .next (f t)
  | .fault r => .fault r
  | .refused r => .refused r

section
variable (g : Accumulator → Accumulator) (s : State)

/-! What commands read of a state is not the accumulator. -/

@[simp] theorem State.mapAcc_regs : (s.mapAcc g).regs = s.regs := rfl
@[simp] theorem State.mapAcc_huf : (s.mapAcc g).huf = s.huf := rfl
@[simp] theorem State.mapAcc_params : (s.mapAcc g).params = s.params := rfl
@[simp] theorem State.mapAcc_acc : (s.mapAcc g).acc = g s.acc := rfl
@[simp] theorem State.mapAcc_src : (s.mapAcc g).src = s.src := rfl
@[simp] theorem State.mapAcc_srcLen : (s.mapAcc g).srcLen = s.srcLen := rfl
@[simp] theorem State.mapAcc_dst : (s.mapAcc g).dst = s.dst := rfl
@[simp] theorem State.mapAcc_dstCap : (s.mapAcc g).dstCap = s.dstCap := rfl
@[simp] theorem State.mapAcc_frameC : (s.mapAcc g).frameC = s.frameC := rfl
@[simp] theorem State.mapAcc_frameBytes : (s.mapAcc g).frameBytes = s.frameBytes := rfl
@[simp] theorem State.mapAcc_footprint : (s.mapAcc g).footprint = s.footprint := rfl
@[simp] theorem State.mapAcc_inRange (a n : Nat) : (s.mapAcc g).inRange a n = s.inRange a n := rfl
@[simp] theorem State.mapAcc_codecCheck : (s.mapAcc g).codecCheck = s.codecCheck := rfl
@[simp] theorem State.mapAcc_coef : (s.mapAcc g).coef = s.coef := rfl
@[simp] theorem State.mapAcc_res : (s.mapAcc g).res = s.res := rfl
@[simp] theorem State.mapAcc_limit : (s.mapAcc g).limit = s.limit := rfl
@[simp] theorem State.mapAcc_frameW : (s.mapAcc g).frameW = s.frameW := rfl
@[simp] theorem State.mapAcc_frameH : (s.mapAcc g).frameH = s.frameH := rfl
@[simp] theorem State.mapAcc_readMem (a n : Nat) : (s.mapAcc g).readMem a n = s.readMem a n := rfl
@[simp] theorem State.mapAcc_readBlock (a : Nat) : (s.mapAcc g).readBlock a = s.readBlock a := rfl
@[simp] theorem State.mapAcc_source : (s.mapAcc g).source = s.source := rfl

variable {s} {i : Instr}

/-- A command outside the bitstream family neither reads nor changes the accumulator (41_bitstream.md R228). -/
theorem exec_mapAcc (hi : i.isBitstream = false) : exec i (s.mapAcc g) = onNext (State.mapAcc g) (exec i s) := by
  cases i with
  | bsClear | bsPut | bsFlush | bsLoad | bsGet => exact Bool.noConfusion hi
  | nop => rfl
  | hufFreq | dctFwd =>
    dsimp +instances [exec, execHufFreq, execDctFwd]
    split_ifs <;> rfl
  | dctInv | dctBlock =>
    dsimp +instances [exec, execDctInv, execDctBlock]
    -- The samples, the frame and the coefficients do not matter here, and unfolding them is costly.
    generalize Machine.inv _ = out
    split_ifs <;> rfl
  | dctFrame =>
    dsimp +instances [exec, execDctFrame]
    generalize frameLoop _ _ _ _ _ _ = r
    split_ifs <;> rfl
  | dctQuant =>
    dsimp +instances [exec, execDctQuant]
    generalize thr _ _ = q
    rfl
  | hufTree | hufCodes =>
    dsimp +instances [exec, execHufTree, execHufCodes]
    split <;> rfl
  | hufEncode | hufDecode | lzwEncode | lzwDecode =>
    -- The region checks, the coder's answer and the capacity are the same tests on both sides.
    dsimp +instances [exec, execHufEncode, execHufDecode, execLzwEncode, execLzwDecode]
    repeat' split
    all_goals rfl

/-- BS_PUT and BS_FLUSH neither read nor change RBITS and RPOS (41_bitstream.md R228). -/
theorem exec_mapAcc_write (hi : i = .bsFlush ∨ ∃ n, i = .bsPut n) (r : Bits) (p : Nat) :
    exec i (s.mapAcc fun a => { a with rbits := r, rpos := p }) =
      onNext (State.mapAcc fun a => { a with rbits := r, rpos := p }) (exec i s) := by
  rcases hi with rfl | ⟨n, rfl⟩
  all_goals
    dsimp +instances [exec, execBsFlush, execBsPut]
    split_ifs <;> rfl

/-- BS_LOAD and BS_GET neither read nor change WBITS (41_bitstream.md R228). -/
theorem exec_mapAcc_read (hi : i = .bsLoad ∨ ∃ n, i = .bsGet n) (w : Bits) :
    exec i (s.mapAcc fun a => { a with wbits := w }) =
      onNext (State.mapAcc fun a => { a with wbits := w }) (exec i s) := by
  rcases hi with rfl | ⟨n, rfl⟩
  all_goals dsimp +instances [exec, execBsLoad, execBsGet]
  · repeat' split
    all_goals rfl
  · split_ifs <;> rfl

/-- Settles O31: each command commutes with the change of what it does not use. -/
theorem accumulatorIndependence : Obligations.AccumulatorIndependence := by
  intro i s t h
  refine ⟨fun hi r p => ?_, fun hi w => ?_, fun hi a => ?_⟩
  · exact (exec_mapAcc_write hi r p).trans (congrArg (onNext _) h)
  · exact (exec_mapAcc_read hi w).trans (congrArg (onNext _) h)
  · exact (exec_mapAcc (fun _ => a) hi).trans (congrArg (onNext _) h)

end

end Sys2Proof.Machine

/-! Bits put, flushed, loaded and got back (O32). -/

namespace Sys2Proof.Machine

section
variable {s t : State} {i : Instr} {n : Nat}

theorem State.runCommand_eq_some_iff :
    s.runCommand i = some t ↔ exec i (s.launch (encode i)) = .next t ∧ t.status.err = false := by
  obtain ⟨u, hu⟩ := exec_answers i (s.launch (encode i))
  have hrun : s.runCommand i = if u.status.err then none else some u := by simp only [State.runCommand, hu]
  rw [hrun, hu, Host.Outcome.next.injEq]
  constructor
  · intro h
    split_ifs at h with he
    cases h
    exact ⟨rfl, Bool.eq_false_iff.2 he⟩
  · rintro ⟨rfl, he⟩
    exact if_neg (Bool.eq_false_iff.1 he)

/-- A BS_PUT that succeeds had room for its bits and appended them. -/
theorem State.runCommand_bsPut (h : s.runCommand (.bsPut n) = some t) :
    t.acc.wbits = s.acc.wbits ++ lowBits s.regs.bsData n ∧ t.acc.wbits.length ≤ t.params.bsCapBits ∧
      t.params = s.params := by
  obtain ⟨hexec, herr⟩ := State.runCommand_eq_some_iff.1 h
  cases completes_of_exec hexec with
  | refusedEarly => cases herr
  | lzwFailed _ hi => exact nomatch hi
  | bsPut _ _ hcap => exact ⟨rfl, by simpa using hcap, rfl⟩

/-- A BS_FLUSH that succeeds had room for the packed bytes and wrote them. -/
theorem State.runCommand_bsFlush (h : s.runCommand .bsFlush = some t) :
    (s.acc.wbits.length + 7) / 8 ≤ s.dstCap ∧ s.dst + s.dstCap ≤ s.params.lmemSize ∧
      t = State.completeOk (s.launch (encode .bsFlush)).bitsFlushed ((s.acc.wbits.length + 7) / 8)
        s.acc.wbits.length := by
  obtain ⟨hexec, herr⟩ := State.runCommand_eq_some_iff.1 h
  cases completes_of_exec hexec with
  | refusedEarly => cases herr
  | lzwFailed _ hi => exact nomatch hi
  | bsFlush hdst hlen =>
    rw [packBytes_length] at hlen ⊢
    exact ⟨hlen, (State.inRange_iff _ _ _).1 hdst, rfl⟩

/-- The bits a sequence of BS_PUTs appends (41_bitstream.md R225). -/
def putBits (ps : List (Nat × Word)) : Bits := ps.flatMap fun p => lowBits p.2 p.1

/-- BS_PUTs that all succeed append their bits one after the other, within BS_CAP_BITS (41_bitstream.md R225). -/
theorem putAll_acc {ps : List (Nat × Word)} (h : putAll ps s = some t)
    (hcap : s.acc.wbits.length ≤ s.params.bsCapBits) :
    t.acc.wbits = s.acc.wbits ++ putBits ps ∧ t.acc.wbits.length ≤ t.params.bsCapBits ∧ t.params = s.params := by
  induction ps generalizing s with
  | nil =>
    cases h
    exact ⟨(List.append_nil _).symm, hcap, rfl⟩
  | cons p ps ih =>
    obtain ⟨n, v⟩ := p
    rw [putAll] at h
    split at h
    · cases h
    next u hu =>
      obtain ⟨hbits, hlen, hparams⟩ := State.runCommand_bsPut hu
      obtain ⟨hbits', hlen', hparams'⟩ := ih h hlen
      refine ⟨?_, hlen', hparams'.trans hparams⟩
      rw [hbits', hbits, List.append_assoc]
      rfl

theorem State.runCommand_bsLoad {b : Bits} (hcap : 8 * s.srcLen ≤ s.params.bsCapBits)
    (hsrc : s.src + s.srcLen ≤ s.params.lmemSize) (hb : unpack s.source s.regs.bsPad.toNat = some b) :
    ∃ t, s.runCommand .bsLoad = some t ∧ t.acc.rbits = b ∧ t.acc.rpos = 0 := by
  have hexec := exec_bsLoad_of_inRange (s := s.launch (encode .bsLoad)) hcap hsrc
  have hb' : unpack (s.launch (encode .bsLoad)).source (s.launch (encode .bsLoad)).regs.bsPad.toNat = some b := hb
  rw [hb'] at hexec
  exact ⟨_, State.runCommand_eq_some_iff.2 ⟨hexec, rfl⟩, rfl, rfl⟩

/-- A BS_GET of exactly the low bits of a word that stand next in RBITS (41_bitstream.md R225). -/
theorem State.runCommand_bsGet {v : Word} {rest : Bits} (hn : 1 ≤ n ∧ n ≤ 32)
    (hb : s.acc.rbits.drop s.acc.rpos = lowBits v n ++ rest) :
    ∃ t, s.runCommand (.bsGet n) = some t ∧ t.regs.bsData = BitVec.ofNat 32 (v.toNat % 2 ^ n) ∧
      t.acc.rbits.drop t.acc.rpos = rest := by
  have hlen := congrArg List.length hb
  rw [List.length_drop, List.length_append, lowBits_length] at hlen
  have hexec := exec_bsGet_of_le (s := s.launch (encode (.bsGet n))) hn
    (show s.acc.rpos + n ≤ s.acc.rbits.length by omega)
  refine ⟨_, State.runCommand_eq_some_iff.2 ⟨hexec, rfl⟩, ?_, ?_⟩
  · show BitVec.ofNat 32 (bitsToNat ((s.acc.rbits.drop s.acc.rpos).take n)) = _
    rw [hb, List.take_left' (lowBits_length v n), bitsToNat_lowBits]
  · show s.acc.rbits.drop (s.acc.rpos + n) = rest
    rw [← List.drop_drop, hb, List.drop_left' (lowBits_length v n)]

/-- The BS_GETs of the counts of the bits that are left read them all back (41_bitstream.md R225). -/
theorem getAll_of_putBits {ps : List (Nat × Word)} (hps : ∀ p ∈ ps, 1 ≤ p.1 ∧ p.1 ≤ 32)
    (hb : s.acc.rbits.drop s.acc.rpos = putBits ps) :
    ∃ t, getAll (ps.map Prod.fst) s = some (ps.map fun p => BitVec.ofNat 32 (p.2.toNat % 2 ^ p.1), t) ∧
      t.acc.rbits.length ≤ t.acc.rpos := by
  induction ps generalizing s with
  | nil => exact ⟨s, rfl, List.drop_eq_nil_iff.1 hb⟩
  | cons p ps ih =>
    obtain ⟨u, hu, hv, hrest⟩ := State.runCommand_bsGet (hps p List.mem_cons_self) hb
    obtain ⟨t, ht, hend⟩ := ih (fun q hq => hps q (List.mem_cons_of_mem _ hq)) hrest
    exact ⟨t, by simp only [List.map_cons, getAll, hu, ht, hv], hend⟩

/-- The state with its source operands set. -/
def State.withSource (s : State) (a len : Word) : State :=
  { s with regs := { s.regs with srcAddr := a, srcLen := len } }

/-- BS_LOAD of the bytes BS_FLUSH wrote reads its bits back (41_bitstream.md R225). -/
theorem State.runCommand_bsLoad_of_bsFlush (hlegal : s.params.legal = true)
    (hcap : s.acc.wbits.length ≤ s.params.bsCapBits) (h : s.runCommand .bsFlush = some t) :
    ∃ u, (t.withSource s.regs.dstAddr t.res.outLen).runCommand .bsLoad = some u ∧
      u.acc.rbits = s.acc.wbits ∧ u.acc.rpos = 0 := by
  obtain ⟨hlen, hdst, rfl⟩ := State.runCommand_bsFlush h
  simp only [Config.Params.legal, Bool.and_eq_true, decide_eq_true_eq, beq_iff_eq] at hlegal
  obtain ⟨⟨⟨-, -⟩, hmax⟩, hmul⟩ := hlegal
  generalize hl : (s.acc.wbits.length + 7) / 8 = l at hlen ⊢
  generalize hu : State.withSource _ _ _ = u
  have hparams : u.params = s.params := by rw [← hu]; rfl
  have hsrc : u.src = s.dst := by rw [← hu]; rfl
  have hsrcLen : u.srcLen = l := by
    rw [← hu]
    exact Nat.mod_eq_of_lt (by omega)
  have hpad : u.regs.bsPad.toNat = padCount s.acc.wbits.length := by
    rw [← hu]
    exact Nat.mod_eq_of_lt (Nat.lt_succ_of_le (padCount_le _))
  have hbytes : u.source = packBytes s.acc.wbits := by
    rw [State.source, hsrc, hsrcLen, ← hl, ← packBytes_length, ← hu]
    refine Eq.trans (List.map_congr_left fun k _ => ?_) (s.readMem_writeMem_self s.dst _)
    exact State.readByte_congr rfl rfl _
  refine State.runCommand_bsLoad ?_ ?_ ?_
  · rw [hsrcLen, hparams]
    omega
  · rw [hsrc, hsrcLen, hparams]
    omega
  · rw [hbytes, hpad, unpack_packBytes]

end

/-- Settles O32: RBITS after the load is WBITS before the flush, and each BS_GET takes the bits of its BS_PUT off it. -/
theorem bitstreamRoundTrip : Obligations.BitstreamRoundTrip := by
  intro ps s s1 s2 hlegal hempty hps hput hflush
  obtain ⟨hbits, hcap, hparams⟩ := putAll_acc hput (by rw [hempty]; exact Nat.zero_le _)
  rw [hempty, List.nil_append] at hbits
  obtain ⟨s3, hload, hrbits, hrpos⟩ := State.runCommand_bsLoad_of_bsFlush (hparams ▸ hlegal) hcap hflush
  obtain ⟨s4, hget, hend⟩ := getAll_of_putBits (s := s3) hps (by rw [hrbits, hrpos, List.drop_zero, hbits])
  exact ⟨s3, s4, hload, hget, fun n hpos hle => exec_bsGet_of_lt ⟨hpos, hle⟩ (by omega)⟩

end Sys2Proof.Machine

/-! The tree built from a table of counts: the merge loop takes the two smallest entries at each turn, and keeps the counts (O35); HUF_TREE and HUF_FREQ (O34, O33). -/

namespace Sys2Proof.Machine

/-! The queue the loop starts from (42_huffman.md R248). -/

/-- The entry of symbol `p.1` with arrival number `p.2`. -/
def startEntry (F : List Nat) (p : Nat × Nat) : QEntry :=
  { freq := F.getD p.1 0, arrival := p.2, tree := .leaf (BitVec.ofNat 8 p.1) (F.getD p.1 0) }

/-- The symbols with a nonzero count, rising. -/
def countedSymbols (F : List Nat) : List Nat := (List.range 256).filter fun c => F.getD c 0 != 0

theorem startQueue_eq (F : List Nat) : startQueue F = (countedSymbols F).zipIdx.map (startEntry F) := rfl

theorem leafEntries_drop (F : List Nat) (arrival : Nat) {n k : Nat} (h : k + n = F.length) :
    leafEntries k arrival (F.drop k) =
      (((List.range' k n).filter fun c => F.getD c 0 != 0).zipIdx arrival).map (startEntry F) := by
  induction n generalizing k arrival with
  | zero => rw [List.drop_eq_nil_of_le (by omega)]; rfl
  | succ n ih =>
    have hk : k < F.length := by omega
    have hhead : F.getD k 0 = F[k] := List.getD_eq_getElem _ _ hk
    rw [List.drop_eq_getElem_cons hk, leafEntries, List.range'_succ]
    split_ifs with hf
    · rw [ih _ (by omega), List.filter_cons_of_neg (by rw [hhead, hf]; decide)]
    · rw [ih _ (by omega), List.filter_cons_of_pos (by rw [hhead]; exact bne_iff_ne.2 hf)]
      simp only [List.zipIdx_cons, List.map_cons, startEntry, hhead]

theorem leafEntries_eq_startQueue {F : List Nat} (hF : F.length = 256) : leafEntries 0 0 F = startQueue F := by
  have h := leafEntries_drop F 0 (n := 256) (k := 0) (by omega)
  rwa [List.drop_zero, ← List.range_eq_range'] at h

/-- A start queue holds leaf entries only. -/
theorem mem_startQueue {F : List Nat} {e : QEntry} (he : e ∈ startQueue F) :
    ∃ c < 256, e.freq = F.getD c 0 ∧ e.tree = .leaf (BitVec.ofNat 8 c) (F.getD c 0) := by
  rw [startQueue_eq, List.mem_map] at he
  obtain ⟨p, hp, rfl⟩ := he
  have hc := List.mem_filter.1 (List.fst_mem_of_mem_zipIdx hp)
  exact ⟨p.1, List.mem_range.1 hc.1, rfl, rfl⟩

/-- Arrival numbers are unique, and below the next one. -/
def QueueNumbered (arrival : Nat) (Q : List QEntry) : Prop :=
  (Q.map QEntry.arrival).Nodup ∧ ∀ e ∈ Q, e.arrival < arrival

theorem startQueue_numbered (F : List Nat) : QueueNumbered (startQueue F).length (startQueue F) := by
  have harr : (startQueue F).map QEntry.arrival = List.range' 0 (startQueue F).length := by
    rw [startQueue_eq, List.map_map, List.length_map, List.length_zipIdx]
    exact List.zipIdx_map_snd 0 _
  refine ⟨harr ▸ List.nodup_range', fun e he => ?_⟩
  have hmem := List.mem_map_of_mem (f := QEntry.arrival) he
  rw [harr, List.mem_range'_1] at hmem
  omega

theorem QueueNumbered.perm {arrival : Nat} {Q Q' : List QEntry} (h : QueueNumbered arrival Q) (hp : Q.Perm Q') :
    QueueNumbered arrival Q' :=
  ⟨(hp.map _).nodup_iff.1 h.1, fun e he => h.2 e (hp.mem_iff.2 he)⟩

/-! One turn of the loop (42_huffman.md R248). -/

theorem QEntry.before_iff (x y : QEntry) :
    x.before y = true ↔ x.freq < y.freq ∨ (x.freq = y.freq ∧ x.arrival < y.arrival) := by
  simp [QEntry.before]

/-- No entry stands before the extracted one. -/
theorem not_before_extractMin (e : QEntry) (q : List QEntry) :
    ∀ z ∈ e :: q, ¬z.before (extractMin e q).1 = true := by
  simp only [QEntry.before_iff]
  induction q generalizing e with
  | nil => simp [extractMin]
  | cons x xs ih =>
    unfold extractMin
    split
    next hlt =>
      rw [QEntry.before_iff] at hlt
      refine List.forall_mem_cons.2 ⟨?_, ih x⟩
      have hx := ih x x List.mem_cons_self
      dsimp only
      omega
    next hge =>
      rw [QEntry.before_iff] at hge
      have he := ih e e List.mem_cons_self
      refine List.forall_mem_cons.2 ⟨he, List.forall_mem_cons.2 ⟨?_, (List.forall_mem_cons.1 (ih e)).2⟩⟩
      dsimp only
      omega

/-- With unique arrival numbers the extracted entry is strictly the first of all. -/
theorem extractMin_before {arrival : Nat} {e : QEntry} {q : List QEntry} (h : QueueNumbered arrival (e :: q)) :
    ∀ z ∈ (extractMin e q).2, (extractMin e q).1.freq < z.freq ∨
      ((extractMin e q).1.freq = z.freq ∧ (extractMin e q).1.arrival < z.arrival) := by
  intro z hz
  have hperm := extractMin_perm e q
  have hne : (extractMin e q).1.arrival ≠ z.arrival := fun heq =>
    (List.nodup_cons.1 (h.perm hperm.symm).1).1 (heq ▸ List.mem_map_of_mem hz)
  have hnot := not_before_extractMin e q z (hperm.mem_iff.1 (List.mem_cons_of_mem _ hz))
  rw [QEntry.before_iff] at hnot
  omega

theorem QueueNumbered.mergeTurn {arrival : Nat} {Q Q' : List QEntry} (h : QueueNumbered arrival Q)
    (ht : MergeTurn arrival Q Q') : QueueNumbered (arrival + 1) Q' := by
  obtain ⟨x, y, R, hQ, -, -, hQ'⟩ := ht
  obtain ⟨hnodup, hlt⟩ := h.perm hQ
  have hR : (R.map QEntry.arrival).Nodup := (List.nodup_cons.1 (List.nodup_cons.1 hnodup).2).2
  have hltR : ∀ e ∈ R, e.arrival < arrival := fun e he => hlt e (by simp [he])
  refine QueueNumbered.perm ⟨?_, ?_⟩ hQ'.symm
  · refine List.nodup_cons.2 ⟨fun hmem => ?_, hR⟩
    obtain ⟨e, he, heq⟩ := List.mem_map.1 hmem
    exact Nat.ne_of_lt (hltR e he) heq
  · exact List.forall_mem_cons.2 ⟨Nat.lt_succ_self _, fun e he => (hltR e he).trans (Nat.lt_succ_self _)⟩

/-- The two extractions and the merge are a turn. -/
theorem mergeTurn_extractMin {arrival : Nat} {e y : QEntry} {q ys : List QEntry}
    (h : QueueNumbered arrival (e :: q)) (hy : (extractMin e q).2 = y :: ys) :
    MergeTurn arrival (e :: q)
      ((extractMin y ys).2 ++ [mergeEntries (extractMin e q).1 (extractMin y ys).1 arrival]) := by
  have hfirst := (extractMin_perm e q).symm
  rw [hy] at hfirst
  have hsecond := (extractMin_perm y ys).symm
  have hrest : QueueNumbered arrival (y :: ys) := by
    have hn := h.perm hfirst
    exact ⟨(List.nodup_cons.1 hn.1).2, fun z hz => hn.2 z (List.mem_cons_of_mem _ hz)⟩
  have hmin := extractMin_before h
  rw [hy] at hmin
  exact ⟨_, _, _, hfirst.trans (hsecond.cons _), fun z hz => hmin z (hsecond.mem_iff.2 hz), extractMin_before hrest,
    List.perm_append_singleton _ _⟩

/-- The loop with turns enough is a run of turns. -/
theorem mergeRun_mergeLoop {fuel arrival : Nat} {e : QEntry} {q : List QEntry} (hfuel : q.length ≤ fuel)
    (h : QueueNumbered arrival (e :: q)) : MergeRun arrival (e :: q) (mergeLoop fuel arrival e q) := by
  induction fuel generalizing arrival e q with
  | zero =>
    obtain rfl := List.eq_nil_of_length_eq_zero (Nat.le_zero.1 hfuel)
    exact .done arrival e
  | succ fuel ih =>
    cases q with
    | nil => exact .done arrival e
    | cons x xs =>
      have hlen := (extractMin_perm e (x :: xs)).length_eq
      unfold mergeLoop
      dsimp only
      split
      next hnil => rw [hnil] at hlen; cases hlen
      next y ys hy =>
        have hturn := mergeTurn_extractMin h hy
        have hlen' := (extractMin_perm y ys).length_eq
        rw [hy] at hlen
        simp only [List.length_cons] at hlen hlen' hfuel
        split
        next hz =>
          rw [hz] at hturn
          exact .turn hturn (.done _ _)
        next z zs hz =>
          rw [hz] at hturn hlen'
          refine .turn hturn (ih ?_ (h.mergeTurn hturn))
          calc (zs ++ [mergeEntries (extractMin e (x :: xs)).1 (extractMin y ys).1 arrival]).length
              = (z :: zs).length := List.length_append
            _ ≤ fuel := by omega

theorem leafEntries_eq_nil_iff (sym arrival : Nat) (F : List Nat) :
    leafEntries sym arrival F = [] ↔ ∀ f ∈ F, f = 0 := by
  induction F generalizing sym with
  | nil => simp [leafEntries]
  | cons f fs ih =>
    rw [leafEntries, List.forall_mem_cons]
    split_ifs with hf
    · rw [ih, and_iff_right hf]
    · exact iff_of_false nofun fun h => hf h.1

/-- No tree is built exactly from a table of zeros (42_huffman.md R248). -/
theorem buildTree_eq_none_iff {F : List Nat} : buildTree F = none ↔ ∀ f ∈ F, f = 0 := by
  rw [← leafEntries_eq_nil_iff 0 0 F]
  unfold buildTree
  split
  next h => exact iff_of_true rfl h
  next h => exact iff_of_false nofun (h ▸ List.cons_ne_nil _ _)

theorem mergeRun_buildTree {F : List Nat} {t : HufTree} (hF : F.length = 256) (h : buildTree F = some t) :
    MergeRun (startQueue F).length (startQueue F) t := by
  have hnum := startQueue_numbered F
  unfold buildTree at h
  split at h
  · cases h
  next e q hq =>
    cases h
    rw [leafEntries_eq_startQueue hF] at hq
    rw [hq] at hnum ⊢
    exact mergeRun_mergeLoop le_rfl hnum

/-! What the turns keep: leaves, frequencies, sums (42_huffman.md R287). -/

theorem HufTree.leaves_eq_length (t : HufTree) : t.leaves = t.leafList.length := by
  induction t with
  | leaf => rfl
  | node l r f ihl ihr => rw [HufTree.leaves, HufTree.leafList, List.length_append, ihl, ihr]

/-- The leaves of a run's tree are those of the trees of its queue. -/
theorem MergeRun.leafList_perm {arrival : Nat} {Q : List QEntry} {t : HufTree} (h : MergeRun arrival Q t) :
    t.leafList.Perm (Q.flatMap fun e => e.tree.leafList) := by
  induction h with
  | done arrival e => simp
  | turn hturn _ ih =>
    obtain ⟨x, y, R, hQ, -, -, hQ'⟩ := hturn
    refine ih.trans ((hQ'.flatMap_right _).trans (List.Perm.trans ?_ (hQ.flatMap_right _).symm))
    simp [HufTree.leafList]

/-- Every entry carries the frequency of its tree, and sums inside it. -/
def QueueSummed (Q : List QEntry) : Prop := ∀ e ∈ Q, e.tree.weight = e.freq ∧ e.tree.Summed

theorem QueueSummed.mergeTurn {arrival : Nat} {Q Q' : List QEntry} (h : QueueSummed Q)
    (ht : MergeTurn arrival Q Q') : QueueSummed Q' ∧ (Q'.map QEntry.freq).sum = (Q.map QEntry.freq).sum := by
  obtain ⟨x, y, R, hQ, -, -, hQ'⟩ := ht
  have hall : QueueSummed (x :: y :: R) := fun e he => h e (hQ.mem_iff.2 he)
  obtain ⟨⟨hx, hxs⟩, ⟨hy, hys⟩, hR⟩ := List.forall_mem_cons.1 hall |>.imp_right List.forall_mem_cons.1
  refine ⟨fun e he => List.forall_mem_cons.2 ⟨?_, hR⟩ e (hQ'.mem_iff.1 he), ?_⟩
  · exact ⟨rfl, by rw [hx, hy], hxs, hys⟩
  · rw [(hQ'.map QEntry.freq).sum_eq, (hQ.map QEntry.freq).sum_eq]
    simp [Nat.add_assoc]

theorem MergeRun.summed {arrival : Nat} {Q : List QEntry} {t : HufTree} (h : MergeRun arrival Q t)
    (hQ : QueueSummed Q) : t.weight = (Q.map QEntry.freq).sum ∧ t.Summed := by
  induction h with
  | done arrival e =>
    obtain ⟨hw, hs⟩ := hQ e (List.mem_singleton_self e)
    exact ⟨by simpa using hw, hs⟩
  | turn hturn _ ih =>
    obtain ⟨hQ', hsum⟩ := hQ.mergeTurn hturn
    rw [← hsum]
    exact ih hQ'

theorem startQueue_summed (F : List Nat) : QueueSummed (startQueue F) := by
  intro e he
  obtain ⟨c, -, hf, ht⟩ := mem_startQueue he
  rw [ht, hf]
  exact ⟨rfl, trivial⟩

/-- The entries of a start queue, without their numbers. -/
theorem startQueue_map (F : List Nat) {α : Type} (g : Nat → HufTree → α) :
    (startQueue F).map (fun e => g e.freq e.tree) =
      (countedSymbols F).map fun c => g (F.getD c 0) (.leaf (BitVec.ofNat 8 c) (F.getD c 0)) := by
  rw [startQueue_eq, List.map_map]
  conv_rhs => rw [← List.zipIdx_map_fst 0 (countedSymbols F), List.map_map]
  rfl

theorem startQueue_leafList (F : List Nat) :
    (startQueue F).flatMap (fun e => e.tree.leafList) =
      (countedSymbols F).map fun c => (BitVec.ofNat 8 c, F.getD c 0) := by
  rw [List.flatMap_def, startQueue_map F fun _ t => t.leafList, ← List.flatMap_def]
  exact List.map_eq_flatMap.symm

theorem eq_map_getD_range {F : List Nat} (hF : F.length = 256) : F = (List.range 256).map fun c => F.getD c 0 := by
  refine List.ext_getElem (by simp [hF]) fun c hc _ => ?_
  simp [hc]

theorem countedSymbols_length {F : List Nat} (hF : F.length = 256) :
    (countedSymbols F).length = F.countP fun f => f != 0 := by
  conv_rhs => rw [eq_map_getD_range hF, List.countP_map, List.countP_eq_length_filter]
  rfl

/-- Dropping zeros keeps a sum. -/
theorem sum_filter_ne_zero (g : Nat → Nat) (L : List Nat) :
    ((L.filter fun c => g c != 0).map g).sum = (L.map g).sum := by
  induction L with
  | nil => rfl
  | cons c L ih =>
    by_cases hc : g c = 0
    · rw [List.filter_cons_of_neg (by simp [hc]), ih, List.map_cons, List.sum_cons, hc, Nat.zero_add]
    · rw [List.filter_cons_of_pos (by simpa using hc), List.map_cons, List.sum_cons, ih, List.map_cons, List.sum_cons]

theorem startQueue_freq_sum {F : List Nat} (hF : F.length = 256) : ((startQueue F).map QEntry.freq).sum = F.sum := by
  conv_rhs => rw [eq_map_getD_range hF]
  rw [← sum_filter_ne_zero (fun c => F.getD c 0) (List.range 256), startQueue_map F fun f _ => f]
  rfl

/-- The leaves of a built tree: one for each symbol with a nonzero count (42_huffman.md R287). -/
theorem buildTree_leafList {F : List Nat} {t : HufTree} (hF : F.length = 256) (h : buildTree F = some t) :
    t.leafList.Perm ((countedSymbols F).map fun c => (BitVec.ofNat 8 c, F.getD c 0)) :=
  startQueue_leafList F ▸ (mergeRun_buildTree hF h).leafList_perm

/-- Numbers below 256 are different bytes. -/
theorem byte_ofNat_inj {c d : Nat} (hc : c < 256) (hd : d < 256)
    (h : BitVec.ofNat 8 c = BitVec.ofNat 8 d) : c = d := by
  have := congrArg BitVec.toNat h
  simp only [BitVec.toNat_ofNat] at this
  omega

theorem mem_countedSymbols {F : List Nat} {c : Nat} : c ∈ countedSymbols F ↔ c < 256 ∧ F.getD c 0 ≠ 0 := by
  simp only [countedSymbols, List.mem_filter, List.mem_range, bne_iff_ne]

theorem buildTree_symbols_nodup {F : List Nat} {t : HufTree} (hF : F.length = 256) (h : buildTree F = some t) :
    (t.leafList.map Prod.fst).Nodup := by
  rw [((buildTree_leafList hF h).map Prod.fst).nodup_iff, List.map_map]
  have hnodup : (countedSymbols F).Nodup := List.nodup_range.filter _
  exact hnodup.map_on fun c hc d hd heq =>
    byte_ofNat_inj (mem_countedSymbols.1 hc).1 (mem_countedSymbols.1 hd).1 heq

theorem mem_leafList_buildTree {F : List Nat} {t : HufTree} (hF : F.length = 256) (h : buildTree F = some t)
    (c : Byte) (f : Nat) : (c, f) ∈ t.leafList ↔ F.getD c.toNat 0 = f ∧ f ≠ 0 := by
  rw [(buildTree_leafList hF h).mem_iff, List.mem_map]
  constructor
  · rintro ⟨d, hd, heq⟩
    obtain ⟨hlt, hne⟩ := mem_countedSymbols.1 hd
    obtain ⟨rfl, rfl⟩ := Prod.mk.inj heq
    rw [BitVec.toNat_ofNat, Nat.mod_eq_of_lt hlt]
    exact ⟨rfl, hne⟩
  · rintro ⟨rfl, hne⟩
    exact ⟨c.toNat, mem_countedSymbols.2 ⟨c.isLt, hne⟩, by rw [BitVec.ofNat_toNat, BitVec.setWidth_eq]⟩

/-- Settles O35: the loop is a run of turns from the start queue, and a run keeps leaves, sums and frequencies. -/
theorem builtTreeCarriesTheCounts : Obligations.BuiltTreeCarriesTheCounts := by
  intro F t hF h
  have hrun := mergeRun_buildTree hF h
  obtain ⟨hweight, hsummed⟩ := hrun.summed (startQueue_summed F)
  refine ⟨hrun, ?_, t.nodes_add_one, hweight.trans (startQueue_freq_sum hF), hsummed, buildTree_symbols_nodup hF h,
    mem_leafList_buildTree hF h⟩
  rw [t.leaves_eq_length, (buildTree_leafList hF h).length_eq, List.length_map, countedSymbols_length hF]

/-! HUF_FREQ and HUF_TREE (42_huffman.md R250, R255). -/

theorem exec_hufFreq_of_inRange {s : State} (h : s.src + s.srcLen ≤ s.params.lmemSize) :
    exec .hufFreq s =
      .next (State.completeOk { s with huf := { s.huf with freq := freqWords (freqCounts s.source) } } 0 0) :=
  if_neg (by rw [(s.inRange_iff _ _).2 h]; decide)

/-- Settles O33: an entry of FREQ is the word of a count of the source. -/
theorem hufFreqCounts : Obligations.HufFreqCounts := by
  refine fun s => ⟨fun h => ?_, fun h => ⟨freqWords (freqCounts s.source), by simp, fun c hc => ?_,
    exec_hufFreq_of_inRange h⟩⟩
  · exact if_pos (by rw [Bool.eq_false_iff.2 (mt (s.inRange_iff _ _).1 (Nat.not_le.2 h))]; rfl)
  · have hcount : s.source.count (BitVec.ofNat 8 c) =
        (List.range s.srcLen).countP fun k => s.readByte (s.src + k) == BitVec.ofNat 8 c := List.countP_map
    rw [← hcount, freqWords, freqCounts, List.getD_eq_getElem _ _ (by simpa using hc)]
    simp

theorem map_toNat_all_zero_iff (F : List Word) : (∀ f ∈ F.map BitVec.toNat, f = 0) ↔ ∀ f ∈ F, f = 0 := by
  simp only [List.forall_mem_map]
  exact forall₂_congr fun f _ => (BitVec.toNat_eq (y := 0)).symm

/-- Settles O34: a table builds no tree exactly when all its counts are 0. -/
theorem hufTreeBuildsOrFails : Obligations.HufTreeBuildsOrFails := by
  refine fun s => ⟨fun hzero => ?_, fun ⟨f, hf, hne⟩ => ?_⟩
  · have hnone := buildTree_eq_none_iff.2 ((map_toNat_all_zero_iff _).2 hzero)
    simp only [exec, execHufTree, hnone]
    rfl
  · cases ht : buildTree (s.huf.freq.map BitVec.toNat) with
    | none => exact absurd ((map_toNat_all_zero_iff _).1 (buildTree_eq_none_iff.1 ht) f hf) hne
    | some t =>
      refine ⟨t, rfl, ?_⟩
      simp only [exec, execHufTree, ht]
      rfl

end Sys2Proof.Machine

/-! Codes are the paths of a tree's leaves: HUF_CODES (O37), and no code begins another (O38). -/

namespace Sys2Proof.Machine

/-! Paths (42_huffman.md R241). -/

section
variable {l r : HufTree} {f : Nat} {s c : Byte} {p : Bits}

theorem foldl_descend_leaf (s : Byte) (f : Nat) (p : Bits) :
    p.foldl HufTree.descend (.leaf s f) = .leaf s f := by
  induction p with
  | nil => rfl
  | cons e p ih => exact ih

theorem HufTree.isPath_leaf_iff : (HufTree.leaf s f).IsPath p c ↔ p = [] ∧ s = c := by
  constructor
  · rintro ⟨⟨g, hend⟩, hnode⟩
    rw [foldl_descend_leaf] at hend
    refine ⟨List.eq_nil_of_length_eq_zero (Nat.eq_zero_of_not_pos fun hpos => ?_), (HufTree.leaf.inj hend).1⟩
    obtain ⟨l, r, f', h⟩ := hnode 0 hpos
    cases h
  · rintro ⟨rfl, rfl⟩
    exact ⟨⟨f, rfl⟩, nofun⟩

theorem HufTree.isPath_node_iff :
    (HufTree.node l r f).IsPath p c ↔ ∃ e q, p = e :: q ∧ ((HufTree.node l r f).descend e).IsPath q c := by
  constructor
  · rintro ⟨⟨g, hend⟩, hnode⟩
    cases p with
    | nil => cases hend
    | cons e q => exact ⟨e, q, rfl, ⟨g, hend⟩, fun k hk => hnode (k + 1) (Nat.succ_lt_succ hk)⟩
  · rintro ⟨e, q, rfl, ⟨g, hend⟩, hnode⟩
    refine ⟨⟨g, hend⟩, fun k hk => ?_⟩
    cases k with
    | zero => exact ⟨l, r, f, rfl⟩
    | succ k => exact hnode k (Nat.lt_of_succ_lt_succ hk)

end

/-- The leaves of a tree that stands at path `p`, each symbol with its path, in pre-order. -/
def HufTree.paths : HufTree → Bits → CodeBook
  | .leaf s _, p => [(s, p)]
  | .node l r _, p => l.paths (p ++ [false]) ++ r.paths (p ++ [true])

theorem HufTree.paths_map_fst (t : HufTree) (p : Bits) : (t.paths p).map Prod.fst = t.leafList.map Prod.fst := by
  induction t generalizing p with
  | leaf => rfl
  | node l r f ihl ihr => simp only [HufTree.paths, HufTree.leafList, List.map_append, ihl, ihr]

theorem HufTree.mem_paths_iff {t : HufTree} {p q : Bits} {c : Byte} :
    (c, q) ∈ t.paths p ↔ ∃ x, q = p ++ x ∧ t.IsPath x c := by
  induction t generalizing p with
  | leaf s f =>
    simp only [HufTree.paths, List.mem_singleton, Prod.mk.injEq, HufTree.isPath_leaf_iff]
    constructor
    · rintro ⟨rfl, rfl⟩
      exact ⟨[], (List.append_nil _).symm, rfl, rfl⟩
    · rintro ⟨x, rfl, rfl, rfl⟩
      exact ⟨rfl, List.append_nil _⟩
  | node l r f ihl ihr =>
    simp only [HufTree.paths, List.mem_append, ihl, ihr, HufTree.isPath_node_iff]
    constructor
    · rintro (⟨x, rfl, hx⟩ | ⟨x, rfl, hx⟩)
      · exact ⟨false :: x, by simp, false, x, rfl, hx⟩
      · exact ⟨true :: x, by simp, true, x, rfl, hx⟩
    · rintro ⟨_, rfl, e, x, rfl, hx⟩
      cases e
      · exact .inl ⟨x, by simp, hx⟩
      · exact .inr ⟨x, by simp, hx⟩

theorem HufTree.mem_paths_nil_iff {t : HufTree} {q : Bits} {c : Byte} : (c, q) ∈ t.paths [] ↔ t.IsPath q c := by
  simp [HufTree.mem_paths_iff]

/-- `p` goes left where `q` first parts from it, to the right. -/
def PartsLeft (p q : Bits) : Prop := ∃ x y z : Bits, p = x ++ false :: y ∧ q = x ++ true :: z

theorem PartsLeft.not_prefix {p q : Bits} (h : PartsLeft p q) : ¬p <+: q ∧ ¬q <+: p := by
  obtain ⟨x, y, z, rfl, rfl⟩ := h
  simp [List.prefix_append_right_inj]

/-- Pre-order goes left first (42_huffman.md R249). -/
theorem HufTree.paths_pairwise (t : HufTree) (p : Bits) : (t.paths p).Pairwise fun a b => PartsLeft a.2 b.2 := by
  induction t generalizing p with
  | leaf => exact List.pairwise_singleton _ _
  | node l r f ihl ihr =>
    refine List.pairwise_append.2 ⟨ihl _, ihr _, fun ⟨a, q⟩ ha ⟨b, q'⟩ hb => ?_⟩
    obtain ⟨y, rfl, -⟩ := HufTree.mem_paths_iff.1 ha
    obtain ⟨z, rfl, -⟩ := HufTree.mem_paths_iff.1 hb
    exact ⟨p, y, z, by simp, by simp⟩

/-! Codes (42_huffman.md R249). -/

theorem CodeBook.find_append (C D : CodeBook) (c : Byte) :
    CodeBook.find (C ++ D) c = (CodeBook.find C c).or (CodeBook.find D c) := List.lookup_append

/-- A visit keeps the codes there are, and gives every other symbol the path of its first leaf. -/
theorem find_visit (t : HufTree) (p : Bits) (C : CodeBook) (c : Byte) :
    CodeBook.find (visit t p C) c = (CodeBook.find C c).or (CodeBook.find (t.paths p) c) := by
  induction t generalizing p C with
  | node l r f ihl ihr => rw [visit, ihr, ihl, HufTree.paths, CodeBook.find_append, Option.or_assoc]
  | leaf s f =>
    unfold visit
    split_ifs with hs
    · by_cases hc : c = s
      · rw [hc, Option.or_of_isSome hs]
      · have hnone : ¬(CodeBook.find ((HufTree.leaf s f).paths p) c).isSome = true := by
          rw [CodeBook.find_isSome_iff]
          simpa [HufTree.paths] using hc
        rw [Option.not_isSome_iff_eq_none.1 hnone, Option.or_none]
    · exact CodeBook.find_append C _ c

/-- A visit enters paths only. -/
theorem mem_visit {t : HufTree} {p : Bits} {C : CodeBook} {e : Byte × Bits} (h : e ∈ visit t p C) :
    e ∈ C ∨ e ∈ t.paths p := by
  induction t generalizing p C with
  | node l r f ihl ihr =>
    rw [HufTree.paths, List.mem_append, ← or_assoc]
    exact (ihr h).imp_left ihl
  | leaf s f =>
    unfold visit at h
    split_ifs at h
    · exact .inl h
    · exact List.mem_append.1 h

section
variable {l r : HufTree} {f : Nat} {c : Byte} {p q : Bits}

theorem find_codesOf_node : CodeBook.find (codesOf (.node l r f)) c = CodeBook.find ((HufTree.node l r f).paths []) c :=
  find_visit (.node l r f) [] [] c

theorem mem_codesOf_node {e : Byte × Bits} (h : e ∈ codesOf (.node l r f)) : e ∈ (HufTree.node l r f).paths [] :=
  (mem_visit h).resolve_left List.not_mem_nil

theorem isPath_of_find (h : CodeBook.find (codesOf (.node l r f)) c = some p) : (HufTree.node l r f).IsPath p c := by
  rw [find_codesOf_node] at h
  obtain ⟨A, B, hAB, -⟩ := List.lookup_eq_some_iff.1 h
  exact HufTree.mem_paths_nil_iff.1 (hAB ▸ List.mem_append_right A List.mem_cons_self)

/-- The code is the path of the symbol's first leaf, which every other leaf's path leaves to the right. -/
theorem partsLeft_of_find (h : CodeBook.find (codesOf (.node l r f)) c = some p)
    (hq : (HufTree.node l r f).IsPath q c) (hne : q ≠ p) : PartsLeft p q := by
  rw [find_codesOf_node] at h
  obtain ⟨A, B, hAB, hA⟩ := List.lookup_eq_some_iff.1 h
  have hmem := HufTree.mem_paths_nil_iff.2 hq
  have hpair := (HufTree.node l r f).paths_pairwise []
  rw [hAB] at hmem hpair
  have hB : (c, q) ∈ B := by
    rcases List.mem_append.1 hmem with hmem | hmem
    · exact absurd rfl (bne_iff_ne.1 (hA _ hmem))
    · exact (List.mem_cons.1 hmem).resolve_left fun heq => hne (Prod.mk.inj heq).2
  exact (List.pairwise_cons.1 (List.pairwise_append.1 hpair).2.1).1 _ hB

theorem find_codesOf_isSome_iff (t : HufTree) (c : Byte) :
    (CodeBook.find (codesOf t) c).isSome = true ↔ c ∈ t.leafList.map Prod.fst := by
  cases t with
  | leaf s f => rw [CodeBook.find_isSome_iff]; rfl
  | node l r f => rw [find_codesOf_node, CodeBook.find_isSome_iff, HufTree.paths_map_fst]

end

theorem exec_hufCodes_of_tree {s : State} {t : HufTree} (h : s.huf.tree = some t) :
    exec .hufCodes s = .next (State.completeOk { s with huf := { s.huf with codes := some (codesOf t) } } 0 0) := by
  simp only [exec, execHufCodes, h]
  rfl

theorem exec_hufCodes_of_none {s : State} (h : s.huf.tree = none) :
    exec .hufCodes s = .next (s.completeErr .notReady) := by
  simp only [exec, execHufCodes, h]
  rfl

/-- Settles O37: a symbol's code is found at its first place in the list of all paths, which is in pre-order. -/
theorem hufCodesAreTreePaths : Obligations.HufCodesAreTreePaths :=
  ⟨fun _ h => exec_hufCodes_of_none h, fun _ _ h => exec_hufCodes_of_tree h, fun _ _ => rfl, fun l r f c =>
    ⟨fun _ hp => ⟨isPath_of_find hp, fun _ hq hne => partsLeft_of_find hp hq hne⟩,
      find_codesOf_isSome_iff (.node l r f) c⟩⟩

/-! The region checks of HUF_ENCODE and HUF_DECODE, and HUF_ENCODE by its outcomes (42_huffman.md R268). -/

section
variable {s : State}

theorem State.regionsOk_iff : s.RegionsOk ↔ s.codecCheck = none := by
  rw [State.codecCheck_eq_none_iff, ← Bool.not_eq_true, overlap_iff]
  rfl

/-- The Huffman stores with the counts of the source, a tree and a codebook. -/
def State.encodeStores (s : State) (t : Option HufTree) : State :=
  { s with huf := { freq := freqWords (freqCounts s.source), tree := t, codes := t.map codesOf } }

/-- The coded bits of the source under a tree. -/
def State.encodeBits (s : State) (t : HufTree) : Bits := codedBits (codesOf t) s.source

theorem exec_hufEncode_empty (hr : s.RegionsOk) (ht : buildTree (freqCounts s.source) = none) :
    exec .hufEncode s = .next ((s.encodeStores none).spoilDst.completeErr .emptyInput) := by
  simp only [exec, execHufEncode, State.regionsOk_iff.1 hr, ht]
  rfl

theorem exec_hufEncode_overflow {t : HufTree} (hr : s.RegionsOk) (ht : buildTree (freqCounts s.source) = some t)
    (hlen : s.dstCap < (artifact t (s.encodeBits t)).length) :
    exec .hufEncode s = .next ((s.encodeStores (some t)).spoilDst.completeErr .outputOverflow) := by
  rw [State.encodeBits] at hlen
  simp only [exec, execHufEncode, State.regionsOk_iff.1 hr, ht, if_pos hlen]
  rfl

theorem exec_hufEncode_ok {t : HufTree} (hr : s.RegionsOk) (ht : buildTree (freqCounts s.source) = some t)
    (hlen : (artifact t (s.encodeBits t)).length ≤ s.dstCap) :
    exec .hufEncode s = .next
      (((s.encodeStores (some t)).writeMem s.dst (artifact t (s.encodeBits t))).completeOk
        (artifact t (s.encodeBits t)).length (s.encodeBits t).length) := by
  rw [State.encodeBits] at hlen ⊢
  simp only [exec, execHufEncode, State.regionsOk_iff.1 hr, ht, if_neg (Nat.not_lt.2 hlen)]
  rfl

/-- After its region checks HUF_ENCODE leaves the codebook of a tree, or none. -/
theorem codes_of_exec_hufEncode {t : State} (hr : s.RegionsOk) (h : exec .hufEncode s = .next t) :
    ∃ T : Option HufTree, t.huf.codes = T.map codesOf := by
  cases hT : buildTree (freqCounts s.source) with
  | none =>
    rw [exec_hufEncode_empty hr hT, Host.Outcome.next.injEq] at h
    exact ⟨none, h ▸ rfl⟩
  | some T =>
    refine ⟨some T, ?_⟩
    rcases Nat.lt_or_ge s.dstCap (artifact T (s.encodeBits T)).length with hlen | hlen
    · rw [exec_hufEncode_overflow hr hT hlen, Host.Outcome.next.injEq] at h
      exact h ▸ rfl
    · rw [exec_hufEncode_ok hr hT hlen, Host.Outcome.next.injEq] at h
      exact h ▸ rfl

end

/-- Two entries of one codebook part from each other, or are one entry. -/
theorem codesOf_not_prefix {t : HufTree} {x y : Byte × Bits} (hx : x ∈ codesOf t) (hy : y ∈ codesOf t)
    (hne : x.1 ≠ y.1) : ¬x.2 <+: y.2 := by
  cases t with
  | leaf s f =>
    obtain rfl := List.mem_singleton.1 hx
    obtain rfl := List.mem_singleton.1 hy
    exact absurd rfl hne
  | node l r f =>
    have hpair := (HufTree.node l r f).paths_pairwise []
    exact List.Pairwise.forall_of_forall_of_flip (R := fun a b => a.1 ≠ b.1 → ¬a.2 <+: b.2)
      (fun _ _ hself => absurd rfl hself) (hpair.imp fun h _ => h.not_prefix.1) (hpair.imp fun h _ => h.not_prefix.2)
      (mem_codesOf_node hx) (mem_codesOf_node hy) hne

/-- Settles O38: both commands leave the codebook of a tree, and the paths of two leaves part. -/
theorem codesArePrefixFree : Obligations.CodesArePrefixFree := by
  refine ⟨fun t x y => codesOf_not_prefix, fun s t C h htree hC x hx y hy => ?_, fun s t C h hr hC x hx y hy => ?_⟩
  · obtain ⟨T, hT⟩ := Option.ne_none_iff_exists'.1 htree
    rw [exec_hufCodes_of_tree hT, Host.Outcome.next.injEq] at h
    subst h
    cases hC
    exact codesOf_not_prefix hx hy
  · obtain ⟨T, hT⟩ := codes_of_exec_hufEncode hr h
    rw [hC] at hT
    obtain ⟨T', -, rfl⟩ := Option.map_eq_some_iff.1 hT.symm
    exact codesOf_not_prefix hx hy

end Sys2Proof.Machine

/-! The code lengths of a built tree: the Kraft equality, and shorter codes for more frequent symbols (O36). -/

namespace Sys2Proof.Machine

/-! The Kraft equality (42_huffman.md R287). -/

theorem HufTree.prefix_of_mem_paths {t : HufTree} {p : Bits} {e : Byte × Bits} (h : e ∈ t.paths p) : p <+: e.2 := by
  obtain ⟨x, hx, -⟩ := HufTree.mem_paths_iff.1 h
  exact hx ▸ List.prefix_append p x

theorem HufTree.paths_ne_nil (t : HufTree) (p : Bits) : t.paths p ≠ [] := by
  induction t generalizing p with
  | leaf => exact List.cons_ne_nil _ _
  | node l r f ihl ihr => exact List.append_ne_nil_of_left_ne_nil (ihl _) _

/-- Each node shares its part of the code space among its children. -/
theorem HufTree.kraft_paths {t : HufTree} {p : Bits} {n : Nat} (h : ∀ e ∈ t.paths p, e.2.length ≤ n) :
    ((t.paths p).map fun e => 2 ^ (n - e.2.length)).sum = 2 ^ (n - p.length) := by
  induction t generalizing p with
  | leaf s f => exact List.sum_singleton
  | node l r f ihl ihr =>
    have hl : ∀ e ∈ l.paths (p ++ [false]), e.2.length ≤ n := fun e he => h e (List.mem_append_left _ he)
    have hr : ∀ e ∈ r.paths (p ++ [true]), e.2.length ≤ n := fun e he => h e (List.mem_append_right _ he)
    have hp : p.length + 1 ≤ n := by
      obtain ⟨e, he⟩ := List.exists_mem_of_ne_nil _ (l.paths_ne_nil (p ++ [false]))
      have hle := (HufTree.prefix_of_mem_paths he).length_le
      rw [List.length_append, List.length_singleton] at hle
      exact hle.trans (hl e he)
    have hsplit : n - p.length = n - (p.length + 1) + 1 := by omega
    rw [HufTree.paths, List.map_append, List.sum_append, ihl hl, ihr hr, List.length_append, List.length_append,
      List.length_singleton, List.length_singleton, hsplit, Nat.pow_succ, Nat.mul_two]

/-- A visit of a tree without repeated symbols enters every path. -/
theorem visit_eq_append {t : HufTree} {p : Bits} {C : CodeBook}
    (h : (C.map Prod.fst ++ t.leafList.map Prod.fst).Nodup) : visit t p C = C ++ t.paths p := by
  induction t generalizing p C with
  | leaf s f =>
    have hs : ¬(CodeBook.find C s).isSome = true := by
      rw [CodeBook.find_isSome_iff]
      exact fun hmem => List.disjoint_of_nodup_append h hmem (List.mem_singleton_self s)
    exact if_neg hs
  | node l r f ihl ihr =>
    rw [HufTree.leafList, List.map_append, ← List.append_assoc] at h
    rw [visit, ihl (List.nodup_append.1 h).1, ihr, HufTree.paths, List.append_assoc]
    rwa [List.map_append, HufTree.paths_map_fst]

theorem codesOf_eq_paths {l r : HufTree} {f : Nat} (h : ((HufTree.node l r f).leafList.map Prod.fst).Nodup) :
    codesOf (.node l r f) = (HufTree.node l r f).paths [] := visit_eq_append (C := []) h

/-! The depths at which the entries of a queue end up in the run's tree (42_huffman.md R288). They fall along the order of extraction; to see it, the turns are followed backward from the last one. -/

/-- `d` gives an entry, by its arrival number, its depth. An entry extracted earlier is no less deep, and an entry of frequency at most `K` is at most one level above any other. -/
def DepthsOrdered (K : Nat) (Q : List QEntry) (d : Nat → Nat) : Prop :=
  (∀ a ∈ Q, ∀ b ∈ Q, b.before a = true → d a.arrival ≤ d b.arrival) ∧
    ∀ a ∈ Q, ∀ m ∈ Q, m.freq ≤ K → d a.arrival ≤ d m.arrival + 1

theorem DepthsOrdered.perm {K : Nat} {Q Q' : List QEntry} {d : Nat → Nat} (h : DepthsOrdered K Q d)
    (hp : Q'.Perm Q) : DepthsOrdered K Q' d :=
  ⟨fun a ha b hb => h.1 a (hp.mem_iff.1 ha) b (hp.mem_iff.1 hb),
    fun a ha m hm => h.2 a (hp.mem_iff.1 ha) m (hp.mem_iff.1 hm)⟩

section
variable {x y : QEntry} {R : List QEntry} {n K : Nat}

/-- A turn merges `x` and `y`, the first of all, one level below their merge. -/
theorem DepthsOrdered.of_merge {d d' : Nat → Nat}
    (h : DepthsOrdered (x.freq + y.freq) (mergeEntries x y n :: R) d') (hK : K ≤ x.freq + y.freq)
    (hfirst : ∀ e ∈ [x, y], d e.arrival = d' n + 1 ∧ ∀ z ∈ R, ¬z.before e = true)
    (hrest : ∀ e ∈ R, d e.arrival = d' e.arrival ∧ e.arrival < n) : DepthsOrdered K (x :: y :: R) d := by
  obtain ⟨hord, hlow⟩ := h
  have hbelow : ∀ a ∈ R, d' a.arrival ≤ d' n + 1 := fun a ha =>
    hlow a (List.mem_cons_of_mem _ ha) _ List.mem_cons_self le_rfl
  have habove : ∀ m ∈ R, m.freq ≤ x.freq + y.freq → d' n ≤ d' m.arrival := fun m hm hle =>
    hord _ List.mem_cons_self m (List.mem_cons_of_mem _ hm) ((QEntry.before_iff _ _).2
      (hle.lt_or_eq.imp_right fun heq => ⟨heq, (hrest m hm).2⟩))
  have hcase : ∀ e ∈ x :: y :: R, e ∈ [x, y] ∨ e ∈ R := by simp [or_assoc]
  refine ⟨fun a ha b hb hba => ?_, fun a ha m hm hle => ?_⟩
  · rcases hcase a ha with ha | ha <;> rcases hcase b hb with hb | hb
    · rw [(hfirst a ha).1, (hfirst b hb).1]
    · exact absurd hba ((hfirst a ha).2 b hb)
    · rw [(hrest a ha).1, (hfirst b hb).1]
      exact hbelow a ha
    · rw [(hrest a ha).1, (hrest b hb).1]
      exact hord a (List.mem_cons_of_mem _ ha) b (List.mem_cons_of_mem _ hb) hba
  · rcases hcase a ha with ha | ha <;> rcases hcase m hm with hm | hm
    · rw [(hfirst a ha).1, (hfirst m hm).1]
      exact Nat.le_succ _
    · rw [(hfirst a ha).1, (hrest m hm).1]
      exact Nat.succ_le_succ (habove m hm (hle.trans hK))
    · rw [(hrest a ha).1, (hfirst m hm).1]
      exact (hbelow a ha).trans (Nat.le_succ _)
    · rw [(hrest a ha).1, (hrest m hm).1]
      exact hlow a (List.mem_cons_of_mem _ ha) m (List.mem_cons_of_mem _ hm) (hle.trans hK)

end

/-- The paths of a turn's queue from those of the queue after it: `x` and `y` stand under the merge numbered `n`. -/
def splitPath (q : Nat → Bits) (x y n : Nat) (k : Nat) : Bits :=
  if k = x then q n ++ [false] else if k = y then q n ++ [true] else q k

/-- After a turn any two entries together weigh at least what the turn merged. -/
theorem pairwise_merge_le {x y : QEntry} {R : List QEntry} (n : Nat) (hx : ∀ z ∈ R, x.freq ≤ z.freq)
    (hy : ∀ z ∈ R, y.freq ≤ z.freq) :
    (mergeEntries x y n :: R).Pairwise fun a b => x.freq + y.freq ≤ a.freq + b.freq :=
  List.pairwise_cons.2 ⟨fun _ _ => Nat.le_add_right _ _,
    List.pairwise_of_forall_mem_list fun a ha b hb => Nat.add_le_add (hx a ha) (hy b hb)⟩

/-- What one turn does to the paths of the leaves. -/
theorem flatMap_paths_merge {x y : QEntry} {R : List QEntry} {n : Nat} {p q : Nat → Bits}
    (hx : p x.arrival = q n ++ [false]) (hy : p y.arrival = q n ++ [true])
    (hR : ∀ e ∈ R, p e.arrival = q e.arrival) :
    ((mergeEntries x y n :: R).flatMap fun e => e.tree.paths (q e.arrival)) =
      (x :: y :: R).flatMap fun e => e.tree.paths (p e.arrival) := by
  have hrest : (R.flatMap fun e => e.tree.paths (q e.arrival)) = R.flatMap fun e => e.tree.paths (p e.arrival) :=
    List.flatMap_congr fun e he => by rw [hR e he]
  simp only [List.flatMap_cons, hx, hy, hrest, mergeEntries, HufTree.paths, List.append_assoc]

/-- The entries of a queue stand at some paths of the run's tree, in ordered depths. -/
theorem MergeRun.exists_paths {arrival : Nat} {Q : List QEntry} {t : HufTree} (h : MergeRun arrival Q t)
    (hnum : QueueNumbered arrival Q) {K : Nat} (hK : Q.Pairwise fun a b => K ≤ a.freq + b.freq) :
    ∃ q : Nat → Bits, (t.paths []).Perm (Q.flatMap fun e => e.tree.paths (q e.arrival)) ∧
      DepthsOrdered K Q fun k => (q k).length := by
  induction h generalizing K with
  | done arrival e => exact ⟨fun _ => [], by simp, fun _ _ _ _ _ => le_rfl, fun _ _ _ _ _ => Nat.le_succ _⟩
  | @turn n Q Q' t hturn _ ih =>
    have hnum' := hnum.mergeTurn hturn
    obtain ⟨x, y, R, hQ, hx, hy, hQ'⟩ := hturn
    obtain ⟨hnodup, hlt⟩ := hnum.perm hQ
    simp only [List.map_cons, List.nodup_cons, List.mem_cons, List.mem_map, not_or, not_exists, not_and] at hnodup
    obtain ⟨⟨hxy, hxR⟩, hyR, -⟩ := hnodup
    have hKxy : K ≤ x.freq + y.freq := by
      have hpair := (hQ.pairwise_iff fun hab => by omega).1 hK
      exact (List.pairwise_cons.1 hpair).1 y List.mem_cons_self
    have hxR' : ∀ z ∈ R, x.freq < z.freq ∨ (x.freq = z.freq ∧ x.arrival < z.arrival) := fun z hz =>
      hx z (List.mem_cons_of_mem _ hz)
    have hK' := pairwise_merge_le n (fun z hz => (hxR' z hz).elim Nat.le_of_lt fun h => h.1.le)
      fun z hz => (hy z hz).elim Nat.le_of_lt fun h => h.1.le
    obtain ⟨q, hpaths, hdepths⟩ := ih hnum' ((hQ'.pairwise_iff fun hab => by omega).2 hK')
    have hpx : splitPath q x.arrival y.arrival n x.arrival = q n ++ [false] := if_pos rfl
    have hpy : splitPath q x.arrival y.arrival n y.arrival = q n ++ [true] := (if_neg (Ne.symm hxy)).trans (if_pos rfl)
    have hpR : ∀ e ∈ R, splitPath q x.arrival y.arrival n e.arrival = q e.arrival := fun e he =>
      (if_neg (hxR e he)).trans (if_neg (hyR e he))
    refine ⟨splitPath q x.arrival y.arrival n, ?_, ?_⟩
    · refine hpaths.trans ((hQ'.flatMap_right _).trans (List.Perm.trans ?_ (hQ.flatMap_right _).symm))
      exact .of_eq (flatMap_paths_merge hpx hpy hpR)
    · refine DepthsOrdered.perm ((hdepths.perm hQ'.symm).of_merge hKxy ?_ fun e he => ?_) hQ
      · simp only [List.forall_mem_cons, QEntry.before_iff, hpx, hpy, List.length_append, List.length_singleton,
          true_and, List.not_mem_nil, false_imp_iff, implies_true, and_true]
        refine ⟨fun z hz => ?_, fun z hz => ?_⟩
        · have hxz := hxR' z hz
          omega
        · have hyz := hy z hz
          omega
      · exact ⟨congrArg List.length (hpR e he), hlt e (List.mem_cons_of_mem _ (List.mem_cons_of_mem _ he))⟩

/-- The leaves of a start queue are its entries. -/
theorem mem_flatMap_startQueue {F : List Nat} {q : Nat → Bits} {e : Byte × Bits}
    (h : e ∈ (startQueue F).flatMap fun m => m.tree.paths (q m.arrival)) :
    ∃ m ∈ startQueue F, m.freq = F.getD e.1.toNat 0 ∧ e.2 = q m.arrival := by
  obtain ⟨m, hm, he⟩ := List.mem_flatMap.1 h
  obtain ⟨c, hc, hf, ht⟩ := mem_startQueue hm
  rw [ht, HufTree.paths, List.mem_singleton] at he
  refine ⟨m, hm, ?_, he ▸ rfl⟩
  rw [hf, he, BitVec.toNat_ofNat, Nat.mod_eq_of_lt hc]

/-- A more frequent symbol's leaf is no deeper (42_huffman.md R288). -/
theorem buildTree_depths {F : List Nat} {t : HufTree} (hF : F.length = 256) (h : buildTree F = some t)
    {x y : Byte × Bits} (hx : x ∈ t.paths []) (hy : y ∈ t.paths [])
    (hlt : F.getD y.1.toNat 0 < F.getD x.1.toNat 0) : x.2.length ≤ y.2.length := by
  obtain ⟨q, hpaths, hord, -⟩ := (mergeRun_buildTree hF h).exists_paths (startQueue_numbered F) (K := 0)
    (List.pairwise_of_forall fun _ _ => Nat.zero_le _)
  obtain ⟨a, ha, hfa, hxa⟩ := mem_flatMap_startQueue (hpaths.mem_iff.1 hx)
  obtain ⟨b, hb, hfb, hyb⟩ := mem_flatMap_startQueue (hpaths.mem_iff.1 hy)
  rw [hxa, hyb]
  exact hord a ha b hb ((QEntry.before_iff b a).2 (.inl (by rwa [hfa, hfb])))

/-- Settles O36: the codes are the paths of all leaves, which share the code space, and whose depths follow the order of extraction. -/
theorem kraftEquality : Obligations.KraftEquality := by
  intro F t hF hcount h
  have hleaves : t.leaves = F.countP fun f => f != 0 := by
    rw [t.leaves_eq_length, (buildTree_leafList hF h).length_eq, List.length_map, countedSymbols_length hF]
  have hlen : ∀ e ∈ codesOf t, e.2.length ≤ 255 := fun e he => ((codesOf_ok (buildTree_nodes_le hF h)).2 e he).2
  cases t with
  | leaf c f => exact absurd (hcount.trans_eq hleaves.symm) (Nat.not_succ_le_self 1)
  | node l r f =>
    rw [codesOf_eq_paths (buildTree_symbols_nodup hF h)] at hlen ⊢
    exact ⟨HufTree.kraft_paths hlen, hlen, fun x hx y hy hlt => buildTree_depths hF h hx hy hlt⟩

end Sys2Proof.Machine

/-! Serialized trees and their parse (O39), the walk of the data bits, and what goes wrong in an artifact (O42). -/

namespace Sys2Proof.Machine

/-! The parse of one node (42_huffman.md R246). -/

section
variable {fuel count c c' need : Nat} {tag s : Byte} {z z' z'' : List Byte} {l r : HufTree} {e : ErrCode}

theorem parseNode_nil : parseNode (fuel + 1) count [] = .error .truncatedStream := rfl

theorem parseNode_unknownTag (h0 : tag ≠ 0x00) (h1 : tag ≠ 0x01) :
    parseNode (fuel + 1) count (tag :: z) = .error .corruptStream := if_pos ⟨h0, h1⟩

theorem parseNode_full (h : 511 ≤ count) : parseNode (fuel + 1) count (tag :: z) = .error .corruptStream := by
  have hfull : maxTreeNodes < count + 1 := Nat.lt_succ_of_le h
  rw [parseNode.eq_def]
  dsimp only
  rw [if_pos hfull, ite_self]

section
variable (h : count < 511)
include h

theorem not_full : ¬maxTreeNodes < count + 1 := Nat.not_lt.2 h

theorem parseNode_leaf : parseNode (fuel + 1) count (0x01 :: s :: z) = .ok (.leaf s 0, count + 1, z) := by
  rw [parseNode.eq_def]
  dsimp only
  rw [if_neg (by decide), if_neg (not_full h), if_pos rfl]

theorem parseNode_leafCut : parseNode (fuel + 1) count [0x01] = .error .truncatedStream := by
  rw [parseNode.eq_def]
  dsimp only
  rw [if_neg (by decide), if_neg (not_full h), if_pos rfl]

theorem parseNode_node_eq :
    parseNode (fuel + 1) count (0x00 :: z) =
      (parseNode fuel (count + 1) z).bind fun p =>
        (parseNode fuel p.2.1 p.2.2).map fun q => (.node p.1 q.1 0, q.2.1, q.2.2) := by
  rw [parseNode.eq_def]
  dsimp only
  rw [if_neg (by decide), if_neg (not_full h), if_neg (by decide)]
  rcases parseNode fuel (count + 1) z with e | ⟨l, c, z'⟩
  · rfl
  · dsimp only [Except.bind]
    rcases parseNode fuel c z' with e | ⟨r, c', z''⟩ <;> rfl

theorem parseNode_node_left (hl : parseNode fuel (count + 1) z = .error e) :
    parseNode (fuel + 1) count (0x00 :: z) = .error e := by
  rw [parseNode_node_eq h, hl]
  rfl

variable (hl : parseNode fuel (count + 1) z = .ok (l, c, z'))
include hl

theorem parseNode_node_right (hr : parseNode fuel c z' = .error e) :
    parseNode (fuel + 1) count (0x00 :: z) = .error e := by
  rw [parseNode_node_eq h, hl]
  exact congrArg (Except.map _) hr

theorem parseNode_node (hr : parseNode fuel c z' = .ok (r, c', z'')) :
    parseNode (fuel + 1) count (0x00 :: z) = .ok (.node l r 0, c', z'') := by
  rw [parseNode_node_eq h, hl]
  exact congrArg (Except.map _) hr

end

/-! The same bytes under `treeError`, which keeps the number of subtrees still to be read. -/

theorem treeError_unknownTag (h0 : tag ≠ 0x00) (h1 : tag ≠ 0x01) :
    treeError (need + 1) count (tag :: z) = some .corruptStream := by
  unfold treeError
  exact if_pos ⟨h0, h1⟩

theorem treeError_full (h : 511 ≤ count) : treeError (need + 1) count (tag :: z) = some .corruptStream := by
  unfold treeError
  rw [if_pos (show 511 < count + 1 from Nat.lt_succ_of_le h), ite_self]

theorem treeError_leaf (h : count < 511) :
    treeError (need + 1) count (0x01 :: s :: z) = treeError need (count + 1) z := by
  rw [treeError.eq_def]
  dsimp only
  rw [if_neg (by decide), if_neg (Nat.not_lt.2 h), if_neg (by decide)]

theorem treeError_leafCut (h : count < 511) : treeError (need + 1) count [0x01] = some .truncatedStream := by
  rw [treeError.eq_def]
  dsimp only
  rw [if_neg (by decide), if_neg (Nat.not_lt.2 h), if_neg (by decide)]

theorem treeError_node (h : count < 511) :
    treeError (need + 1) count (0x00 :: z) = treeError (need + 2) (count + 1) z := by
  rw [treeError.eq_def]
  dsimp only
  rw [if_neg (by decide), if_neg (Nat.not_lt.2 h), if_pos rfl]

end

/-! Serialization (42_huffman.md R245). -/

theorem serialize_length (t : HufTree) : (serialize t).length + 1 = 3 * t.leaves := by
  induction t with
  | leaf => rfl
  | node l r f ihl ihr =>
    rw [serialize, HufTree.leaves, List.length_cons, List.length_append]
    omega

/-- A parse of a serialized tree reads it whole when the nodes counted before it leave room for its own. -/
theorem parseNode_serialize {t : HufTree} {fuel count : Nat} (hcount : count + t.nodes ≤ 511)
    (hfuel : 512 ≤ fuel + count) (z : List Byte) :
    parseNode fuel count (serialize t ++ z) = .ok (t.zeroFreq, count + t.nodes, z) := by
  obtain ⟨fuel, rfl⟩ := Nat.exists_eq_add_of_le' (show 1 ≤ fuel by omega)
  induction t generalizing fuel count z with
  | leaf s f => exact parseNode_leaf hcount
  | node l r f ihl ihr =>
    have hn : (HufTree.node l r f).nodes = l.nodes + r.nodes + 1 := rfl
    obtain ⟨fuel, rfl⟩ := Nat.exists_eq_add_of_le' (show 1 ≤ fuel by omega)
    have hl := ihl (count := count + 1) (by omega) (serialize r ++ z) fuel (by omega)
    have hr := ihr (count := count + 1 + l.nodes) (by omega) z fuel (by omega)
    have hsum : count + 1 + l.nodes + r.nodes = count + (HufTree.node l r f).nodes := by omega
    rw [serialize, List.cons_append, List.append_assoc, parseNode_node (by omega) hl hr, hsum]
    rfl

theorem parseNode_serialize_full {t : HufTree} {fuel count : Nat} (hcount : count ≤ 511)
    (hfull : 511 < count + t.nodes) (hfuel : 512 ≤ fuel + count) (z : List Byte) :
    parseNode fuel count (serialize t ++ z) = .error .corruptStream := by
  obtain ⟨fuel, rfl⟩ := Nat.exists_eq_add_of_le' (show 1 ≤ fuel by omega)
  induction t generalizing fuel count z with
  | leaf s f => exact parseNode_full (Nat.le_of_lt_succ hfull)
  | node l r f ihl ihr =>
    have hn : (HufTree.node l r f).nodes = l.nodes + r.nodes + 1 := rfl
    rw [serialize, List.cons_append, List.append_assoc]
    rcases Nat.lt_or_ge count 511 with h | h
    · obtain ⟨fuel, rfl⟩ := Nat.exists_eq_add_of_le' (show 1 ≤ fuel by omega)
      rcases Nat.lt_or_ge 511 (count + 1 + l.nodes) with hl | hl
      · exact parseNode_node_left h (ihl (count := count + 1) h hl _ fuel (by omega))
      · exact parseNode_node_right h (parseNode_serialize hl (by omega) _)
          (ihr (count := count + 1 + l.nodes) hl (by omega) z fuel (by omega))
    · exact parseNode_full h

theorem parseTree_of_parseNode_ok {z z' : List Byte} {t : HufTree} {c : Nat}
    (h : parseNode (maxTreeNodes + 1) 0 z = .ok (t, c, z')) : parseTree z = .ok (t, z') := by
  rw [parseTree, h]

theorem parseTree_of_parseNode_error {z : List Byte} {e : ErrCode}
    (h : parseNode (maxTreeNodes + 1) 0 z = .error e) : parseTree z = .error e := by
  rw [parseTree, h]

section
variable {t : HufTree}

theorem parseTree_serialize (h : t.nodes ≤ 511) (z : List Byte) : parseTree (serialize t ++ z) = .ok (t.zeroFreq, z) :=
  parseTree_of_parseNode_ok (parseNode_serialize (count := 0) ((Nat.zero_add _).trans_le h) (by decide) z)

theorem parseTree_serialize_full (h : 511 < t.nodes) (z : List Byte) :
    parseTree (serialize t ++ z) = .error .corruptStream :=
  parseTree_of_parseNode_error
    (parseNode_serialize_full (count := 0) (by decide) (h.trans_eq (Nat.zero_add _).symm) (by decide) z)

end

/-- Settles O39: the parse of a serialized tree is followed node by node. -/
theorem serializedTreeParsesBack : Obligations.SerializedTreeParsesBack :=
  fun t => ⟨serialize_length t, parseTree_serialize, parseTree_serialize_full⟩

/-! The parse and `treeError` agree. -/

/-- With `need` subtrees to be read after this one: an error of the parse is the error, and a tree read is one subtree less to read. -/
def ParseAgrees (fuel count need : Nat) (z : List Byte) : Prop :=
  (∀ e, parseNode fuel count z = .error e → treeError (need + 1) count z = some e) ∧
    ∀ t c z', parseNode fuel count z = .ok (t, c, z') → treeError (need + 1) count z = treeError need c z'

section
variable {fuel count c need : Nat} {z z' : List Byte} {t : HufTree} {e : ErrCode}

theorem ParseAgrees.of_error (hp : parseNode fuel count z = .error e) (ht : treeError (need + 1) count z = some e) :
    ParseAgrees fuel count need z := by
  rw [ParseAgrees, hp]
  exact ⟨fun _ he => Except.error.inj he ▸ ht, nofun⟩

theorem ParseAgrees.of_ok (hp : parseNode fuel count z = .ok (t, c, z'))
    (ht : treeError (need + 1) count z = treeError need c z') : ParseAgrees fuel count need z := by
  rw [ParseAgrees, hp]
  exact ⟨nofun, fun _ _ _ heq => by cases heq; exact ht⟩

/-- A node reads its tag and then two subtrees. -/
theorem ParseAgrees.node (h : count < 511) (hfuel : 512 ≤ fuel + 1 + count)
    (ih : ∀ {count : Nat}, count ≤ 511 → 512 ≤ fuel + count → ∀ need z, ParseAgrees fuel count need z) :
    ParseAgrees (fuel + 1) count need (0x00 :: z) := by
  obtain ⟨hle, hlo⟩ := ih h (by omega) (need + 1) z
  cases hl : parseNode fuel (count + 1) z with
  | error e => exact .of_error (parseNode_node_left h hl) ((treeError_node h).trans (hle e hl))
  | ok p =>
    obtain ⟨l, c, z'⟩ := p
    obtain ⟨hcl, hc⟩ := parseNode_count hl
    obtain ⟨hre, hro⟩ := ih hc (by omega) need z'
    have hneed := (treeError_node h).trans (hlo l c z' hl)
    cases hr : parseNode fuel c z' with
    | error e => exact .of_error (parseNode_node_right h hl hr) (hneed.trans (hre e hr))
    | ok p =>
      obtain ⟨r, c', z''⟩ := p
      exact .of_ok (parseNode_node h hl hr) (hneed.trans (hro r c' z'' hr))

end

/-- Fuel that cannot end before the count of nodes passes 511 is enough. -/
theorem parseAgrees {fuel count : Nat} (hcount : count ≤ 511) (hfuel : 512 ≤ fuel + count) (need : Nat)
    (z : List Byte) : ParseAgrees fuel count need z := by
  induction fuel generalizing count need z with
  | zero => omega
  | succ fuel ih =>
    cases z with
    | nil => exact .of_error parseNode_nil rfl
    | cons tag z =>
      rcases Nat.lt_or_ge count 511 with h | h
      · by_cases h1 : tag = 0x01
        · subst h1
          cases z with
          | nil => exact .of_error (parseNode_leafCut h) (treeError_leafCut h)
          | cons s z => exact .of_ok (parseNode_leaf h) (treeError_leaf h)
        · by_cases h0 : tag = 0x00
          · subst h0
            exact .node h hfuel ih
          · exact .of_error (parseNode_unknownTag h0 h1) (treeError_unknownTag h0 h1)
      · exact .of_error (parseNode_full h) (treeError_full h)

theorem parseTree_error_of_treeError {z : List Byte} {e : ErrCode} (h : treeError 1 0 z = some e) :
    parseTree z = .error e := by
  obtain ⟨herror, hok⟩ := parseAgrees (fuel := maxTreeNodes + 1) (count := 0) (by decide) (by decide) 0 z
  cases hp : parseNode (maxTreeNodes + 1) 0 z with
  | error e' =>
    rw [herror e' hp, Option.some.injEq] at h
    exact h ▸ parseTree_of_parseNode_error hp
  | ok p =>
    have hnone := hok p.1 p.2.1 p.2.2 hp
    rw [treeError] at hnone
    exact nomatch hnone.symm.trans h

theorem parseTree_ok_of_treeError {z : List Byte} (h : treeError 1 0 z = none) : ∃ t d, parseTree z = .ok (t, d) := by
  obtain ⟨herror, -⟩ := parseAgrees (fuel := maxTreeNodes + 1) (count := 0) (by decide) (by decide) 0 z
  cases hp : parseNode (maxTreeNodes + 1) 0 z with
  | error e => exact nomatch (herror e hp).symm.trans h
  | ok p => exact ⟨p.1, p.2.2, parseTree_of_parseNode_ok hp⟩

/-! The walk (42_huffman.md R275). -/

section
variable {root cur l r : HufTree} {f : Nat} {a e : Bool} {s c : Byte} {b w p : Bits} {out : List Byte} {err : ErrCode}

theorem walkFrom_leaf (h : cur.descend e = .leaf s f) :
    walkFrom root cur a (e :: b) = (walkFrom root root true b).map (s :: ·) := by
  rw [walkFrom, h]
  cases walkFrom root root true b <;> rfl

theorem walkFrom_node (h : cur.descend e = .node l r f) :
    walkFrom root cur a (e :: b) = walkFrom root (.node l r f) false b := by
  rw [walkFrom, h]

/-- The path of a leaf under `cur` puts out its symbol and leads back to the root. -/
theorem walkFrom_isPath (h : (HufTree.node l r f).IsPath p c) :
    walkFrom root (.node l r f) a (p ++ b) = (walkFrom root root true b).map (c :: ·) := by
  induction p generalizing l r f a with
  | nil => exact nomatch h.1.choose_spec
  | cons e p ih =>
    obtain ⟨_, _, heq, hp⟩ := HufTree.isPath_node_iff.1 h
    obtain ⟨rfl, rfl⟩ := List.cons.inj heq
    cases hd : (HufTree.node l r f).descend e with
    | leaf s g =>
      rw [hd, HufTree.isPath_leaf_iff] at hp
      obtain ⟨rfl, rfl⟩ := hp
      exact walkFrom_leaf hd
    | node l' r' f' =>
      rw [List.cons_append, walkFrom_node hd]
      exact ih (hd ▸ hp)

theorem walkFrom_error (h : walkFrom root cur a b = .error err) : err = .corruptStream := by
  induction b generalizing cur a with
  | nil =>
    cases a with
    | true => cases h
    | false => exact (Except.error.inj h).symm
  | cons e b ih =>
    cases hd : cur.descend e with
    | leaf s f =>
      rw [walkFrom_leaf hd] at h
      cases hw : walkFrom root root true b with
      | error err' => rw [hw] at h; cases h; exact ih hw
      | ok out => rw [hw] at h; cases h
    | node l r f =>
      rw [walkFrom_node hd] at h
      exact ih h

/-- A walk that ends at the root goes on from there. -/
theorem walkFrom_append (ha : a = true → cur = root) (h : walkFrom root cur a w = .ok out) (b : Bits) :
    walkFrom root cur a (w ++ b) = (walkFrom root root true b).map (out ++ ·) := by
  induction w generalizing cur a out with
  | nil =>
    cases a with
    | false => cases h
    | true =>
      cases h
      rw [ha rfl, List.nil_append]
      cases walkFrom root root true b <;> rfl
  | cons e w ih =>
    rw [List.cons_append]
    cases hd : cur.descend e with
    | leaf s f =>
      rw [walkFrom_leaf hd] at h ⊢
      cases hw : walkFrom root root true w with
      | error err => rw [hw] at h; cases h
      | ok out' =>
        rw [hw] at h
        cases h
        rw [ih (fun _ => rfl) hw]
        cases walkFrom root root true b <;> rfl
    | node l r f =>
      rw [walkFrom_node hd] at h ⊢
      exact ih nofun h

/-! Bits cut inside a code (42_huffman.md R275). -/

theorem HufTree.cutInside_cons_iff {t : HufTree} :
    t.CutInside (e :: b) ↔ ∃ l r f, t.descend e = .node l r f ∧ (b = [] ∨ (HufTree.node l r f).CutInside b) := by
  constructor
  · rintro ⟨-, h⟩
    obtain ⟨l, r, f, hd⟩ := h 1 Nat.one_pos (Nat.succ_le_succ (Nat.zero_le _))
    refine ⟨l, r, f, hd, or_iff_not_imp_left.2 fun hb => ⟨hb, fun k _ hk => ?_⟩⟩
    have hnode := h (k + 1) (Nat.succ_pos k) (Nat.succ_le_succ hk)
    rwa [List.take_succ_cons, List.foldl_cons, show t.descend e = _ from hd] at hnode
  · rintro ⟨l, r, f, hd, hb⟩
    refine ⟨List.cons_ne_nil _ _, fun k hpos hk => ?_⟩
    obtain ⟨k, rfl⟩ := Nat.exists_eq_add_of_le' hpos
    rw [List.take_succ_cons, List.foldl_cons, hd]
    rcases Nat.eq_zero_or_pos k with rfl | hk'
    · exact ⟨l, r, f, rfl⟩
    · rcases hb with rfl | ⟨-, hb⟩
      · exact absurd (Nat.le_of_succ_le_succ hk) (Nat.not_le.2 hk')
      · exact hb k hk' (Nat.le_of_succ_le_succ hk)

/-- Under a node, bits start with the path of a leaf or are cut inside one. -/
theorem cutInside_or_isPath (hb : b ≠ []) (l r : HufTree) (f : Nat) :
    (HufTree.node l r f).CutInside b ∨ ∃ p c b', b = p ++ b' ∧ (HufTree.node l r f).IsPath p c := by
  induction b generalizing l r f with
  | nil => exact absurd rfl hb
  | cons e b ih =>
    simp only [HufTree.cutInside_cons_iff, HufTree.isPath_node_iff]
    cases hd : (HufTree.node l r f).descend e with
    | leaf s g => exact .inr ⟨[e], s, b, rfl, e, [], rfl, hd ▸ HufTree.isPath_leaf_iff.2 ⟨rfl, rfl⟩⟩
    | node l' r' f' =>
      by_cases hnil : b = []
      · exact .inl ⟨l', r', f', rfl, .inl hnil⟩
      · rcases ih hnil l' r' f' with hcut | ⟨p, c, b', rfl, hp⟩
        · exact .inl ⟨l', r', f', rfl, .inr hcut⟩
        · exact .inr ⟨e :: p, c, b', rfl, e, p, rfl, hd ▸ hp⟩

theorem walkFrom_cutInside (h : cur.CutInside b) : walkFrom root cur a b = .error .corruptStream := by
  induction b generalizing cur a with
  | nil => exact absurd rfl h.1
  | cons e b ih =>
    obtain ⟨l, r, f, hd, hb⟩ := HufTree.cutInside_cons_iff.1 h
    rw [walkFrom_node hd]
    rcases hb with rfl | hb
    · rfl
    · exact ih hb

theorem HufTree.IsPath.ne_nil (h : (HufTree.node l r f).IsPath p c) : p ≠ [] := by
  obtain ⟨e, q, rfl, -⟩ := HufTree.isPath_node_iff.1 h
  exact List.cons_ne_nil e q

/-- A walk that fails goes wrong inside a code after whole codes. -/
theorem exists_cut_of_walk_error (h : walk (.node l r f) b = .error err) :
    ∃ w x out, b = w ++ x ∧ walk (.node l r f) w = .ok out ∧ (HufTree.node l r f).CutInside x := by
  induction hn : b.length using Nat.strong_induction_on generalizing b with
  | h n ih =>
    have hb : b ≠ [] := by rintro rfl; cases h
    rcases cutInside_or_isPath hb l r f with hcut | ⟨p, c, b', rfl, hp⟩
    · exact ⟨[], b, [], rfl, rfl, hcut⟩
    · rw [walk, walkFrom_isPath hp] at h
      cases hw : walkFrom (.node l r f) (.node l r f) true b' with
      | ok out => rw [hw] at h; cases h
      | error err' =>
        rw [hw] at h
        cases h
        have hlt : b'.length < n := by
          have hpos := List.length_pos_iff.2 hp.ne_nil
          rw [List.length_append] at hn
          omega
        obtain ⟨w, x, out, rfl, hok, hcut⟩ := ih b'.length hlt hw rfl
        refine ⟨p ++ w, x, c :: out, (List.append_assoc p w x).symm, ?_, hcut⟩
        rw [walk] at hok ⊢
        rw [walkFrom_isPath hp, hok]
        rfl

theorem walk_node_error_iff :
    walk (.node l r f) b = .error .corruptStream ↔
      ∃ w x out, b = w ++ x ∧ walk (.node l r f) w = .ok out ∧ (HufTree.node l r f).CutInside x := by
  refine ⟨exists_cut_of_walk_error, ?_⟩
  rintro ⟨w, x, out, rfl, hok, hcut⟩
  rw [walk] at hok ⊢
  rw [walkFrom_append (fun _ => rfl) hok, walkFrom_cutInside hcut]
  rfl

theorem walk_leaf_error_iff : walk (.leaf c f) b = .error err ↔ true ∈ b ∧ err = .corruptStream := by
  have hall : (b.all (!·)) = true ↔ true ∉ b := by
    rw [List.all_eq_true]
    exact ⟨fun h hmem => Bool.noConfusion (h true hmem), fun h e he => by cases e <;> simp_all⟩
  unfold walk walkLeaf
  split_ifs with hb
  · exact iff_of_false nofun fun h => hall.1 hb h.1
  · rw [hall, not_not] at hb
    rw [and_iff_right hb, Except.error.injEq, eq_comm]

theorem walk_error {t : HufTree} (h : walk t b = .error err) : err = .corruptStream := by
  cases t with
  | leaf c f => exact (walk_leaf_error_iff.1 h).2
  | node l r f => exact walkFrom_error h

end

/-! The parts of an artifact, one after the other (42_huffman.md R280). -/

section
variable {p : Byte} {z d out : List Byte} {t : HufTree} {b : Bits} {e : ErrCode}

theorem decodeArtifact_badPadding (h : 7 < p.toNat) : decodeArtifact (p :: z) = .error .corruptStream := if_pos h

variable (hp : p.toNat ≤ 7)
include hp

theorem decodeArtifact_badTree (h : parseTree z = .error e) : decodeArtifact (p :: z) = .error e := by
  simp only [decodeArtifact, if_neg (Nat.not_lt.2 hp), h]

theorem decodeArtifact_noData (h : parseTree z = .ok (t, d)) (hd : unpack d p.toNat = none) :
    decodeArtifact (p :: z) = .error .corruptStream := by
  simp only [decodeArtifact, if_neg (Nat.not_lt.2 hp), h, hd]

theorem decodeArtifact_badData (h : parseTree z = .ok (t, d)) (hd : unpack d p.toNat = some b)
    (hw : walk t b = .error e) : decodeArtifact (p :: z) = .error e := by
  simp only [decodeArtifact, if_neg (Nat.not_lt.2 hp), h, hd, hw]

theorem decodeArtifact_ok (h : parseTree z = .ok (t, d)) (hd : unpack d p.toNat = some b) (hw : walk t b = .ok out) :
    decodeArtifact (p :: z) = .ok (t, b.length, out) := by
  simp only [decodeArtifact, if_neg (Nat.not_lt.2 hp), h, hd, hw]

end

/-- Settles O42: the artifact fails at its first part that does. -/
theorem malformedArtifactErrors : Obligations.MalformedArtifactErrors := by
  refine ⟨rfl, fun p z h => decodeArtifact_badPadding h,
    fun p z e hp h => decodeArtifact_badTree hp (parseTree_error_of_treeError h),
    fun z h => parseTree_ok_of_treeError h, fun p z t hp hne h => decodeArtifact_noData hp h ?_,
    fun p z d t b hp h hd => ⟨fun e hw => ⟨decodeArtifact_badData hp h hd hw, walk_error hw⟩,
      fun out hw => decodeArtifact_ok hp h hd hw⟩,
    fun c f b => ?_, fun l r f b => walk_node_error_iff⟩
  · exact unpack_eq_none_iff.2 (Nat.pos_of_ne_zero fun h0 => hne (BitVec.eq_of_toNat_eq h0))
  · rw [walk_leaf_error_iff, and_iff_left rfl]

end Sys2Proof.Machine

/-! HUF_ENCODE and HUF_DECODE by their outcomes (O40, O41), and decoding what was encoded (O43, O44). -/

namespace Sys2Proof.Machine

/-! Failures of a codec command (40_control.md R175, R178-R180). -/

theorem Memory.lookup_storeDraws_of_mem (m : Memory) (k : Nat) {as : List Nat} {a : Nat} (h : a ∈ as) :
    ∃ n, k ≤ n ∧ Memory.lookup (Memory.storeDraws m k as) a = some (Config.drawByte n) := by
  induction as generalizing m k with
  | nil => cases h
  | cons b as ih =>
    by_cases ha : a ∈ as
    · obtain ⟨n, hn, hlookup⟩ := ih (Memory.store m b (Config.drawByte k)) (k + 1) ha
      exact ⟨n, (Nat.le_succ k).trans hn, hlookup⟩
    · obtain rfl := (List.mem_cons.1 h).resolve_right ha
      refine ⟨k, le_rfl, ?_⟩
      rw [Memory.storeDraws, Memory.lookup_storeDraws_of_notMem _ _ _ _ ha, Memory.lookup_store, if_pos rfl]

section
variable {s : State} {e : ErrCode} {a : Nat}

theorem State.readByte_spoil_of_mem {as : List Nat} (h : a ∈ as) :
    ∃ n, s.draws ≤ n ∧ (s.spoil as).readByte a = Config.drawByte n := by
  obtain ⟨n, hn, hlookup⟩ := Memory.lookup_storeDraws_of_mem s.lmem s.draws h
  refine ⟨n, hn, ?_⟩
  rw [State.readByte, State.spoil_lmem, hlookup, Option.getD_some]

/-- An error completion from a spoiled destination is what the rules of the codec commands ask for. -/
theorem failedSpoiled_spoilDst (s : State) (e : ErrCode) : FailedSpoiled s (s.spoilDst.completeErr e) e :=
  ⟨rfl, fun _ ha => State.readByte_spoil_of_mem ha, fun _ ha => s.readByte_spoil_of_notMem _ _ ha⟩

theorem State.codecCheck_of_outOfRange
    (h : s.params.lmemSize < s.src + s.srcLen ∨ s.params.lmemSize < s.dst + s.dstCap) :
    s.codecCheck = some .addressRange := by
  refine if_pos ?_
  rw [Bool.not_eq_true', ← Bool.not_eq_true, Bool.and_eq_true, State.inRange_iff, State.inRange_iff]
  omega

theorem State.codecCheck_of_overlap (hsrc : s.src + s.srcLen ≤ s.params.lmemSize)
    (hdst : s.dst + s.dstCap ≤ s.params.lmemSize) (h : ¬s.RegionsOk) : s.codecCheck = some .regionOverlap := by
  have hrange : ¬(!(s.inRange s.src s.srcLen && s.inRange s.dst s.dstCap)) = true := by
    rw [(s.inRange_iff _ _).2 hsrc, (s.inRange_iff _ _).2 hdst]
    decide
  have hoverlap : overlap s.src s.srcLen s.dst s.dstCap = true :=
    (overlap_iff _ _ _ _).2 (not_not.1 fun hno => h ⟨hsrc, hdst, hno⟩)
  exact (if_neg hrange).trans (if_pos hoverlap)

theorem exec_hufEncode_of_check (h : s.codecCheck = some e) : exec .hufEncode s = .next (s.completeErr e) := by
  simp only [exec, execHufEncode, h]
  rfl

theorem exec_hufDecode_of_check (h : s.codecCheck = some e) : exec .hufDecode s = .next (s.completeErr e) := by
  simp only [exec, execHufDecode, h]
  rfl

/-- A successful codec command stores its bytes at DST_ADDR. -/
theorem State.readMem_written (s : State) (d : Nat) (bs : List Byte) (n m : Nat) :
    ((s.writeMem d bs).completeOk n m).readMem d bs.length = bs := s.readMem_writeMem_self d bs

theorem State.readByte_written (s : State) {d : Nat} {bs : List Byte} (n m : Nat) (h : a < d ∨ d + bs.length ≤ a) :
    ((s.writeMem d bs).completeOk n m).readByte a = s.readByte a :=
  (s.readByte_writeMem d bs a).trans (if_neg (by omega))

end

/-! The counts of a source (42_huffman.md R247). -/

section
variable {y : List Byte} {c : Byte}

theorem freqCounts_getD (y : List Byte) (c : Byte) : (freqCounts y).getD c.toNat 0 = y.count c := by
  have hc : c.toNat < (freqCounts y).length := (freqCounts_length y).symm ▸ c.isLt
  rw [List.getD_eq_getElem _ _ hc]
  simp [freqCounts]

theorem freqCounts_nil : freqCounts [] = List.replicate 256 0 :=
  List.eq_replicate_iff.2 ⟨freqCounts_length [], List.forall_mem_map.2 fun _ _ => List.count_nil⟩

theorem freqCounts_all_zero_iff : (∀ f ∈ freqCounts y, f = 0) ↔ y = [] := by
  constructor
  · intro h
    refine List.eq_nil_iff_forall_not_mem.2 fun c hc => ?_
    have hlt : c.toNat < (freqCounts y).length := (freqCounts_length y).symm ▸ c.isLt
    have hzero := h _ (List.getElem_mem hlt)
    rw [← List.getD_eq_getElem _ 0, freqCounts_getD] at hzero
    exact List.count_eq_zero.1 hzero hc
  · rintro rfl
    exact fun f hf => List.eq_of_mem_replicate (freqCounts_nil ▸ hf)

/-- Only an empty source has no tree. -/
theorem exists_buildTree_freqCounts (h : y ≠ []) : ∃ t, buildTree (freqCounts y) = some t :=
  Option.ne_none_iff_exists'.1 fun hnone => h (freqCounts_all_zero_iff.1 (buildTree_eq_none_iff.1 hnone))

theorem freqWords_freqCounts_nil : freqWords (freqCounts []) = List.replicate 256 0 := by
  rw [freqCounts_nil, freqWords, List.map_replicate]
  rfl

end

/-- Settles O40: the region checks, then the three outcomes by the tree of the source and the length of the artifact. -/
theorem hufEncodeWritesTheArtifact : Obligations.HufEncodeWritesTheArtifact := by
  refine fun s => ⟨fun h => exec_hufEncode_of_check (State.codecCheck_of_outOfRange h),
    fun hsrc hdst h => exec_hufEncode_of_check (State.codecCheck_of_overlap hsrc hdst h), fun hr hlen => ?_,
    fun hr hlen => ?_⟩
  · have hnil : s.source = [] := List.eq_nil_of_length_eq_zero (s.source_length.trans hlen)
    have ht : buildTree (freqCounts s.source) = none := buildTree_eq_none_iff.2 (freqCounts_all_zero_iff.2 hnil)
    refine ⟨_, exec_hufEncode_empty hr ht, ?_⟩
    rw [← freqWords_freqCounts_nil, ← hnil]
    exact failedSpoiled_spoilDst _ _
  · have hne : s.source ≠ [] := fun hnil => hlen (s.source_length.symm.trans (congrArg List.length hnil))
    obtain ⟨t, ht⟩ := exists_buildTree_freqCounts hne
    exact ⟨t, ht, _, rfl, _, rfl,
      fun hover => ⟨_, exec_hufEncode_overflow hr ht hover, failedSpoiled_spoilDst _ _⟩,
      fun hfit => ⟨_, exec_hufEncode_ok hr ht hfit, rfl, State.readMem_written _ _ _ _ _,
        fun a ha => State.readByte_written (s.encodeStores (some t)) _ _ ha⟩⟩

/-! HUF_DECODE by its outcomes (42_huffman.md R280). -/

section
variable {s : State} {e : ErrCode} {t : HufTree} {n : Nat} {out : List Byte} (hr : s.RegionsOk)
include hr

theorem exec_hufDecode_malformed (hd : decodeArtifact s.source = .error e) :
    exec .hufDecode s = .next (s.dropTree.spoilDst.completeErr e) := by
  simp only [exec, execHufDecode, State.regionsOk_iff.1 hr, hd]
  rfl

theorem exec_hufDecode_overflow (hd : decodeArtifact s.source = .ok (t, n, out)) (hlen : s.dstCap < out.length) :
    exec .hufDecode s = .next (s.dropTree.spoilDst.completeErr .outputOverflow) := by
  simp only [exec, execHufDecode, State.regionsOk_iff.1 hr, hd, if_pos hlen]
  rfl

theorem exec_hufDecode_ok (hd : decodeArtifact s.source = .ok (t, n, out)) (hlen : out.length ≤ s.dstCap) :
    exec .hufDecode s = .next
      ((State.writeMem { s with huf := { s.huf with tree := some t, codes := none } } s.dst out).completeOk
        out.length n) := by
  simp only [exec, execHufDecode, State.regionsOk_iff.1 hr, hd, if_neg (Nat.not_lt.2 hlen)]
  rfl

end

/-- Settles O41: the region checks, then the three outcomes by the artifact and the length of its symbols. -/
theorem hufDecodeWritesTheSymbols : Obligations.HufDecodeWritesTheSymbols :=
  fun s => ⟨fun h => exec_hufDecode_of_check (State.codecCheck_of_outOfRange h),
    fun hsrc hdst h => exec_hufDecode_of_check (State.codecCheck_of_overlap hsrc hdst h),
    fun _ hr hd => ⟨_, exec_hufDecode_malformed hr hd, failedSpoiled_spoilDst _ _⟩,
    fun _ _ _ hr hd => ⟨fun hover => ⟨_, exec_hufDecode_overflow hr hd hover, failedSpoiled_spoilDst _ _⟩,
      fun hfit => ⟨_, exec_hufDecode_ok hr hd hfit, rfl, State.readMem_written _ _ _ _ _,
        fun _ ha => State.readByte_written { s with huf := _ } _ _ ha⟩⟩⟩

/-! The walk of coded bits (42_huffman.md R285). -/

section
variable {t : HufTree} {y : List Byte}

theorem codedBits_cons (C : CodeBook) (c : Byte) (y : List Byte) :
    codedBits C (c :: y) = (CodeBook.find C c).getD [] ++ codedBits C y := rfl

theorem codedBits_leaf {c : Byte} {f : Nat} (h : ∀ x ∈ y, x = c) :
    codedBits (codesOf (.leaf c f)) y = List.replicate y.length false := by
  induction y with
  | nil => rfl
  | cons x y ih =>
    obtain ⟨rfl, hy⟩ := List.forall_mem_cons.1 h
    have hfind : CodeBook.find (codesOf (.leaf x f)) x = some [false] := List.lookup_cons_self
    rw [codedBits_cons, hfind, ih hy]
    rfl

theorem walk_leaf_replicate (c : Byte) (f n : Nat) :
    walk (.leaf c f) (List.replicate n false) = .ok (List.replicate n c) := by
  rw [walk, walkLeaf, if_pos (by simp), List.length_replicate]

/-- Symbols of the tree, coded by its codes, are walked back one by one. -/
theorem walk_codedBits (h : ∀ c ∈ y, c ∈ t.leafList.map Prod.fst) : walk t (codedBits (codesOf t) y) = .ok y := by
  cases t with
  | leaf c f =>
    have hall : ∀ x ∈ y, x = c := fun x hx => List.mem_singleton.1 (h x hx)
    rw [codedBits_leaf hall, walk_leaf_replicate, ← List.eq_replicate_of_mem hall]
  | node l r f =>
    induction y with
    | nil => rfl
    | cons c y ih =>
      obtain ⟨hc, hy⟩ := List.forall_mem_cons.1 h
      obtain ⟨p, hp⟩ := Option.isSome_iff_exists.1 ((find_codesOf_isSome_iff _ c).2 hc)
      have hrest := ih hy
      rw [walk] at hrest ⊢
      rw [codedBits_cons, hp, Option.getD_some, walkFrom_isPath (isPath_of_find hp), hrest]
      rfl

/-! A parsed tree has the codes of the serialized one: its frequencies are 0 and nothing else differs. -/

theorem visit_zeroFreq (t : HufTree) (p : Bits) (C : CodeBook) : visit t.zeroFreq p C = visit t p C := by
  induction t generalizing p C with
  | leaf => rfl
  | node l r f ihl ihr => rw [HufTree.zeroFreq, visit, visit, ihl, ihr]

theorem codesOf_zeroFreq (t : HufTree) : codesOf t.zeroFreq = codesOf t := by
  cases t with
  | leaf => rfl
  | node l r f => exact visit_zeroFreq (.node l r f) [] []

theorem leafList_zeroFreq_map_fst (t : HufTree) : t.zeroFreq.leafList.map Prod.fst = t.leafList.map Prod.fst := by
  induction t with
  | leaf => rfl
  | node l r f ihl ihr => simp only [HufTree.zeroFreq, HufTree.leafList, List.map_append, ihl, ihr]

/-- An artifact decodes to what its bits walk to under its tree. -/
theorem decodeArtifact_artifact {b : Bits} {out : List Byte} (ht : t.nodes ≤ 511) (hw : walk t.zeroFreq b = .ok out) :
    decodeArtifact (artifact t b) = .ok (t.zeroFreq, b.length, out) := by
  have hpad : (BitVec.ofNat 8 (padCount b.length)).toNat = padCount b.length :=
    Nat.mod_eq_of_lt ((padCount_le _).trans_lt (by decide))
  refine decodeArtifact_ok (hpad.trans_le (padCount_le _)) (parseTree_serialize ht _) ?_ hw
  rw [hpad, unpack_packBytes]

/-- Every symbol of a source is on a leaf of its tree. -/
theorem mem_symbols_of_mem_source {c : Byte} (ht : buildTree (freqCounts y) = some t) (hc : c ∈ y) :
    c ∈ t.leafList.map Prod.fst := by
  have hleaf := (mem_leafList_buildTree (freqCounts_length y) ht c (y.count c)).2
    ⟨freqCounts_getD y c, Nat.ne_of_gt (List.count_pos_iff.2 hc)⟩
  exact List.mem_map_of_mem hleaf

/-- The artifact of a source decodes to the source (42_huffman.md R285). -/
theorem decodeArtifact_encoded (ht : buildTree (freqCounts y) = some t) :
    decodeArtifact (artifact t (codedBits (codesOf t) y)) = .ok (t.zeroFreq, (codedBits (codesOf t) y).length, y) := by
  refine decodeArtifact_artifact (buildTree_nodes_le (freqCounts_length y) ht) ?_
  rw [← codesOf_zeroFreq]
  exact walk_codedBits fun c hc => leafList_zeroFreq_map_fst t ▸ mem_symbols_of_mem_source ht hc

end

/-- A HUF_ENCODE that succeeds wrote the artifact of its source. -/
theorem hufEncode_success {s t : State} (h : exec .hufEncode s = .next t)
    (hok : t.status.err = false) :
    ∃ T, buildTree (freqCounts s.source) = some T ∧ (artifact T (s.encodeBits T)).length ≤ s.dstCap ∧
      t = ((s.encodeStores (some T)).writeMem s.dst (artifact T (s.encodeBits T))).completeOk
        (artifact T (s.encodeBits T)).length (s.encodeBits T).length := by
  cases completes_of_exec h with
  | refusedEarly | hufEncodeEmpty | hufEncodeOverflow => cases hok
  | lzwFailed _ hi => exact nomatch hi
  | hufEncode _ T hT hlen => exact ⟨T, hT, hlen, rfl⟩

theorem State.readMem_congr {s u : State} {a b n : Nat} (h : ∀ k < n, u.readByte (a + k) = s.readByte (b + k)) :
    u.readMem a n = s.readMem b n :=
  List.map_congr_left fun k hk => h k (List.mem_range.1 hk)

/-- Settles O43: the source of HUF_DECODE is the artifact, which decodes to the source of HUF_ENCODE. -/
theorem huffmanRoundTrip : Obligations.HuffmanRoundTrip := by
  intro s t u h _ hok hr hsrc hsrcLen hcap hbytes
  obtain ⟨T, hT, hlen, rfl⟩ := hufEncode_success h hok
  generalize hart : artifact T (s.encodeBits T) = art at *
  have hout : (BitVec.ofNat 32 art.length).toNat = art.length :=
    Nat.mod_eq_of_lt (hlen.trans_lt s.regs.dstCap.isLt)
  have hlen' : u.srcLen = art.length := hsrcLen.trans hout
  have hsource : u.source = art := by
    rw [State.source, hsrc, hlen']
    refine (State.readMem_congr fun k hk => hbytes _ (Nat.le_add_right _ _) ?_).trans
      ((s.encodeStores (some T)).readMem_written s.dst art art.length (s.encodeBits T).length)
    exact Nat.add_lt_add_left (hk.trans_eq hout.symm) _
  have hd : decodeArtifact u.source = .ok (T.zeroFreq, (s.encodeBits T).length, s.source) := by
    rw [hsource, ← hart]
    exact decodeArtifact_encoded hT
  have hfit : s.source.length ≤ u.dstCap := s.source_length.trans_le hcap
  refine ⟨_, exec_hufDecode_ok hr hd hfit, rfl, ?_, ?_, rfl⟩
  · have hread := State.readMem_written { u with huf := { u.huf with tree := some T.zeroFreq, codes := none } } u.dst
      s.source s.source.length (s.encodeBits T).length
    rw [s.source_length] at hread ⊢
    exact hread
  · exact congrArg (BitVec.ofNat 32) s.source_length

/-! One symbol (42_huffman.md R290). -/

section
variable {n : Nat} {c : Byte}

/-- A tree whose leaves are one leaf is that leaf. -/
theorem HufTree.eq_leaf_of_leafList {t : HufTree} {f : Nat} (h : t.leafList = [(c, f)]) : t = .leaf c f := by
  cases t with
  | leaf s g => cases h; rfl
  | node l r g =>
    have hleaves := (HufTree.node l r g).leaves_eq_length
    rw [h, HufTree.leaves, List.length_singleton] at hleaves
    have hl := l.leaves_pos
    have hr := r.leaves_pos
    omega

theorem buildTree_replicate (hn : 1 ≤ n) (c : Byte) : buildTree (freqCounts (List.replicate n c)) = some (.leaf c n) := by
  have hne : List.replicate n c ≠ [] := by simp; omega
  obtain ⟨t, ht⟩ := exists_buildTree_freqCounts hne
  have hall : ∀ x ∈ t.leafList, x = (c, n) := fun ⟨d, f⟩ hx => by
    obtain ⟨hf, hf0⟩ := (mem_leafList_buildTree (freqCounts_length _) ht d f).1 hx
    rw [freqCounts_getD, List.count_replicate] at hf
    split_ifs at hf with hd
    · rw [← hf, ← beq_iff_eq.1 hd]
    · exact absurd hf.symm hf0
  have hnodup := buildTree_symbols_nodup (freqCounts_length _) ht
  have hlist := List.eq_replicate_of_mem hall
  rw [hlist, List.map_replicate, List.nodup_replicate] at hnodup
  have hone : t.leafList.length = 1 := Nat.le_antisymm hnodup (t.leaves_eq_length ▸ t.leaves_pos)
  rw [hone] at hlist
  rw [ht, HufTree.eq_leaf_of_leafList hlist]

theorem bitsToNat_replicate_false (n : Nat) : bitsToNat (List.replicate n false) = 0 := by
  induction n with
  | zero => rfl
  | succ n ih => rw [List.replicate_succ', bitsToNat_concat, ih]; rfl

theorem packBytes_replicate_false (n : Nat) : packBytes (List.replicate n false) = List.replicate ((n + 7) / 8) 0x00 := by
  have hbyte (j : Nat) : packedByte (List.replicate n false) j = 0x00 := by
    simp only [packedByte, padded, List.replicate_append_replicate, List.drop_replicate, List.take_replicate,
      byteOfBits, bitsToNat_replicate_false]
    rfl
  refine List.eq_replicate_iff.2 ⟨by simp, fun y hy => ?_⟩
  obtain ⟨j, -, rfl⟩ := List.mem_map.1 hy
  exact hbyte j

/-- The artifact of `n` copies of one byte. -/
theorem artifact_leaf (c : Byte) (f n : Nat) :
    artifact (.leaf c f) (List.replicate n false) =
      [BitVec.ofNat 8 ((8 - n % 8) % 8), 0x01, c] ++ List.replicate ((n + 7) / 8) 0x00 := by
  rw [artifact, packBytes_replicate_false, List.length_replicate]
  rfl

theorem artifact_leaf_length (c : Byte) (f n : Nat) :
    (artifact (.leaf c f) (List.replicate n false)).length = 3 + (n + 7) / 8 := by
  rw [artifact_leaf, List.length_append, List.length_replicate]
  rfl

end

/-- Settles O44: the tree is one leaf, each copy is coded by one 0, and the walk under a leaf puts out one copy for each. -/
theorem singleSymbolRoundTrip : Obligations.SingleSymbolRoundTrip := by
  refine fun n c hn => ⟨fun s hr hsource hcap => ?_, fun u hr hsource hcap => ?_⟩
  · have hT : buildTree (freqCounts s.source) = some (.leaf c n) := by
      rw [State.source, hsource, buildTree_replicate hn]
    have hbits : s.encodeBits (.leaf c n) = List.replicate n false := by
      rw [State.encodeBits, State.source, hsource, codedBits_leaf (fun x hx => List.eq_of_mem_replicate hx),
        List.length_replicate]
    have hlen := artifact_leaf_length c n n
    have hexec := exec_hufEncode_ok hr hT (by rw [hbits, hlen]; exact hcap)
    rw [hbits] at hexec
    refine ⟨_, hexec, rfl, congrArg (BitVec.ofNat 32) hlen, ?_⟩
    rw [← hlen, ← artifact_leaf c n]
    exact State.readMem_written _ _ _ _ _
  · have hd : decodeArtifact u.source = .ok (.leaf c 0, n, List.replicate n c) := by
      have h := decodeArtifact_artifact (t := .leaf c 0) (Nat.le_add_left 1 510) (walk_leaf_replicate c 0 n)
      rwa [artifact_leaf, List.length_replicate, ← hsource] at h
    have hout : (List.replicate n c).length = n := List.length_replicate
    refine ⟨_, exec_hufDecode_ok hr hd (hout.trans_le hcap), rfl, ?_⟩
    have hread := State.readMem_written { u with huf := { u.huf with tree := some (.leaf c 0), codes := none } } u.dst
      (List.replicate n c) (List.replicate n c).length n
    rw [hout] at hread ⊢
    exact hread

end Sys2Proof.Machine

/-! The codes of LZW (43_lzw.md): the runs of the encoder, the cut they make (O47), the decoder along a cut, and its failures (O48). -/

namespace Sys2Proof.Machine

/-! Output in front of what is still to come. Both loops build their results this way. -/

section
variable {α : Type}

/-- A loop's result with `xs` put out before it. -/
def putBefore (xs : List α) (r : Except ErrCode (List α × Nat)) : Except ErrCode (List α × Nat) :=
  r.map fun out => (xs ++ out.1, out.2)

@[simp] theorem putBefore_ok (xs ys : List α) (n : Nat) : putBefore xs (.ok (ys, n)) = .ok (xs ++ ys, n) := rfl

@[simp] theorem putBefore_error (xs : List α) (e : ErrCode) : putBefore xs (.error e) = .error e := rfl

theorem putBefore_append (xs ys : List α) (r : Except ErrCode (List α × Nat)) :
    putBefore (xs ++ ys) r = putBefore xs (putBefore ys r) := by
  cases r with
  | error => rfl
  | ok out => exact congrArg (fun l => Except.ok (l, out.2)) (List.append_assoc xs ys out.1)

end

/-! One turn of the encoder (43_lzw.md R303). -/

section
variable {d : LzwDict} {w p y : List Byte} {c : Byte} {n : Nat}

/-- A sequence of two bytes or more is a key when it is an entry. -/
theorem LzwDict.codeOf_concat_isSome (hw : w ≠ []) :
    (LzwDict.codeOf d (w ++ [c])).isSome = true ↔ w ++ [c] ∈ d := by
  cases w with
  | nil => exact absurd rfl hw
  | cons a w =>
    cases w with
    | nil => exact LzwDict.codeOf_isSome d a c []
    | cons b w => exact LzwDict.codeOf_isSome d a b (w ++ [c])

/-- A code is the code of its own entry. -/
theorem LzwDict.entry_of_codeOf (h : LzwDict.codeOf d p = some n) :
    n < LzwDict.next d ∧ LzwDict.entry d n = some p := by
  unfold LzwDict.codeOf at h
  split at h
  next s =>
    obtain rfl := Option.some.inj h
    refine ⟨s.isLt.trans_le d.le_next, (if_pos s.isLt).trans ?_⟩
    rw [BitVec.ofNat_toNat, BitVec.setWidth_eq]
  next =>
    obtain ⟨i, hi, rfl⟩ := Option.map_eq_some_iff.1 h
    obtain ⟨hlt, hget, -⟩ := List.idxOf?_eq_some_iff.1 hi
    refine ⟨Nat.add_lt_add_left hlt 256, (if_neg (by omega)).trans ?_⟩
    rw [Nat.add_sub_cancel_left, List.getElem?_eq_getElem hlt, hget]

theorem lzwEncodeFrom_known (hw : w ≠ []) (h : w ++ [c] ∈ d) :
    lzwEncodeFrom d w (c :: y) = lzwEncodeFrom d (w ++ [c]) y := by
  rw [lzwEncodeFrom, if_pos ((LzwDict.codeOf_concat_isSome hw).2 h)]

theorem lzwEncodeFrom_full (hw : w ≠ []) (h : w ++ [c] ∉ d) (hfull : LzwDict.next d = lzwCapacity) :
    lzwEncodeFrom d w (c :: y) = .error .unsupportedAlphabetSize := by
  rw [lzwEncodeFrom, if_neg (mt (LzwDict.codeOf_concat_isSome hw).1 h), if_pos hfull]

theorem lzwEncodeFrom_new (hw : w ≠ []) (h : w ++ [c] ∉ d) (hroom : LzwDict.next d ≠ lzwCapacity) :
    lzwEncodeFrom d w (c :: y) =
      putBefore [(LzwDict.codeOf d w).getD 0] (lzwEncodeFrom (d ++ [w ++ [c]]) [c] y) := by
  rw [lzwEncodeFrom, if_neg (mt (LzwDict.codeOf_concat_isSome hw).1 h), if_neg hroom]
  cases lzwEncodeFrom (d ++ [w ++ [c]]) [c] y <;> rfl

end

/-! What LZW_ENCODE inserts, part after part. -/

section
variable {P Q : List (List Byte)} {w v : List Byte} {k : Nat}

theorem grownPart_append_left (h : k + 1 < P.length) : grownPart (P ++ Q) k = grownPart P k := by
  rw [grownPart, grownPart, List.getD_append _ _ _ _ (by omega), List.getD_append _ _ _ _ h]

theorem grownPart_concat_concat (P : List (List Byte)) (w v : List Byte) :
    grownPart (P ++ [w] ++ [v]) P.length = w ++ v.take 1 := by
  simp [grownPart]

/-- The last part may still grow: only its first byte is in an entry. -/
theorem grownPart_concat_congr (h : v.take 1 = w.take 1) (hk : k < P.length) :
    grownPart (P ++ [v]) k = grownPart (P ++ [w]) k := by
  have hnext : ((P ++ [v]).getD (k + 1) []).take 1 = ((P ++ [w]).getD (k + 1) []).take 1 := by
    rcases Nat.lt_or_ge (k + 1) P.length with hlt | hge
    · rw [List.getD_append _ _ _ _ hlt, List.getD_append _ _ _ _ hlt]
    · rw [List.getD_append_right _ _ _ _ hge, List.getD_append_right _ _ _ _ hge, Nat.sub_eq_zero_of_le hk]
      exact h
  rw [grownPart, grownPart, hnext, List.getD_append _ _ _ _ hk, List.getD_append _ _ _ _ hk]

/-- The first `n` entries the encoder makes. -/
def grownParts (parts : List (List Byte)) (n : Nat) : LzwDict := (List.range n).map (grownPart parts)

@[simp] theorem grownParts_length (parts : List (List Byte)) (n : Nat) : (grownParts parts n).length = n := by
  rw [grownParts, List.length_map, List.length_range]

theorem grownParts_succ (parts : List (List Byte)) (n : Nat) :
    grownParts parts (n + 1) = grownParts parts n ++ [grownPart parts n] := by
  rw [grownParts, List.range_succ, List.map_append]
  rfl

theorem grownParts_getElem? (parts : List (List Byte)) {j n : Nat} (h : j < n) :
    (grownParts parts n)[j]? = some (grownPart parts j) := by
  rw [grownParts, List.getElem?_map, List.getElem?_range h]
  rfl

theorem grownParts_congr {n : Nat} (h : ∀ k < n, grownPart P k = grownPart Q k) : grownParts P n = grownParts Q n :=
  List.map_congr_left fun k hk => h k (List.mem_range.1 hk)

end

/-! The runs of the encoder. -/

/-- The encoder has inserted `d`, cut off `parts`, put out `codes` and matched `w` (43_lzw.md R303). -/
inductive LzwRun : LzwDict → List (List Byte) → List Byte → List Nat → Prop where
  | start (c : Byte) : LzwRun [] [] [c] []
  | grow {d : LzwDict} {parts : List (List Byte)} {w : List Byte} {codes : List Nat} {c : Byte}
      (run : LzwRun d parts w codes) (known : w ++ [c] ∈ d) : LzwRun d parts (w ++ [c]) codes
  | emit {d : LzwDict} {parts : List (List Byte)} {w : List Byte} {codes : List Nat} {c : Byte}
      (run : LzwRun d parts w codes) (new : w ++ [c] ∉ d) (room : LzwDict.next d ≠ lzwCapacity) :
      LzwRun (d ++ [w ++ [c]]) (parts ++ [w]) [c] (codes ++ [(LzwDict.codeOf d w).getD 0])

namespace LzwRun

section
variable {d : LzwDict} {parts : List (List Byte)} {w : List Byte} {codes : List Nat} (h : LzwRun d parts w codes)
include h

theorem match_ne_nil : w ≠ [] := by
  cases h with
  | start | emit => exact List.cons_ne_nil _ _
  | grow => exact List.concat_ne_nil _ _

theorem parts_ne_nil : ∀ p ∈ parts, p ≠ [] := by
  induction h with
  | start => exact fun _ hp => nomatch hp
  | grow _ _ ih => exact ih
  | emit run _ _ ih => exact List.forall_mem_append.2 ⟨ih, List.forall_mem_singleton.2 run.match_ne_nil⟩

/-- Each part before the match has an entry and a code. -/
theorem lengths : d.length = parts.length ∧ codes.length = parts.length := by
  induction h with
  | start => exact ⟨rfl, rfl⟩
  | grow _ _ ih => exact ih
  | emit _ _ _ ih => simpa using ih

/-- From a run on, `lzw_encode` has put out the run's codes. -/
theorem lzwEncode_eq (y : List Byte) :
    lzwEncode (parts.flatten ++ w ++ y) = putBefore codes (lzwEncodeFrom d w y) := by
  induction h generalizing y with
  | start c =>
    change lzwEncodeFrom [] [c] y = putBefore [] (lzwEncodeFrom [] [c] y)
    cases lzwEncodeFrom [] [c] y <;> rfl
  | @grow d parts w codes c run known ih =>
    rw [← List.append_assoc, List.append_assoc _ [c], List.singleton_append, ih,
      lzwEncodeFrom_known run.match_ne_nil known]
  | @emit d parts w codes c run new room ih =>
    rw [List.flatten_concat, List.append_assoc _ [c], List.singleton_append, ih,
      lzwEncodeFrom_new run.match_ne_nil new room, putBefore_append]

theorem lzwEncode_match :
    lzwEncode (parts.flatten ++ w) = .ok (codes ++ [(LzwDict.codeOf d w).getD 0], LzwDict.next d) := by
  have hrun := h.lzwEncode_eq []
  rwa [List.append_nil] at hrun

theorem lzwEncode_full {c : Byte} (hnew : w ++ [c] ∉ d) (hfull : LzwDict.next d = lzwCapacity) (y : List Byte) :
    lzwEncode (parts.flatten ++ w ++ c :: y) = .error .unsupportedAlphabetSize := by
  rw [h.lzwEncode_eq, lzwEncodeFrom_full h.match_ne_nil hnew hfull, putBefore_error]

/-- The entries are the parts, each with the byte after it. -/
theorem dict_eq : d = grownParts (parts ++ [w]) parts.length := by
  induction h with
  | start => rfl
  | @grow d parts w codes c run _ ih =>
    have htake : (w ++ [c]).take 1 = w.take 1 :=
      List.take_append_of_le_length (List.length_pos_iff.2 run.match_ne_nil)
    exact ih.trans (grownParts_congr fun k hk => (grownPart_concat_congr htake hk).symm)
  | @emit d parts w codes c run _ _ ih =>
    rw [List.length_append, List.length_singleton, grownParts_succ, grownPart_concat_concat]
    refine congrArg (· ++ [w ++ [c]]) (ih.trans (grownParts_congr fun k hk => ?_))
    exact (grownPart_append_left (by rw [List.length_append]; exact Nat.add_lt_add_right hk 1)).symm

/-- The match has a code: it is a byte or an entry. -/
theorem codeOf_match : LzwDict.codeOf d w = some ((LzwDict.codeOf d w).getD 0) := by
  refine Option.eq_some_of_isSome ?_ |>.trans ?_
  · cases h with
    | start | emit => rfl
    | grow run known => exact (LzwDict.codeOf_concat_isSome run.match_ne_nil).2 known
  · rw [Option.get_eq_getD]

/-- If each part had its code in the dictionary of its time, so has the match. -/
theorem codeOf_concat
    (hparts : ∀ k < parts.length, LzwDict.codeOf (d.take k) (parts.getD k []) = some (codes.getD k 0)) {k : Nat} (hk : k ≤ parts.length) :
    LzwDict.codeOf (d.take k) ((parts ++ [w]).getD k []) =
      some ((codes ++ [(LzwDict.codeOf d w).getD 0]).getD k 0) := by
  obtain ⟨hd, hcodes⟩ := h.lengths
  rcases Nat.lt_or_eq_of_le hk with hlt | rfl
  · rw [List.getD_append _ _ _ _ hlt, List.getD_append _ _ _ _ (hcodes ▸ hlt)]
    exact hparts k hlt
  · rw [← hd, List.take_length, hd, List.getD_append_right _ _ _ _ le_rfl,
      List.getD_append_right _ _ _ _ hcodes.le, hcodes, Nat.sub_self]
    exact h.codeOf_match

theorem codeOf_part {k : Nat} (hk : k < parts.length) :
    LzwDict.codeOf (d.take k) (parts.getD k []) = some (codes.getD k 0) := by
  induction h generalizing k with
  | start => exact absurd hk (Nat.not_lt_zero k)
  | grow _ _ ih => exact ih hk
  | emit run _ _ ih =>
    rw [List.length_append, List.length_singleton, Nat.lt_succ_iff] at hk
    rw [List.take_append_of_le_length (run.lengths.1.symm ▸ hk)]
    exact run.codeOf_concat (fun _ => ih) hk

/-- Each part, the match too, has its code in the dictionary of its time. -/
theorem codeOf_part_or_match {k : Nat} (hk : k ≤ parts.length) :
    LzwDict.codeOf (d.take k) ((parts ++ [w]).getD k []) =
      some ((codes ++ [(LzwDict.codeOf d w).getD 0]).getD k 0) :=
  h.codeOf_concat (fun _ => h.codeOf_part) hk

theorem match_mem (hlen : 2 ≤ w.length) : w ∈ d := by
  cases h with
  | start | emit => exact absurd hlen (by decide : ¬2 ≤ 1)
  | grow _ known => exact known

/-- The beginning of an entry is an entry, down to two bytes. -/
theorem mem_of_prefix {e v : List Byte} (he : e ∈ d) (hv : v <+: e) (hlen : 2 ≤ v.length) : v ∈ d := by
  induction h generalizing e with
  | start => cases he
  | grow _ _ ih => exact ih he hv
  | emit run _ _ ih =>
    rcases List.mem_append.1 he with hold | hnew
    · exact List.mem_append_left _ (ih hold hv)
    · obtain rfl := List.mem_singleton.1 hnew
      rcases List.prefix_concat_iff.1 hv with rfl | hshort
      · exact he
      · exact List.mem_append_left _ (ih (run.match_mem (hlen.trans hshort.length_le)) hshort)

/-- A sequence that is no entry begins no entry. -/
theorem not_prefix_of_notMem {c : Byte} {e : List Byte} (hnew : w ++ [c] ∉ d) (he : e ∈ d) : ¬w ++ [c] <+: e := by
  refine fun hpre => hnew (h.mem_of_prefix he hpre ?_)
  rw [List.length_append]
  exact Nat.add_le_add_right (List.length_pos_iff.2 h.match_ne_nil) 1

/-- No entry begins an earlier one: each was new. -/
theorem dict_pairwise : d.Pairwise fun e e' => ¬e' <+: e := by
  induction h with
  | start => exact .nil
  | grow _ _ ih => exact ih
  | emit run new _ ih =>
    refine List.pairwise_append.2 ⟨ih, List.pairwise_singleton _ _, fun e he e' he' => ?_⟩
    obtain rfl := List.mem_singleton.1 he'
    exact run.not_prefix_of_notMem new he

theorem code_lt {k : Nat} (hk : k ≤ parts.length) :
    (codes ++ [(LzwDict.codeOf d w).getD 0]).getD k 0 < 256 + k := by
  have hlt := (LzwDict.entry_of_codeOf (h.codeOf_part_or_match hk)).1
  have htake := List.length_take_le k d
  unfold LzwDict.next at hlt
  omega

theorem dict_getElem? {j : Nat} (hj : j < parts.length) : d[j]? = some (grownPart (parts ++ [w]) j) := by
  rw [h.dict_eq]
  exact grownParts_getElem? _ hj

/-- A run's parts, with the match as the last, are a greedy cut of what it has read (43_lzw.md R303). -/
theorem cut : LzwCut (parts.flatten ++ w) (codes ++ [(LzwDict.codeOf d w).getD 0]) (parts ++ [w]) := by
  obtain ⟨hd, hcodes⟩ := h.lengths
  have hlen : (codes ++ [(LzwDict.codeOf d w).getD 0]).length = parts.length + 1 := by
    rw [List.length_append, hcodes, List.length_singleton]
  refine ⟨by rw [List.flatten_concat], by rw [hlen, List.length_append, List.length_singleton],
    List.forall_mem_append.2 ⟨h.parts_ne_nil, List.forall_mem_singleton.2 h.match_ne_nil⟩,
    fun k hk => ?_, fun k hk j hj => ?_⟩
  · have hk' : k ≤ parts.length := by omega
    have hentry := (LzwDict.entry_of_codeOf (h.codeOf_part_or_match hk')).2
    have hlt := h.code_lt hk'
    generalize (codes ++ [(LzwDict.codeOf d w).getD 0]).getD k 0 = n at hentry hlt ⊢
    unfold LzwDict.entry at hentry
    split_ifs at hentry ⊢ with hbyte
    · exact (Option.some.inj hentry).symm
    · rw [List.getElem?_take_of_lt (by omega), h.dict_getElem? (by omega)] at hentry
      exact (Option.some.inj hentry).symm
  · have hkd : k < d.length := by omega
    have hpair := List.pairwise_iff_getElem.1 h.dict_pairwise j k (hj.trans hkd) hkd hj
    have hentry {i : Nat} (hi : i < d.length) : d[i] = grownPart (parts ++ [w]) i :=
      Option.some.inj ((List.getElem?_eq_getElem hi).symm.trans (h.dict_getElem? (hd ▸ hi)))
    rwa [hentry, hentry] at hpair

end

/-- A run reads a source to its end, or stops where the full dictionary lacks an entry. -/
theorem exists_run (s : Byte) (y : List Byte) :
    (∃ d parts w codes, LzwRun d parts w codes ∧ parts.flatten ++ w = s :: y) ∨
      ∃ d parts w codes c z, LzwRun d parts w codes ∧ parts.flatten ++ w ++ c :: z = s :: y ∧
        LzwDict.next d = lzwCapacity ∧ w ++ [c] ∉ d := by
  induction y using List.reverseRecOn with
  | nil => exact .inl ⟨_, _, _, _, .start s, rfl⟩
  | append_singleton y c ih =>
    rw [← List.cons_append]
    rcases ih with ⟨d, parts, w, codes, run, hy⟩ | ⟨d, parts, w, codes, b, z, run, hy, hstop⟩
    · rw [← hy]
      by_cases hknown : w ++ [c] ∈ d
      · exact .inl ⟨_, _, _, _, run.grow hknown, (List.append_assoc _ _ _).symm⟩
      · by_cases hfull : LzwDict.next d = lzwCapacity
        · exact .inr ⟨_, _, _, _, c, [], run, rfl, hfull, hknown⟩
        · exact .inl ⟨_, _, _, _, run.emit hknown hfull, by rw [List.flatten_concat]⟩
    · exact .inr ⟨_, _, _, _, b, z ++ [c], run, by rw [← hy, List.append_assoc _ (b :: z)]; rfl, hstop⟩

end LzwRun

/-- A source that encodes is a run to its end. -/
theorem lzwRun_of_ok {y : List Byte} {codes : List Nat} {next : Nat} (hy : y ≠ [])
    (h : lzwEncode y = .ok (codes, next)) :
    ∃ d parts w emitted, LzwRun d parts w emitted ∧ parts.flatten ++ w = y ∧
      codes = emitted ++ [(LzwDict.codeOf d w).getD 0] ∧ next = LzwDict.next d := by
  obtain ⟨s, y, rfl⟩ := List.exists_cons_of_ne_nil hy
  rcases LzwRun.exists_run s y with
    ⟨d, parts, w, emitted, run, hread⟩ | ⟨d, parts, w, emitted, c, z, run, hread, hfull, hnew⟩
  · rw [← hread, run.lzwEncode_match] at h
    cases h
    exact ⟨d, parts, w, emitted, run, hread, rfl, rfl⟩
  · rw [← hread, run.lzwEncode_full hnew hfull] at h
    cases h

/-- A source that does not encode is a run to a full dictionary that lacks an entry. -/
theorem lzwRun_of_error {y : List Byte} {e : ErrCode} (h : lzwEncode y = .error e) :
    e = .unsupportedAlphabetSize ∧ ∃ d parts w emitted c z, LzwRun d parts w emitted ∧
      parts.flatten ++ w ++ c :: z = y ∧ LzwDict.next d = lzwCapacity ∧ w ++ [c] ∉ d := by
  cases y with
  | nil => cases h
  | cons s y =>
    rcases LzwRun.exists_run s y with
      ⟨d, parts, w, emitted, run, hread⟩ | ⟨d, parts, w, emitted, c, z, run, hread, hfull, hnew⟩
    · rw [← hread, run.lzwEncode_match] at h
      cases h
    · rw [← hread, run.lzwEncode_full hnew hfull] at h
      cases h
      exact ⟨rfl, d, parts, w, emitted, c, z, run, hread, hfull, hnew⟩

/-! The decoder along a cut (43_lzw.md R304). -/

section
variable {d : LzwDict} {prev e : List Byte} {c : Nat} {codes : List Nat}

theorem lzwDecodeFrom_step (hc : lzwResolve d prev c = some e) (hroom : LzwDict.next d ≠ lzwCapacity) :
    lzwDecodeFrom d prev (c :: codes) = putBefore e (lzwDecodeFrom (d ++ [prev ++ e.take 1]) e codes) := by
  rw [lzwDecodeFrom, hc]
  dsimp only
  rw [if_neg hroom]
  cases lzwDecodeFrom (d ++ [prev ++ e.take 1]) e codes <;> rfl

theorem lzwDecodeFrom_bad (hc : lzwResolve d prev c = none) :
    lzwDecodeFrom d prev (c :: codes) = .error .invalidCode := by
  rw [lzwDecodeFrom, hc]

theorem lzwDecodeFrom_full (hc : lzwResolve d prev c = some e) (hfull : LzwDict.next d = lzwCapacity) :
    lzwDecodeFrom d prev (c :: codes) = .error .unsupportedAlphabetSize := by
  rw [lzwDecodeFrom, hc]
  exact if_pos hfull

theorem lzwDecode_cons (hc : c < 256) :
    lzwDecode (c :: codes) = putBefore [BitVec.ofNat 8 c] (lzwDecodeFrom [] [BitVec.ofNat 8 c] codes) := by
  rw [lzwDecode, if_neg (Nat.not_le.2 hc)]
  cases lzwDecodeFrom [] [BitVec.ofNat 8 c] codes <;> rfl

theorem lzwResolve_entry (hc : c < LzwDict.next d) : lzwResolve d prev c = LzwDict.entry d c := if_pos hc

theorem lzwResolve_next (hc : c = LzwDict.next d) : lzwResolve d prev c = some (prev ++ prev.take 1) :=
  (if_neg hc.not_lt).trans (if_pos hc)

end

@[simp] theorem grownParts_next (parts : List (List Byte)) (n : Nat) : LzwDict.next (grownParts parts n) = 256 + n := by
  rw [LzwDict.next, grownParts_length]

theorem take_succ_getD {α : Type} {l : List α} {k : Nat} (h : k < l.length) (a : α) :
    l.take (k + 1) = l.take k ++ [l.getD k a] := by
  rw [List.getD_eq_getElem _ _ h, List.take_concat_get']

section
variable {y : List Byte} {codes : List Nat} {parts : List (List Byte)} (hcut : LzwCut y codes parts)
  (hcode : ∀ k < codes.length, codes.getD k 0 < 256 + k)
include hcut hcode

/-- The decoder resolves each code of a cut to its part: the entry is known, or it is the self-referential case. -/
theorem LzwCut.lzwResolve_eq {k : Nat} (hk : k + 1 < codes.length) :
    lzwResolve (grownParts parts k) (parts.getD k []) (codes.getD (k + 1) 0) = some (parts.getD (k + 1) []) := by
  obtain ⟨-, hlen, hne, hpart, -⟩ := hcut
  have hk1 := hpart (k + 1) hk
  have hlt := hcode (k + 1) hk
  generalize codes.getD (k + 1) 0 = c at hk1 hlt ⊢
  rcases Nat.lt_or_ge c (256 + k) with hold | hself
  · rw [lzwResolve_entry (by rwa [grownParts_next]), LzwDict.entry, hk1]
    split_ifs with hbyte
    · rfl
    · exact grownParts_getElem? _ (by omega)
  · obtain rfl : c = 256 + k := by omega
    rw [if_neg (by omega), Nat.add_sub_cancel_left, grownPart] at hk1
    have hprev : parts.getD k [] ≠ [] := by
      rw [List.getD_eq_getElem _ _ (by omega)]
      exact hne _ (List.getElem_mem _)
    have hfirst := congrArg (List.take 1) hk1
    rw [List.take_append_of_le_length (List.length_pos_iff.2 hprev)] at hfirst
    rw [lzwResolve_next (grownParts_next parts k).symm, ← hfirst, ← hk1]

/-- After codes 0..k of a cut the decoder has put out parts 0..k and made the encoder's first k entries (43_lzw.md R326, R327). -/
theorem LzwCut.lzwDecode_take {k : Nat} (hk : k < codes.length) (hroom : k ≤ 65280) (rest : List Nat) :
    lzwDecode (codes.take (k + 1) ++ rest) =
      putBefore (parts.take (k + 1)).flatten (lzwDecodeFrom (grownParts parts k) (parts.getD k []) rest) := by
  have ⟨_, hlen, _, hpart, _⟩ := hcut
  induction k generalizing rest with
  | zero =>
    have hbyte : codes.getD 0 0 < 256 := hcode 0 hk
    rw [take_succ_getD hk 0, take_succ_getD (hlen ▸ hk) [], hpart 0 hk, if_pos hbyte]
    exact lzwDecode_cons hbyte
  | succ k ih =>
    have hk' : k + 1 < parts.length := hlen ▸ hk
    have hstep := lzwDecodeFrom_step (codes := rest) (hcut.lzwResolve_eq hcode hk)
      (by rw [grownParts_next, lzwCapacity]; omega)
    rw [take_succ_getD hk 0, List.append_assoc, List.singleton_append, ih (by omega) (by omega), hstep,
      ← putBefore_append, take_succ_getD hk' [], List.flatten_concat, grownParts_succ]
    rfl

/-- The decoder gives back what was cut. -/
theorem LzwCut.lzwDecode_eq (hne : codes ≠ []) (hlen : codes.length ≤ 65281) :
    lzwDecode codes = .ok (y, 256 + (codes.length - 1)) := by
  have hpos := List.length_pos_iff.2 hne
  have hall := hcut.lzwDecode_take hcode (k := codes.length - 1) (by omega) (by omega) []
  obtain ⟨hflat, hparts, -⟩ := hcut
  rw [Nat.sub_add_cancel hpos, List.take_length, List.append_nil, ← hparts, List.take_length, hflat] at hall
  rw [hall, lzwDecodeFrom, putBefore_ok, List.append_nil, grownParts_next, hparts]

end

/-! Bad codes (43_lzw.md R304). -/

/-- Some code is above the next free code of its turn, `next` being that of the first turn. -/
def HasBadCode (next : Nat) (codes : List Nat) : Prop := ∃ k, k < codes.length ∧ next + k < codes.getD k 0

theorem not_hasBadCode_nil (next : Nat) : ¬HasBadCode next [] := fun ⟨_, hk, _⟩ => Nat.not_lt_zero _ hk

theorem hasBadCode_cons {next c : Nat} {codes : List Nat} :
    HasBadCode next (c :: codes) ↔ next < c ∨ HasBadCode (next + 1) codes := by
  constructor
  · rintro ⟨_ | k, hk, hbad⟩
    · exact .inl hbad
    · exact .inr ⟨k, Nat.lt_of_succ_lt_succ hk, by rwa [Nat.add_assoc, Nat.add_comm 1]⟩
  · rintro (hbad | ⟨k, hk, hbad⟩)
    · exact ⟨0, Nat.succ_pos _, hbad⟩
    · exact ⟨k + 1, Nat.succ_lt_succ hk, by rwa [Nat.add_assoc, Nat.add_comm 1] at hbad⟩

/-- A bad code of 16 bits comes before the dictionary is full. -/
theorem HasBadCode.next_lt {next : Nat} {codes : List Nat} (h : HasBadCode next codes)
    (hc : ∀ c ∈ codes, c < 65536) : next < 65535 := by
  obtain ⟨k, hk, hbad⟩ := h
  rw [List.getD_eq_getElem _ _ hk] at hbad
  have hlt := hc _ (List.getElem_mem hk)
  omega

section
variable {d : LzwDict} {prev : List Byte} {c : Nat} {codes : List Nat}

theorem lzwResolve_of_lt (h : LzwDict.next d < c) : lzwResolve d prev c = none :=
  (if_neg (Nat.lt_asymm h)).trans (if_neg (Nat.ne_of_gt h))

theorem exists_lzwResolve (h : c ≤ LzwDict.next d) : ∃ e, lzwResolve d prev c = some e := by
  rcases Nat.lt_or_eq_of_le h with hlt | heq
  · rw [lzwResolve_entry hlt, LzwDict.entry]
    split_ifs with hbyte
    · exact ⟨_, rfl⟩
    · unfold LzwDict.next at hlt
      exact ⟨_, List.getElem?_eq_getElem (by omega)⟩
  · exact ⟨_, lzwResolve_next heq⟩

theorem lzwDecodeFrom_of_bad (hbad : HasBadCode (LzwDict.next d) codes) (hc : ∀ c ∈ codes, c < 65536) :
    lzwDecodeFrom d prev codes = .error .invalidCode := by
  induction codes generalizing d prev with
  | nil => exact absurd hbad (not_hasBadCode_nil _)
  | cons c codes ih =>
    rcases Nat.lt_or_ge (LzwDict.next d) c with hlt | hle
    · exact lzwDecodeFrom_bad (lzwResolve_of_lt hlt)
    · obtain ⟨e, he⟩ := exists_lzwResolve (prev := prev) hle
      have hroom : LzwDict.next d ≠ lzwCapacity :=
        Nat.ne_of_lt ((hbad.next_lt hc).trans (by decide : 65535 < lzwCapacity))
      have hrest := (hasBadCode_cons.1 hbad).resolve_left (Nat.not_lt.2 hle)
      rw [lzwDecodeFrom_step he hroom, ih (by rwa [LzwDict.next_concat]) (List.forall_mem_cons.1 hc).2, putBefore_error]

theorem lzwDecodeFrom_of_not_bad (hgood : ¬HasBadCode (LzwDict.next d) codes)
    (hroom : LzwDict.next d + codes.length ≤ 65536) :
    ∃ out, lzwDecodeFrom d prev codes = .ok (out, LzwDict.next d + codes.length) := by
  induction codes generalizing d prev with
  | nil => exact ⟨[], rfl⟩
  | cons c codes ih =>
    rw [hasBadCode_cons, not_or] at hgood
    obtain ⟨hle, hrest⟩ := hgood
    obtain ⟨e, he⟩ := exists_lzwResolve (prev := prev) (Nat.not_lt.1 hle)
    rw [List.length_cons] at hroom ⊢
    obtain ⟨out, hout⟩ := ih (d := d ++ [prev ++ e.take 1]) (prev := e) (by rwa [LzwDict.next_concat])
      (by rw [LzwDict.next_concat]; omega)
    rw [lzwDecodeFrom_step he (by unfold lzwCapacity; omega), hout, LzwDict.next_concat, Nat.add_assoc,
      Nat.add_comm 1]
    exact ⟨_, rfl⟩

theorem lzwDecodeFrom_of_too_many (hgood : ¬HasBadCode (LzwDict.next d) codes) (hd : LzwDict.next d ≤ 65536)
    (hmany : 65536 < LzwDict.next d + codes.length) :
    lzwDecodeFrom d prev codes = .error .unsupportedAlphabetSize := by
  induction codes generalizing d prev with
  | nil => exact absurd hmany (Nat.not_lt.2 hd)
  | cons c codes ih =>
    rw [hasBadCode_cons, not_or] at hgood
    obtain ⟨hle, hrest⟩ := hgood
    obtain ⟨e, he⟩ := exists_lzwResolve (prev := prev) (Nat.not_lt.1 hle)
    by_cases hfull : LzwDict.next d = lzwCapacity
    · exact lzwDecodeFrom_full he hfull
    · rw [List.length_cons] at hmany
      unfold lzwCapacity at hfull
      rw [lzwDecodeFrom_step he hfull, ih (by rwa [LzwDict.next_concat]) (by rw [LzwDict.next_concat]; omega)
        (by rw [LzwDict.next_concat]; omega), putBefore_error]

end

/-- What R304 calls a bad code: a first code that is no byte, or a later one above the next free code. -/
theorem exists_bad_cons_iff {c : Nat} {codes : List Nat} :
    (∃ k, k < (c :: codes).length ∧
      (if k = 0 then 256 ≤ (c :: codes).getD 0 0 else 256 + (k - 1) < (c :: codes).getD k 0)) ↔
      256 ≤ c ∨ HasBadCode 256 codes := by
  constructor
  · rintro ⟨_ | k, hk, hbad⟩
    · exact .inl hbad
    · exact .inr ⟨k, Nat.lt_of_succ_lt_succ hk, hbad⟩
  · rintro (hbad | ⟨k, hk, hbad⟩)
    · exact ⟨0, Nat.succ_pos _, hbad⟩
    · exact ⟨k + 1, Nat.succ_lt_succ hk, hbad⟩

/-- The decoder's three outcomes by its codes. -/
theorem lzwDecode_cons_outcomes {c : Nat} {codes : List Nat} (hc : ∀ n ∈ c :: codes, n < 65536) :
    (256 ≤ c ∨ HasBadCode 256 codes) ∧ lzwDecode (c :: codes) = .error .invalidCode ∨
      ¬(256 ≤ c ∨ HasBadCode 256 codes) ∧
        (codes.length ≤ 65280 ∧ (∃ out, lzwDecode (c :: codes) = .ok (out, 256 + codes.length)) ∨
          65280 < codes.length ∧ lzwDecode (c :: codes) = .error .unsupportedAlphabetSize) := by
  rcases Nat.lt_or_ge c 256 with hbyte | hfirst
  · rw [lzwDecode_cons hbyte]
    by_cases hbad : HasBadCode 256 codes
    · refine .inl ⟨.inr hbad, ?_⟩
      rw [lzwDecodeFrom_of_bad (d := []) hbad (List.forall_mem_cons.1 hc).2, putBefore_error]
    · refine .inr ⟨not_or.2 ⟨Nat.not_le.2 hbyte, hbad⟩, ?_⟩
      rcases Nat.lt_or_ge 65280 codes.length with hmany | hfew
      · refine .inr ⟨hmany, ?_⟩
        rw [lzwDecodeFrom_of_too_many (d := []) hbad (by decide) (Nat.add_lt_add_left hmany 256), putBefore_error]
      · obtain ⟨out, hout⟩ := lzwDecodeFrom_of_not_bad (d := []) (prev := [BitVec.ofNat 8 c]) hbad
          (Nat.add_le_add_left hfew 256)
        exact .inl ⟨hfew, _, congrArg (putBefore _) hout⟩
  · exact .inl ⟨.inl hfirst, if_pos hfirst⟩

/-- The decoder's errors on codes of 16 bits. -/
theorem lzwDecode_error {codes : List Nat} {e : ErrCode} (hc : ∀ c ∈ codes, c < 65536)
    (h : lzwDecode codes = .error e) : e = .invalidCode ∨ e = .unsupportedAlphabetSize := by
  cases codes with
  | nil => cases h
  | cons c codes =>
    rcases lzwDecode_cons_outcomes hc with ⟨-, hout⟩ | ⟨-, ⟨-, out, hout⟩ | ⟨-, hout⟩⟩
    · exact .inl (Except.error.inj (h.symm.trans hout))
    · exact nomatch h.symm.trans hout
    · exact .inr (Except.error.inj (h.symm.trans hout))

/-- Settles O48: a bad code stops the decoder before its dictionary is full, and without one only the dictionary can. -/
theorem lzwInvalidCodeIsRejected : Obligations.LzwInvalidCodeIsRejected := by
  intro codes hc
  cases codes with
  | nil =>
    exact ⟨⟨fun ⟨_, hk, _⟩ => absurd hk (Nat.not_lt_zero _), nofun⟩, fun _ => ⟨fun _ => ⟨[], rfl⟩, nofun⟩⟩
  | cons c codes =>
    rw [exists_bad_cons_iff, List.length_cons, Nat.add_sub_cancel]
    rcases lzwDecode_cons_outcomes hc with ⟨hbad, hout⟩ | ⟨hgood, ⟨hfew, out, hout⟩ | ⟨hmany, hout⟩⟩
    · exact ⟨⟨fun _ => hout, fun _ => hbad⟩, fun h => absurd hbad h⟩
    · exact ⟨⟨fun h => absurd h hgood, fun h => nomatch hout.symm.trans h⟩,
        fun _ => ⟨fun _ => ⟨out, hout⟩, fun h => absurd h (by omega)⟩⟩
    · exact ⟨⟨fun h => absurd h hgood, fun h => nomatch hout.symm.trans h⟩,
        fun _ => ⟨fun h => absurd h (by omega), fun _ => hout⟩⟩

end Sys2Proof.Machine

/-! LZW_ENCODE and LZW_DECODE: the bounds of the codes (O47), the commands by their outcomes (O45, O46), and decoding what was encoded (O49). -/

namespace Sys2Proof.Machine

/-! What a successful encode gives, from its run. -/

section
variable {y : List Byte} {codes : List Nat} {next : Nat}

/-- The codes of a source that encodes: their greedy cut, their sizes, and the next free code (43_lzw.md R303, R326). -/
theorem lzwEncode_cut (hy : y ≠ []) (h : lzwEncode y = .ok (codes, next)) :
    (∃ parts, LzwCut y codes parts) ∧ (∀ k < codes.length, codes.getD k 0 < 256 + k) ∧ codes ≠ [] ∧
      next = 256 + (codes.length - 1) := by
  obtain ⟨d, parts, w, emitted, run, rfl, rfl, rfl⟩ := lzwRun_of_ok hy h
  obtain ⟨hd, hemitted⟩ := run.lengths
  have hlen : (emitted ++ [(LzwDict.codeOf d w).getD 0]).length = parts.length + 1 := by
    rw [List.length_append, hemitted, List.length_singleton]
  refine ⟨⟨_, run.cut⟩, fun k hk => run.code_lt (by omega), List.concat_ne_nil _ _, ?_⟩
  rw [hlen, Nat.add_sub_cancel, LzwDict.next, hd]

/-- Every part of a cut has a byte, so there are no more codes than bytes. -/
theorem LzwCut.codes_length_le {parts : List (List Byte)} (h : LzwCut y codes parts) : codes.length ≤ y.length := by
  obtain ⟨rfl, hlen, hne, -⟩ := h
  rw [← hlen, List.length_flatten, ← List.length_map (f := List.length)]
  exact List.length_le_sum_of_one_le _ (List.forall_mem_map.2 fun p hp => List.length_pos_iff.2 (hne p hp))

theorem lzwEncode_codes_length_le (h : lzwEncode y = .ok (codes, next)) : codes.length ≤ 65281 := by
  have hnext := (lzwEncode_next h).2
  cases y with
  | nil =>
    cases h
    exact Nat.zero_le _
  | cons s y =>
    obtain ⟨-, -, -, rfl⟩ := lzwEncode_cut (List.cons_ne_nil s y) h
    omega

theorem lzwEncode_code_lt (h : lzwEncode y = .ok (codes, next)) : ∀ c ∈ codes, c < 65536 := by
  have hlen := lzwEncode_codes_length_le h
  cases y with
  | nil =>
    cases h
    exact nofun
  | cons s y =>
    obtain ⟨-, hcode, -⟩ := lzwEncode_cut (List.cons_ne_nil s y) h
    intro c hc
    obtain ⟨k, hk, rfl⟩ := List.getElem_of_mem hc
    have hlt := hcode k hk
    rw [List.getD_eq_getElem _ _ hk] at hlt
    omega

/-- The codes of a source decode to the source, with the same next free code (43_lzw.md R325). -/
theorem lzwDecode_of_lzwEncode (h : lzwEncode y = .ok (codes, next)) : lzwDecode codes = .ok (y, next) := by
  have hlen := lzwEncode_codes_length_le h
  cases y with
  | nil =>
    cases h
    rfl
  | cons s y =>
    obtain ⟨⟨parts, hcut⟩, hcode, hne, rfl⟩ := lzwEncode_cut (List.cons_ne_nil s y) h
    exact hcut.lzwDecode_eq hcode hne hlen

/-- After codes 0..k of a cut, one more code: entry j of the encoder (43_lzw.md R327). -/
theorem LzwCut.lzwDecode_entry {parts : List (List Byte)} (hcut : LzwCut y codes parts)
    (hcode : ∀ k < codes.length, codes.getD k 0 < 256 + k) {k j : Nat} (hk : k < codes.length) (hroom : k < 65280)
    (hj : j < k) :
    lzwDecode (codes.take (k + 1) ++ [256 + j]) =
      .ok ((parts.take (k + 1)).flatten ++ grownPart parts j, 256 + k + 1) := by
  have hentry : lzwResolve (grownParts parts k) (parts.getD k []) (256 + j) = some (grownPart parts j) := by
    rw [lzwResolve_entry (by rw [grownParts_next]; omega), LzwDict.entry, if_neg (by omega),
      Nat.add_sub_cancel_left, grownParts_getElem? _ hj]
  rw [hcut.lzwDecode_take hcode hk hroom.le, lzwDecodeFrom_step hentry (by rw [grownParts_next, lzwCapacity]; omega),
    lzwDecodeFrom, putBefore_ok, putBefore_ok, List.append_nil, LzwDict.next_concat, grownParts_next]

/-- A source that does not encode has a beginning that fills the dictionary and whose last part would need an entry more. -/
theorem lzwEncode_error {e : ErrCode} (h : lzwEncode y = .error e) :
    e = .unsupportedAlphabetSize ∧
      ∃ i codes parts, i < y.length ∧ lzwEncode (y.take i) = .ok (codes, 65536) ∧ codes.length = 65281 ∧
        LzwCut (y.take i) codes parts ∧
        ∀ j < 65280, ¬(parts.getD 65280 [] ++ [y.getD i 0]) <+: grownPart parts j := by
  obtain ⟨rfl, d, parts, w, emitted, c, z, run, rfl, hfull, hnew⟩ := lzwRun_of_error h
  obtain ⟨hd, hemitted⟩ := run.lengths
  have hcount : parts.length = 65280 := by
    unfold LzwDict.next lzwCapacity at hfull
    omega
  have htake : (parts.flatten ++ w ++ c :: z).take (parts.flatten ++ w).length = parts.flatten ++ w := List.take_left
  refine ⟨rfl, (parts.flatten ++ w).length, emitted ++ [(LzwDict.codeOf d w).getD 0], parts ++ [w], ?_, ?_, ?_, ?_,
    fun j hj => ?_⟩
  · rw [List.length_append (bs := c :: z)]
    exact Nat.lt_add_of_pos_right (Nat.succ_pos _)
  · rw [htake, run.lzwEncode_match, hfull, lzwCapacity]
  · rw [List.length_append, hemitted, hcount, List.length_singleton]
  · rw [htake]
    exact run.cut
  · have hlast : (parts ++ [w]).getD 65280 [] = w := by
      rw [List.getD_append_right _ _ _ _ hcount.le, hcount]
      rfl
    have hbyte : (parts.flatten ++ w ++ c :: z).getD (parts.flatten ++ w).length 0 = c := by
      rw [List.getD_append_right _ _ _ _ le_rfl, Nat.sub_self]
      rfl
    rw [hlast, hbyte]
    exact run.not_prefix_of_notMem hnew (List.mem_of_getElem? (run.dict_getElem? (hcount ▸ hj)))

end

/-- Settles O47: the codes are those of a run's cut, along which the decoder makes the same entries; a run that stops has a full dictionary, which takes 65281 bytes and one more. -/
theorem lzwCodeBounds : Obligations.LzwCodeBounds := by
  refine ⟨fun y codes next hy h => ?_, fun y hlen => ?_, fun y e h => lzwEncode_error h⟩
  · obtain ⟨⟨parts, hcut⟩, hcode, hne, hnext⟩ := lzwEncode_cut hy h
    exact ⟨List.length_pos_iff.2 hne, hcut.codes_length_le, hnext, (lzwEncode_next h).2, hcode, parts, hcut,
      fun _ hk hroom _ hj => hcut.lzwDecode_entry hcode hk hroom hj⟩
  · cases h : lzwEncode y with
    | ok out => exact ⟨out.1, out.2, rfl⟩
    | error e =>
      obtain ⟨-, i, codes, parts, hi, -, hcount, hcut, -⟩ := lzwEncode_error h
      have hle := hcut.codes_length_le.trans (List.length_take_le i y)
      omega

/-! Codes as big-endian pairs of bytes (43_lzw.md R302). -/

theorem codesOfBytes_bytesOfCodes {codes : List Nat} (h : ∀ c ∈ codes, c < 65536) :
    codesOfBytes (bytesOfCodes codes) = codes := by
  induction codes with
  | nil => rfl
  | cons c codes ih =>
    obtain ⟨hc, hcodes⟩ := List.forall_mem_cons.1 h
    have hvalue : 256 * (BitVec.ofNat 8 (c / 256)).toNat + (BitVec.ofNat 8 (c % 256)).toNat = c := by
      rw [BitVec.toNat_ofNat, BitVec.toNat_ofNat]
      omega
    change _ :: codesOfBytes (bytesOfCodes codes) = _
    rw [hvalue, ih hcodes]

theorem codesOfBytes_lt (y : List Byte) : ∀ c ∈ codesOfBytes y, c < 65536 := by
  induction y using codesOfBytes.induct with
  | case1 hi lo y ih =>
    rw [codesOfBytes, List.forall_mem_cons]
    exact ⟨by have := hi.isLt; have := lo.isLt; omega, ih⟩
  | case2 y hy =>
    rw [codesOfBytes.eq_2 y hy]
    exact nofun

section
variable {s : State}

/-- The k-th code in a region. -/
def State.codeAt (s : State) (a k : Nat) : Nat :=
  256 * (s.readByte (a + 2 * k)).toNat + (s.readByte (a + 2 * k + 1)).toNat

theorem State.codeAt_succ (s : State) (a k : Nat) : s.codeAt a (k + 1) = s.codeAt (a + 2) k := by
  rw [State.codeAt, State.codeAt, Nat.mul_succ, Nat.add_comm (2 * k), ← Nat.add_assoc]

theorem State.readMem_succ (s : State) (a n : Nat) : s.readMem a (n + 1) = s.readByte a :: s.readMem (a + 1) n := by
  rw [State.readMem, List.range_succ_eq_map, List.map_cons, List.map_map]
  refine congrArg (s.readByte a :: ·) (List.map_congr_left fun k _ => ?_)
  rw [Function.comp_apply, Nat.succ_eq_add_one, Nat.add_comm k, ← Nat.add_assoc]

theorem codesOfBytes_readMem (s : State) (a n : Nat) :
    codesOfBytes (s.readMem a (2 * n)) = (List.range n).map (s.codeAt a) := by
  induction n generalizing a with
  | zero => rfl
  | succ n ih =>
    rw [Nat.mul_succ, s.readMem_succ, s.readMem_succ, codesOfBytes, ih, List.range_succ_eq_map, List.map_cons,
      List.map_map]
    exact congrArg (s.codeAt a 0 :: ·) (List.map_congr_left fun k _ => (s.codeAt_succ a k).symm)

theorem codeAt_of_readMem {codes : List Nat} {a : Nat} (h : s.readMem a (2 * codes.length) = bytesOfCodes codes)
    (hc : ∀ c ∈ codes, c < 65536) {k : Nat} (hk : k < codes.length) : s.codeAt a k = codes.getD k 0 := by
  have hcodes := codesOfBytes_readMem s a codes.length
  rw [h, codesOfBytes_bytesOfCodes hc] at hcodes
  rw [hcodes, List.length_map, List.length_range] at hk
  rw [hcodes, List.getD_eq_getElem _ _ (by rwa [List.length_map, List.length_range]), List.getElem_map,
    List.getElem_range]

theorem codesOfBytes_source {codes : List Nat} (hlen : s.srcLen = 2 * codes.length)
    (h : ∀ k < codes.length, codes.getD k 0 = s.codeAt s.src k) : codesOfBytes s.source = codes := by
  rw [State.source, hlen, codesOfBytes_readMem]
  refine List.ext_getElem (by rw [List.length_map, List.length_range]) fun k _ hk => ?_
  rw [List.getElem_map, List.getElem_range, ← h k hk, List.getD_eq_getElem _ _ hk]

end

/-! The commands' outcomes (43_lzw.md R310, R320). -/

section
variable {s : State} {e : ErrCode} {codes : List Nat} {out : List Byte} {next : Nat}

/-- An LZW command that put out `out` left this state. -/
def State.lzwWritten (s : State) (out : List Byte) (next bitCount : Nat) : State :=
  State.completeOk { s.writeMem s.dst out with res := { s.res with lzwNext := BitVec.ofNat 17 next } }
    out.length bitCount

theorem State.readMem_lzwWritten (s : State) (out : List Byte) (next bitCount : Nat) :
    (s.lzwWritten out next bitCount).readMem s.dst out.length = out := s.readMem_writeMem_self s.dst out

theorem State.readByte_lzwWritten (s : State) (out : List Byte) (next bitCount : Nat) {a : Nat}
    (h : a < s.dst ∨ s.dst + out.length ≤ a) : (s.lzwWritten out next bitCount).readByte a = s.readByte a :=
  s.readByte_written 0 0 h

theorem exec_lzwEncode_of_check (h : s.codecCheck = some e) : exec .lzwEncode s = .next (s.completeErr e) := by
  simp only [exec, execLzwEncode, h]
  rfl

theorem exec_lzwDecode_of_check (h : s.codecCheck = some e) : exec .lzwDecode s = .next (s.completeErr e) := by
  simp only [exec, execLzwDecode, h]
  rfl

section
variable (hr : s.RegionsOk)
include hr

theorem exec_lzwEncode_error (h : lzwEncode s.source = .error e) :
    exec .lzwEncode s = .next (s.spoilDst.completeErr e) := by
  simp only [exec, execLzwEncode, State.regionsOk_iff.1 hr, h]
  rfl

theorem exec_lzwEncode_overflow (h : lzwEncode s.source = .ok (codes, next)) (hlen : s.dstCap < 2 * codes.length) :
    exec .lzwEncode s = .next (s.spoilDst.completeErr .outputOverflow) := by
  simp only [exec, execLzwEncode, State.regionsOk_iff.1 hr, h, bytesOfCodes_length, if_pos hlen]
  rfl

theorem exec_lzwEncode_ok (h : lzwEncode s.source = .ok (codes, next)) (hlen : 2 * codes.length ≤ s.dstCap) :
    exec .lzwEncode s = .next (s.lzwWritten (bytesOfCodes codes) next (16 * codes.length)) := by
  rw [← bytesOfCodes_length] at hlen
  simp only [exec, execLzwEncode, State.regionsOk_iff.1 hr, h, if_neg (Nat.not_lt.2 hlen)]
  rfl

theorem exec_lzwDecode_odd (hodd : s.srcLen % 2 = 1) :
    exec .lzwDecode s = .next (s.spoilDst.completeErr .truncatedStream) := by
  simp only [exec, execLzwDecode, State.regionsOk_iff.1 hr, if_pos hodd]
  rfl

section
variable (heven : s.srcLen % 2 = 0)
include heven

theorem exec_lzwDecode_error (h : lzwDecode (codesOfBytes s.source) = .error e) :
    exec .lzwDecode s = .next (s.spoilDst.completeErr e) := by
  simp only [exec, execLzwDecode, State.regionsOk_iff.1 hr, heven, h, if_neg Nat.zero_ne_one]
  rfl

theorem exec_lzwDecode_overflow (h : lzwDecode (codesOfBytes s.source) = .ok (out, next))
    (hlen : s.dstCap < out.length) : exec .lzwDecode s = .next (s.spoilDst.completeErr .outputOverflow) := by
  simp only [exec, execLzwDecode, State.regionsOk_iff.1 hr, heven, h, if_neg Nat.zero_ne_one, if_pos hlen]
  rfl

theorem exec_lzwDecode_ok (h : lzwDecode (codesOfBytes s.source) = .ok (out, next)) (hlen : out.length ≤ s.dstCap) :
    exec .lzwDecode s = .next (s.lzwWritten out next (8 * s.srcLen)) := by
  simp only [exec, execLzwDecode, State.regionsOk_iff.1 hr, heven, h, if_neg Nat.zero_ne_one,
    if_neg (Nat.not_lt.2 hlen)]
  rfl

end

end

/-- An LZW_ENCODE that succeeds wrote the codes of its source. -/
theorem lzwEncode_success {t : State} (h : exec .lzwEncode s = .next t) (hok : t.status.err = false) :
    ∃ codes next, lzwEncode s.source = .ok (codes, next) ∧ 2 * codes.length ≤ s.dstCap ∧
      t = s.lzwWritten (bytesOfCodes codes) next (16 * codes.length) := by
  cases completes_of_exec h with
  | refusedEarly | lzwFailed => cases hok
  | lzwEncode _ codes next he hlen => exact ⟨codes, next, he, bytesOfCodes_length codes ▸ hlen, rfl⟩

end

/-- Settles O45: the region checks, then the three outcomes by the codes of the source and their number. -/
theorem lzwEncodeWritesTheCodes : Obligations.LzwEncodeWritesTheCodes := by
  refine fun s => ⟨fun h => exec_lzwEncode_of_check (State.codecCheck_of_outOfRange h),
    fun hsrc hdst h => exec_lzwEncode_of_check (State.codecCheck_of_overlap hsrc hdst h),
    fun e hr h => ⟨(lzwEncode_error h).1, _, exec_lzwEncode_error hr h, failedSpoiled_spoilDst _ _⟩,
    fun codes next hr h => ⟨fun hover => ⟨_, exec_lzwEncode_overflow hr h hover, failedSpoiled_spoilDst _ _⟩,
      fun hfit => ⟨_, exec_lzwEncode_ok hr h hfit, ?_, fun k hk => ?_, fun a ha => ?_⟩⟩⟩
  · rw [← bytesOfCodes_length codes]
    rfl
  · have hread := s.readMem_lzwWritten (bytesOfCodes codes) next (16 * codes.length)
    rw [bytesOfCodes_length] at hread
    exact codeAt_of_readMem hread (lzwEncode_code_lt h) hk
  · exact s.readByte_lzwWritten _ _ _ (by rwa [bytesOfCodes_length])

/-- Settles O46: the region checks, the odd length, then the three outcomes by what the codes decode to. -/
theorem lzwDecodeWritesTheSymbols : Obligations.LzwDecodeWritesTheSymbols := by
  refine fun s => ⟨fun h => exec_lzwDecode_of_check (State.codecCheck_of_outOfRange h),
    fun hsrc hdst h => exec_lzwDecode_of_check (State.codecCheck_of_overlap hsrc hdst h),
    fun hr hodd => ⟨_, exec_lzwDecode_odd hr hodd, failedSpoiled_spoilDst _ _⟩, fun codes hr hlen hbytes => ?_⟩
  have heven : s.srcLen % 2 = 0 := hlen ▸ Nat.mul_mod_right 2 _
  obtain rfl := codesOfBytes_source hlen hbytes
  exact ⟨fun e h => ⟨lzwDecode_error (codesOfBytes_lt _) h, _, exec_lzwDecode_error hr heven h,
      failedSpoiled_spoilDst _ _⟩,
    fun out next h => ⟨fun hover => ⟨_, exec_lzwDecode_overflow hr heven h hover, failedSpoiled_spoilDst _ _⟩,
      fun hfit => ⟨_, exec_lzwDecode_ok hr heven h hfit, rfl, s.readMem_lzwWritten _ _ _,
        fun a ha => s.readByte_lzwWritten _ _ _ ha⟩⟩⟩

/-- Settles O49: the source of LZW_DECODE is the bytes of the codes, which decode to the source of LZW_ENCODE. -/
theorem lzwRoundTrip : Obligations.LzwRoundTrip := by
  intro s t u h _ hok hr hsrc hsrcLen hcap hbytes
  obtain ⟨codes, next, he, hlen, rfl⟩ := lzwEncode_success h hok
  have hout : (BitVec.ofNat 32 (bytesOfCodes codes).length).toNat = (bytesOfCodes codes).length :=
    Nat.mod_eq_of_lt (((bytesOfCodes_length codes).trans_le hlen).trans_lt s.regs.dstCap.isLt)
  have hlen' : u.srcLen = (bytesOfCodes codes).length := hsrcLen.trans hout
  have hsource : u.source = bytesOfCodes codes := by
    rw [State.source, hsrc, hlen']
    refine (State.readMem_congr fun k hk => hbytes _ (Nat.le_add_right _ _) ?_).trans
      (s.readMem_lzwWritten (bytesOfCodes codes) next (16 * codes.length))
    exact Nat.add_lt_add_left (hk.trans_eq hout.symm) _
  have hd : lzwDecode (codesOfBytes u.source) = .ok (s.source, next) := by
    rw [hsource, codesOfBytes_bytesOfCodes (lzwEncode_code_lt he)]
    exact lzwDecode_of_lzwEncode he
  have heven : u.srcLen % 2 = 0 := by rw [hlen', bytesOfCodes_length, Nat.mul_mod_right]
  refine ⟨_, exec_lzwDecode_ok hr heven hd (s.source_length.trans_le hcap), rfl, ?_,
    congrArg (BitVec.ofNat 32) s.source_length, rfl⟩
  have hread := u.readMem_lzwWritten s.source next (8 * u.srcLen)
  rwa [s.source_length] at hread

end Sys2Proof.Machine

/-! The transform as a product of matrices over the integers (44_transform.md R343, R344), its numeric bounds (R346) and its reversal (R364). -/

namespace Sys2Proof.Machine

section
open Matrix

/-- An 8 × 8 table of integers as a matrix. -/
def table (f : Nat → Nat → Int) : Matrix (Fin 8) (Fin 8) Int := .of fun i j => f i j

theorem sum8_eq_sum (f : Nat → Int) : sum8 f = ∑ i : Fin 8, f i := by
  rw [Fin.sum_univ_eight]
  rfl

theorem sum8_sum8_eq_mul (B X : Nat → Nat → Int) (u v : Fin 8) :
    (sum8 fun r => sum8 fun n => B u r * X r n * B v n) = (table B * table X * (table B)ᵀ) u v := by
  simp only [sum8_eq_sum, Matrix.mul_apply, Finset.sum_mul]
  exact Finset.sum_comm

/-- The forward transform before its rounding. -/
theorem fwdInt_eq_mul (X : List Byte) (u v : Fin 8) :
    fwdInt X u v = rshr ((table basis * table (sample X) * (table basis)ᵀ) u v) 20 :=
  congrArg (rshr · 20) (sum8_sum8_eq_mul basis (sample X) u v)

/-- The inverse transform before its rounding and its clip. -/
theorem invInt_eq_mul (Y : List Word) (m n : Fin 8) :
    invInt Y m n = rshr (((table basis)ᵀ * table (coefInt Y) * table basis) m n) 36 :=
  congrArg (rshr · 36) (sum8_sum8_eq_mul (fun m u => basis u m) (coefInt Y) m n)

/-! Bounds of products (44_transform.md R346). -/

section
variable {M X : Matrix (Fin 8) (Fin 8) Int} {d K : Int}

theorem abs_mul_apply_le (hM : ∀ i, ∑ j, |M i j| ≤ d) (hX : ∀ i j, |X i j| ≤ K) (i j : Fin 8) :
    |(M * X) i j| ≤ d * K := by
  have hK : 0 ≤ K := (abs_nonneg _).trans (hX 0 0)
  calc |(M * X) i j| ≤ ∑ k, |M i k * X k j| := by
        rw [Matrix.mul_apply]
        exact Finset.abs_sum_le_sum_abs _ _
    _ ≤ ∑ k, |M i k| * K := Finset.sum_le_sum fun k _ => by
        rw [abs_mul]
        exact mul_le_mul_of_nonneg_left (hX k j) (abs_nonneg _)
    _ = (∑ k, |M i k|) * K := (Finset.sum_mul _ _ _).symm
    _ ≤ d * K := mul_le_mul_of_nonneg_right (hM i) hK

theorem abs_mul_transpose_apply_le (hM : ∀ i, ∑ j, |M i j| ≤ d) (hX : ∀ i j, |X i j| ≤ K) (i j : Fin 8) :
    |(X * Mᵀ) i j| ≤ d * K := by
  rw [← Matrix.transpose_apply (X * Mᵀ), Matrix.transpose_mul, Matrix.transpose_transpose]
  exact abs_mul_apply_le hM (fun i j => hX j i) j i

theorem abs_sandwich_apply_le (hM : ∀ i, ∑ j, |M i j| ≤ d) (hX : ∀ i j, |X i j| ≤ K) (i j : Fin 8) :
    |(M * X * Mᵀ) i j| ≤ d * (d * K) :=
  abs_mul_transpose_apply_le hM (abs_mul_apply_le hM hX) i j

end

theorem sum_abs_basis_row_le (k : Fin 8) : ∑ n, |table basis k n| ≤ 46344 := by
  revert k
  decide

theorem sum_abs_basis_col_le (n : Fin 8) : ∑ k, |(table basis)ᵀ n k| ≤ 43284 := by
  revert n
  decide

theorem abs_sample_le (X : List Byte) (r c : Fin 8) : |table (sample X) r c| ≤ 255 := by
  have h : (X.getD (8 * r + c) 0).toNat < 256 := BitVec.isLt _
  simp only [table, sample, Matrix.of_apply, Nat.abs_cast]
  omega

/-- The largest forward coefficient (44_transform.md R346). -/
theorem abs_fwdInt_le (X : List Byte) (u v : Fin 8) : |fwdInt X u v| ≤ 522309 := by
  have h := abs_sandwich_apply_le sum_abs_basis_row_le (abs_sample_le X) u v
  rw [fwdInt_eq_mul, rshr]
  rw [abs_le] at h ⊢
  omega

/-! Blocks by index. -/

theorem map_range_getD {α : Type} (f : Nat → α) (d : α) {n i : Nat} (h : i < n) :
    ((List.range n).map f).getD i d = f i := by
  simp [List.getD, h]

theorem blockIndex_div (r : Nat) {c : Nat} (hc : c < 8) : (8 * r + c) / 8 = r := by omega

theorem blockIndex_mod (r : Nat) {c : Nat} (hc : c < 8) : (8 * r + c) % 8 = c := by omega

theorem coefInt_fwd (X : List Byte) (u v : Fin 8) : coefInt (fwd X) u v = fwdInt X u v := by
  have hbound := abs_le.1 (abs_fwdInt_le X u v)
  rw [coefInt, fwd, map_range_getD _ _ (by omega), blockIndex_div u v.isLt, blockIndex_mod u v.isLt,
    BitVec.toInt_ofInt_eq_self (by decide) (by omega) (by omega)]

/-! Forward and back (44_transform.md R364). -/

/-- How far the product of the basis table's transpose with the table is from 2^28 times the identity. -/
def basisError : Matrix (Fin 8) (Fin 8) Int := (table basis)ᵀ * table basis - (2 ^ 28 : Int) • 1

theorem sum_abs_basisError_le (i : Fin 8) : ∑ j, |basisError i j| ≤ 45832 := by
  revert i
  decide

theorem abs_rshr_sub_le (v : Int) : |2 ^ 20 * rshr v 20 - v| ≤ 2 ^ 19 := by
  rw [rshr, abs_le]
  omega

theorem rshr_eq_of_abs_lt {v x : Int} (h : |2 ^ 20 * v - 2 ^ 56 * x| < 2 ^ 55) : rshr v 36 = x := by
  rw [abs_lt] at h
  rw [rshr]
  omega

section
variable {S Y : Matrix (Fin 8) (Fin 8) Int}

/-- A product from both sides by a matrix near a multiple of the identity, by its error terms. -/
theorem near_scalar_sandwich (c : Int) (E S : Matrix (Fin 8) (Fin 8) Int) :
    (E + c • 1) * S * (E + c • 1)ᵀ = (c * c) • S + c • (E * S) + c • (S * Eᵀ) + E * S * Eᵀ := by
  simp only [Matrix.transpose_add, Matrix.transpose_smul, Matrix.transpose_one, add_mul, mul_add, smul_mul_assoc,
    mul_smul_comm, one_mul, mul_one, smul_add, smul_smul]
  abel

/-- Coefficients multiplied back: the samples by the table's product with itself, and what the rounding of the coefficients brings in. -/
theorem back_eq_gram_add_rounding (T S Y : Matrix (Fin 8) (Fin 8) Int) (c : Int) :
    c • (Tᵀ * Y * T) = Tᵀ * T * S * (Tᵀ * T)ᵀ + Tᵀ * (c • Y - T * S * Tᵀ) * Tᵀᵀ := by
  simp only [Matrix.mul_sub, Matrix.sub_mul, Matrix.transpose_mul, Matrix.transpose_transpose, Matrix.mul_assoc,
    Matrix.mul_smul, Matrix.smul_mul]
  abel

/-- Rounded coefficients multiplied back give 2^56 times the sample, up to less than one half of it. -/
theorem abs_back_sub_lt (hS : ∀ i j, |S i j| ≤ 255)
    (hY : ∀ i j, |((2 ^ 20 : Int) • Y - table basis * S * (table basis)ᵀ) i j| ≤ 2 ^ 19) (m n : Fin 8) :
    |2 ^ 20 * ((table basis)ᵀ * Y * table basis) m n - 2 ^ 56 * S m n| < 2 ^ 55 := by
  have hgram : (table basis)ᵀ * table basis = basisError + (2 ^ 28 : Int) • 1 := (sub_add_cancel _ _).symm
  have hback := back_eq_gram_add_rounding (table basis) S Y (2 ^ 20)
  rw [hgram, near_scalar_sandwich] at hback
  have hentry := congrFun₂ hback m n
  simp only [Matrix.add_apply, Matrix.smul_apply, smul_eq_mul] at hentry
  have hleft := abs_le.1 (abs_mul_apply_le sum_abs_basisError_le hS m n)
  have hright := abs_le.1 (abs_mul_transpose_apply_le sum_abs_basisError_le hS m n)
  have hboth := abs_le.1 (abs_sandwich_apply_le sum_abs_basisError_le hS m n)
  have hround := abs_le.1 (abs_sandwich_apply_le sum_abs_basis_col_le hY m n)
  rw [hentry, abs_lt]
  omega

end

theorem invInt_fwd (X : List Byte) (m n : Fin 8) : invInt (fwd X) m n = sample X m n := by
  rw [invInt_eq_mul]
  refine rshr_eq_of_abs_lt (abs_back_sub_lt (abs_sample_le X) (fun u v => ?_) m n)
  have h := abs_rshr_sub_le ((table basis * table (sample X) * (table basis)ᵀ) u v)
  rwa [← fwdInt_eq_mul, ← coefInt_fwd] at h

end

end Sys2Proof.Machine

/-! Samples, the clip, and the threshold (44_transform.md R344, R345); blocks the transform restores (R364), keeps at zero (R374) or loses (R377). -/

namespace Sys2Proof.Machine

section
variable {X : List Byte} {Y : List Word} {l m i : Nat}

theorem clipByte_toNat (v : Int) : ((clipByte v).toNat : Int) = max 0 (min 255 v) := by
  rw [clipByte, BitVec.toNat_ofNat, Nat.mod_eq_of_lt (by omega)]
  omega

theorem clipByte_toNat_self (b : Byte) : clipByte (b.toNat : Int) = b := by
  have hb := b.isLt
  refine BitVec.eq_of_toNat_eq (Int.ofNat_inj.1 ?_)
  rw [clipByte_toNat]
  omega

theorem inv_getD (Y : List Word) (hi : i < 64) : (inv Y).getD i 0 = clipByte (invInt Y (i / 8) (i % 8)) :=
  map_range_getD _ _ hi

theorem inv_fwd (hX : X.length = 64) : inv (fwd X) = X := by
  refine List.ext_getElem (by rw [inv_length, hX]) fun i hi hi' => ?_
  have h64 : i < 64 := hX ▸ hi'
  have hsample : invInt (fwd X) (i / 8) (i % 8) = sample X (i / 8) (i % 8) :=
    invInt_fwd X ⟨i / 8, by omega⟩ ⟨i % 8, by omega⟩
  rw [← List.getD_eq_getElem _ 0, ← List.getD_eq_getElem _ 0, inv_getD _ h64, hsample, sample, Nat.div_add_mod,
    clipByte_toNat_self]

theorem belowLimit_iff {lim : Nat} {c : Word} : belowLimit lim c = true ↔ c.toInt.natAbs < lim := decide_eq_true_iff

theorem thr_zero (Y : List Word) : thr 0 Y = Y := by simp [thr, belowLimit]

theorem belowLimit_mono (h : l ≤ m) {c : Word} (hc : belowLimit l c = true) : belowLimit m c = true :=
  belowLimit_iff.2 ((belowLimit_iff.1 hc).trans_le h)

theorem zeros_mono (h : l ≤ m) (Y : List Word) : zeros l Y ≤ zeros m Y :=
  List.countP_mono_left fun _ _ => belowLimit_mono h

theorem thr_getD (lim : Nat) {k : Nat} (hk : k < Y.length) :
    (thr lim Y).getD k 0 = if belowLimit lim (Y.getD k 0) then 0 else Y.getD k 0 := by
  simp [thr, List.getD, hk]

/-- A coefficient the threshold leaves 0 was below the limit or 0 already. -/
theorem thr_getD_eq_zero_iff {lim k : Nat} (hk : k < Y.length) :
    (thr lim Y).getD k 0 = 0 ↔ belowLimit lim (Y.getD k 0) = true ∨ Y.getD k 0 = 0 := by
  rw [thr_getD lim hk]
  split_ifs with h
  · exact iff_of_true rfl (.inl h)
  · exact (or_iff_right h).symm

theorem thr_eq_zero_of_below {lim : Nat} (hY : ∀ c ∈ Y, belowLimit lim c = true) :
    thr lim Y = List.replicate Y.length 0 :=
  List.eq_replicate_iff.2 ⟨thr_length lim Y, List.forall_mem_map.2 fun c hc => if_pos (hY c hc)⟩

theorem thr_replicate_zero (lim n : Nat) : thr lim (List.replicate n 0) = List.replicate n 0 := by
  simp [thr]

theorem sum8_zero : (sum8 fun _ => 0) = 0 := rfl

theorem sample_replicate_zero (n r c : Nat) : sample (List.replicate n 0) r c = 0 := by
  rw [sample, List.getD_eq_getElem?_getD, List.getElem?_getD_replicate_default_eq]
  rfl

theorem coefInt_replicate_zero (n u v : Nat) : coefInt (List.replicate n 0) u v = 0 := by
  rw [coefInt, List.getD_eq_getElem?_getD, List.getElem?_getD_replicate_default_eq]
  rfl

theorem fwd_zero : fwd (List.replicate 64 0) = List.replicate 64 0 := by
  refine List.eq_replicate_iff.2 ⟨fwd_length _, List.forall_mem_map.2 fun i _ => ?_⟩
  simp only [fwdInt, sample_replicate_zero, mul_zero, zero_mul, sum8_zero]
  rfl

theorem inv_zero : inv (List.replicate 64 0) = List.replicate 64 0 := by
  refine List.eq_replicate_iff.2 ⟨inv_length _, List.forall_mem_map.2 fun i _ => ?_⟩
  simp only [invInt, coefInt_replicate_zero, mul_zero, zero_mul, sum8_zero]
  rfl

theorem natAbs_coefInt_fwd_le (X : List Byte) (u v : Fin 8) : (coefInt (fwd X) u v).natAbs ≤ 522309 := by
  have h := abs_fwdInt_le X u v
  rw [← coefInt_fwd, Int.abs_eq_natAbs] at h
  exact Int.ofNat_le.1 h

/-- Every forward coefficient of bytes is below a limit of 2^20 (44_transform.md R346). -/
theorem belowLimit_of_mem_fwd {c : Word} (hc : c ∈ fwd X) {lim : Nat} (hlim : 2 ^ 20 ≤ lim) :
    belowLimit lim c = true := by
  obtain ⟨i, hi, rfl⟩ := List.mem_iff_getElem.1 hc
  have h64 : i < 64 := fwd_length X ▸ hi
  have h := natAbs_coefInt_fwd_le X ⟨i / 8, by omega⟩ ⟨i % 8, by omega⟩
  rw [coefInt, Nat.div_add_mod, List.getD_eq_getElem _ _ hi] at h
  exact belowLimit_iff.2 (by omega)

end

/-- Settles O59: every coefficient is below the limit, and the inverse of zeros is zeros. -/
theorem largeLimitLosesEverything : Obligations.LargeLimitLosesEverything := by
  intro X lim _ hlim
  have hall : ∀ c ∈ fwd X, belowLimit lim c = true := fun c hc => belowLimit_of_mem_fwd hc hlim
  have hthr : thr lim (fwd X) = List.replicate 64 0 := fwd_length X ▸ thr_eq_zero_of_below hall
  exact ⟨(List.countP_eq_length.2 hall).trans (fwd_length X), hthr, hthr.symm ▸ inv_zero⟩

end Sys2Proof.Machine

/-! The block commands by their outcomes (O50, O51, O52, O53), what they do to a block at limit 0 (O54) and to the zero block (O58). -/

namespace Sys2Proof.Machine

/-! A block written to LMEM (44_transform.md R353). -/

/-- The last byte stored at an address stays. -/
theorem Memory.lookup_storeAt_last (m : Memory) {ps : List (Nat × Byte)} {i : Nat} (hi : i < ps.length)
    (hlast : ∀ j (hj : j < ps.length), i < j → ps[j].1 ≠ ps[i].1) :
    Memory.lookup (Memory.storeAt m ps) ps[i].1 = some ps[i].2 := by
  induction ps generalizing m i with
  | nil => exact absurd hi (Nat.not_lt_zero i)
  | cons p ps ih =>
    obtain ⟨a, b⟩ := p
    cases i with
    | zero =>
      have hnot : a ∉ ps.map Prod.fst := fun hmem => by
        obtain ⟨j, hj, hja⟩ := List.mem_iff_getElem.1 hmem
        rw [List.length_map] at hj
        exact hlast (j + 1) (Nat.succ_lt_succ hj) (Nat.succ_pos j) (by simpa using hja)
      rw [Memory.storeAt, List.getElem_cons_zero, Memory.lookup_storeAt_of_notMem _ _ _ hnot, Memory.lookup_store,
        if_pos rfl]
    | succ i =>
      exact ih (Memory.store m a b) (Nat.lt_of_succ_lt_succ hi) fun j hj hij =>
        hlast (j + 1) (Nat.succ_lt_succ hj) (Nat.succ_lt_succ hij)

section
variable {s : State} {a c i : Nat} {bs : List Byte}

theorem State.blockAddrs_getElem (s : State) (a : Nat) (h : i < (s.blockAddrs a).length) :
    (s.blockAddrs a)[i] = s.sampleAddr a (i / 8) (i % 8) := by
  simp only [State.blockAddrs, List.getElem_map, List.getElem_range]

theorem State.blockAddrs_length (s : State) (a : Nat) : (s.blockAddrs a).length = 64 := by
  rw [State.blockAddrs, List.length_map, List.length_range]

theorem State.readByte_writeBlock_last (hbs : bs.length = 64) (hi : i < 64) (hlast : ¬s.overwritten a i) :
    (s.writeBlock a bs).readByte (s.sampleAddr a (i / 8) (i % 8)) = bs.getD i 0 := by
  have hlen : ((s.blockAddrs a).zip bs).length = 64 := by
    rw [List.length_zip, State.blockAddrs_length, hbs, Nat.min_self]
  have haddr : ∀ j (hj : j < ((s.blockAddrs a).zip bs).length),
      ((s.blockAddrs a).zip bs)[j].1 = s.sampleAddr a (j / 8) (j % 8) := fun j hj => by
    rw [List.getElem_zip, State.blockAddrs_getElem]
  have hlookup := Memory.lookup_storeAt_last s.lmem (hlen.symm ▸ hi) fun j hj hij => by
    rw [haddr, haddr]
    exact fun heq => hlast ⟨j, hij, hlen ▸ hj, heq⟩
  rw [haddr, List.getElem_zip] at hlookup
  rw [State.readByte, State.writeBlock_lmem, hlookup, Option.getD_some, List.getD_eq_getElem]

/-- Every address of a block holds a sample that no later one takes. -/
theorem State.exists_last_sample (h : c ∈ s.blockAddrs a) :
    ∃ i < 64, ¬s.overwritten a i ∧ s.sampleAddr a (i / 8) (i % 8) = c := by
  obtain ⟨i, hi, hic⟩ := List.mem_map.1 h
  have hlast : s.sampleAddr a (_ / 8) (_ % 8) = c :=
    Nat.findGreatest_spec (P := fun j => s.sampleAddr a (j / 8) (j % 8) = c)
      (Nat.le_of_lt_succ (List.mem_range.1 hi)) hic
  exact ⟨_, Nat.lt_succ_of_le (Nat.findGreatest_le 63),
    fun ⟨_, hlt, hj, heq⟩ => Nat.findGreatest_is_greatest hlt (Nat.le_of_lt_succ hj) (heq.trans hlast), hlast⟩

theorem State.readBlock_getD (s : State) (a : Nat) (hi : i < 64) :
    (s.readBlock a).getD i 0 = s.readByte (s.sampleAddr a (i / 8) (i % 8)) := by
  rw [State.readBlock, State.blockAddrs, List.map_map, map_range_getD _ _ hi, Function.comp_apply]

theorem State.sample_readBlock (s : State) (a : Nat) {r n : Nat} (hr : r < 8) (hn : n < 8) :
    sample (s.readBlock a) r n = ((s.readByte (s.sampleAddr a r n)).toNat : Int) := by
  rw [sample, State.readBlock_getD s a (by omega), blockIndex_div r hn, blockIndex_mod r hn]

end

/-! The commands' outcomes (44_transform.md R355, R358, R361, R365). -/

section
variable {s : State} {a n : Nat}

@[simp] theorem State.readByte_completeOk (s : State) (n m c : Nat) : (s.completeOk n m).readByte c = s.readByte c :=
  State.readByte_congr rfl rfl c

theorem State.inRange_eq_false (h : s.params.lmemSize < a + n) : s.inRange a n = false :=
  Bool.eq_false_iff.2 (mt (s.inRange_iff a n).1 (Nat.not_le.2 h))

theorem exec_dctFwd_of_inRange (hsrc : s.src + s.footprint ≤ s.params.lmemSize) :
    exec .dctFwd s = .next (State.completeOk { s with coef := fwd (s.readBlock s.src) } 0 0) :=
  if_neg (by rw [(s.inRange_iff _ _).2 hsrc]; decide)

theorem exec_dctInv_of_inRange (hdst : s.dst + s.footprint ≤ s.params.lmemSize) :
    exec .dctInv s = .next ((s.writeBlock s.dst (inv s.coef)).completeOk 64 512) :=
  if_neg (by rw [(s.inRange_iff _ _).2 hdst]; decide)

/-- The state a successful DCT_BLOCK leaves, from the samples it writes, the coefficients it keeps and how many it zeroed (44_transform.md R365). -/
def State.blockFiltered (s : State) (out : List Byte) (q : List Word) (z : Nat) : State :=
  State.completeOk { s.writeBlock s.dst out with coef := q, res := s.res.transformed z 1 } 64 512

theorem exec_dctBlock_of_inRange (hsrc : s.src + s.footprint ≤ s.params.lmemSize)
    (hdst : s.dst + s.footprint ≤ s.params.lmemSize) {Y : List Word} (hY : fwd (s.readBlock s.src) = Y) :
    exec .dctBlock s = .next (s.blockFiltered (inv (thr s.limit Y)) (thr s.limit Y) (zeros s.limit Y)) := by
  subst hY
  exact if_neg (by rw [(s.inRange_iff _ _).2 hsrc, (s.inRange_iff _ _).2 hdst]; decide)

theorem State.readByte_blockFiltered (s : State) (out : List Byte) (q : List Word) (z c : Nat) :
    (s.blockFiltered out q z).readByte c = (s.writeBlock s.dst out).readByte c := State.readByte_congr rfl rfl c

/-! What the two writing commands leave besides LMEM, whatever samples they write. The samples stay a variable here: with the transform in their place these equations are slow to check. -/

theorem State.blockFiltered_eq (s : State) (out : List Byte) (q : List Word) (z : Nat) :
    s.blockFiltered out q z =
      { s with
        lmem := (s.blockFiltered out q z).lmem
        coef := q
        pending := none
        status := { s.status with done := true }
        res :=
          { s.res with
            outLen := 64
            bitCount := 512
            zeroCount := BitVec.ofNat 32 z
            keptCount := BitVec.ofNat 32 (64 - z)
            blockCount := 1 } } := rfl

theorem State.completeOk_writeBlock_eq (s : State) (a : Nat) (out : List Byte) :
    (s.writeBlock a out).completeOk 64 512 =
      { s with
        lmem := ((s.writeBlock a out).completeOk 64 512).lmem
        pending := none
        status := { s.status with done := true }
        res := { s.res with outLen := 64, bitCount := 512 } } := rfl

end

/-- Settles O50: the entries of COEF are the rounded sums, which no word cuts. -/
theorem dctFwdStoresCoefficients : Obligations.DctFwdStoresCoefficients := by
  refine fun s => ⟨fun h => if_pos (by rw [State.inRange_eq_false h]; rfl), fun h =>
    ⟨fwd (s.readBlock s.src), fwd_length _, fun u hu v hv => ⟨?_, natAbs_coefInt_fwd_le _ ⟨u, hu⟩ ⟨v, hv⟩⟩,
      exec_dctFwd_of_inRange h⟩⟩
  refine (coefInt_fwd (s.readBlock s.src) ⟨u, hu⟩ ⟨v, hv⟩).trans ?_
  rw [fwdInt, rshr]
  simp only [sum8, State.sample_readBlock, Nat.reduceLT]

theorem thr_eq_map (lim : Nat) (Y : List Word) : thr lim Y = Y.map fun c => if c.toInt.natAbs < lim then 0 else c :=
  List.map_congr_left fun _ _ => if_congr belowLimit_iff rfl rfl

/-- Settles O51: DCT_QUANT has one outcome. -/
theorem dctQuantThresholds : Obligations.DctQuantThresholds := by
  intro s
  rw [← State.limit, ← thr_eq_map]
  rfl

/-- Settles O52: a byte of the block is the clip of the sum at the last sample of its address. -/
theorem dctInvWritesSamples : Obligations.DctInvWritesSamples := by
  refine fun s => ⟨fun h => if_pos (by rw [State.inRange_eq_false h]; rfl), fun h =>
    ⟨_, exec_dctInv_of_inRange h, s.completeOk_writeBlock_eq _ _, fun i hi hlast => ?_, fun a ha => ?_⟩⟩
  · rw [State.readByte_completeOk, State.readByte_writeBlock_last (inv_length _) hi hlast, inv_getD _ hi,
      clipByte_toNat]
    rfl
  · rw [State.readByte_completeOk, State.readByte_writeBlock_of_notMem _ _ _ _ ha]

/-- Settles O53: DCT_BLOCK writes a function of the block it read. -/
theorem dctBlockFilters : Obligations.DctBlockFilters := by
  refine fun s => ⟨fun h => if_pos ?_, fun hsrc hdst => ⟨_, fwd (s.readBlock s.src), rfl, rfl, _,
    exec_dctBlock_of_inRange hsrc hdst rfl, s.blockFiltered_eq _ _ _, fun i hi hlast => ?_, fun a ha => ?_⟩⟩
  · rcases h with h | h <;> simp [State.inRange_eq_false h]
  · rw [State.readByte_blockFiltered, State.readByte_writeBlock_last (inv_length _) hi hlast, State.limit]
  · rw [State.readByte_blockFiltered, State.readByte_writeBlock_of_notMem _ _ _ _ ha]

/-- Settles O54: the rounding of both directions stays below one half of a sample. -/
theorem transformIsReversible : Obligations.TransformIsReversible := by
  refine ⟨fun X hX => ⟨inv_fwd hX, thr_zero _⟩, fun s hsrc hdst hlim => ?_, fun s t u hsrc ht hu hdst => ?_⟩
  · refine ⟨_, exec_dctBlock_of_inRange hsrc hdst rfl, fun i hi hlast => ?_⟩
    rw [State.readByte_blockFiltered, State.readByte_writeBlock_last (inv_length _) hi hlast, hlim, thr_zero,
      inv_fwd (s.readBlock_length _), State.readBlock_getD s _ hi]
  · obtain rfl := Host.Outcome.next.inj ((exec_dctFwd_of_inRange hsrc).symm.trans ht)
    refine ⟨_, exec_dctInv_of_inRange hdst, fun i hi hlast => ?_⟩
    rw [State.readByte_completeOk, State.readByte_writeBlock_last (inv_length _) hi hlast, hu, State.completeOk_coef,
      inv_fwd (s.readBlock_length _), State.readBlock_getD s _ hi]

/-- Settles O58: a block of zeros keeps its zeros in both directions and under the threshold. -/
theorem zeroBlockStaysZero : Obligations.ZeroBlockStaysZero := by
  refine ⟨fwd_zero, fun lim => thr_replicate_zero lim 64, inv_zero, fun s t hsrc hdst hzero ht a ha => ?_⟩
  have hblock : s.readBlock s.src = List.replicate 64 0 :=
    List.eq_replicate_iff.2 ⟨s.readBlock_length _, List.forall_mem_map.2 hzero⟩
  obtain rfl := Host.Outcome.next.inj ((exec_dctBlock_of_inRange hsrc hdst rfl).symm.trans ht)
  obtain ⟨i, hi, hlast, rfl⟩ := State.exists_last_sample ha
  rw [State.readByte_blockFiltered, State.readByte_writeBlock_last (inv_length _) hi hlast, hblock, fwd_zero,
    thr_replicate_zero, inv_zero, List.getD_replicate _ hi]

end Sys2Proof.Machine

/-! DCT_FRAME: its loop block by block, the frame it puts out sample by sample, its outcomes (O55, O56), and the threshold's monotonicity (O57). -/

namespace Sys2Proof.Machine

/-! What the loops of 44_transform.md R370 carry from block to block. -/

section
variable (P : List Byte) (w h c lim : Nat)

/-- The coefficients of a block of the source frame. -/
def blockCoefs (p : BlockPos) : List Word := fwd (frameBlock P w c p)

/-- The samples DCT_FRAME writes for a block of the source frame. -/
def filteredBlock (p : BlockPos) : List Byte := inv (thr lim (blockCoefs P w c p))

theorem frameTurn_out (acc : FrameAcc) (p : BlockPos) :
    (frameTurn P w c lim acc p).out = putBlock w c p acc.out (filteredBlock P w c lim p) := by
  simp only [frameTurn, filteredBlock, blockCoefs]

theorem foldl_frameTurn_zt (bs : List BlockPos) (acc : FrameAcc) :
    (bs.foldl (frameTurn P w c lim) acc).zt = acc.zt + ((bs.map (blockCoefs P w c)).map (zeros lim)).sum := by
  induction bs generalizing acc with
  | nil => rfl
  | cons p bs ih =>
    rw [List.foldl_cons, ih, List.map_cons, List.map_cons, List.sum_cons, ← Nat.add_assoc]
    rfl

theorem foldl_frameTurn_nb (bs : List BlockPos) (acc : FrameAcc) :
    (bs.foldl (frameTurn P w c lim) acc).nb = acc.nb + bs.length := by
  induction bs generalizing acc with
  | nil => rfl
  | cons p bs ih =>
    rw [List.foldl_cons, ih, List.length_cons, Nat.add_comm bs.length, ← Nat.add_assoc]
    rfl

theorem foldl_frameTurn_coef (bs : List BlockPos) (acc : FrameAcc) :
    (bs.foldl (frameTurn P w c lim) acc).coef =
      (((bs.map (blockCoefs P w c)).getLast?).map (thr lim)).getD acc.coef := by
  induction bs generalizing acc with
  | nil => rfl
  | cons p bs ih =>
    rw [List.foldl_cons, ih, List.map_cons, List.getLast?_cons, Option.map_some, Option.getD_some]
    exact Option.getD_map (thr lim) _ _

theorem foldl_frameTurn_out (bs : List BlockPos) (acc : FrameAcc) :
    (bs.foldl (frameTurn P w c lim) acc).out =
      bs.foldl (fun o p => putBlock w c p o (filteredBlock P w c lim p)) acc.out := by
  induction bs generalizing acc with
  | nil => rfl
  | cons p bs ih => rw [List.foldl_cons, ih, frameTurn_out, List.foldl_cons]

theorem frameLoop_zt (coef : List Word) :
    (frameLoop P w h c lim coef).zt = (((frameBlocks w h c).map (blockCoefs P w c)).map (zeros lim)).sum :=
  (foldl_frameTurn_zt P w c lim _ _).trans (Nat.zero_add _)

end

/-- Settles O57: a coefficient below the smaller limit is below the larger one. -/
theorem thresholdIsMonotone : Obligations.ThresholdIsMonotone := by
  refine fun l m hlm => ⟨fun Y => ⟨zeros_mono hlm Y, fun k hk hzero => ?_⟩, fun P w h c coef => ?_⟩
  · rw [thr_getD_eq_zero_iff hk] at hzero ⊢
    exact hzero.imp_left (belowLimit_mono hlm)
  · rw [frameLoop_zt, frameLoop_zt]
    exact List.sum_le_sum fun Y _ => zeros_mono hlm Y

/-! Where the samples of a frame stand (44_transform.md R371). -/

section
variable {w h c x y ch : Nat}

theorem mem_frameBlocks {p : BlockPos} : p ∈ frameBlocks w h c ↔ p.row < h / 8 ∧ p.col < w / 8 ∧ p.ch < c := by
  simp only [frameBlocks, List.mem_flatMap, List.mem_map, List.mem_range]
  constructor
  · rintro ⟨row, hrow, col, hcol, ch, hch, rfl⟩
    exact ⟨hrow, hcol, hch⟩
  · rintro ⟨hrow, hcol, hch⟩
    exact ⟨p.row, hrow, p.col, hcol, p.ch, hch, rfl⟩

theorem frameBlocks_length (w h c : Nat) : (frameBlocks w h c).length = h / 8 * (w / 8) * c := by
  simp [frameBlocks, List.length_flatMap, Nat.mul_assoc]

theorem frameIndex_lt (hx : x < w) (hy : y < h) (hch : ch < c) : frameIndex w c x y ch < w * h * c :=
  calc frameIndex w c x y ch < (y * w + x + 1) * c := by
        rw [frameIndex, Nat.succ_mul]
        exact Nat.add_lt_add_left hch _
    _ ≤ (y + 1) * w * c := by
        rw [Nat.succ_mul y w]
        exact Nat.mul_le_mul_right c (Nat.add_lt_add_left hx _)
    _ ≤ w * h * c := by
        rw [Nat.mul_comm w h]
        exact Nat.mul_le_mul_right c (Nat.mul_le_mul_right w hy)

theorem mul_add_inj {n a b i j : Nat} (hi : i < n) (hj : j < n) (h : a * n + i = b * n + j) : a = b ∧ i = j := by
  have hparts {q r : Nat} (hr : r < n) : (q * n + r) / n = q ∧ (q * n + r) % n = r :=
    (Nat.div_mod_unique (Nat.zero_lt_of_lt hi)).2 ⟨by rw [Nat.mul_comm, Nat.add_comm], hr⟩
  obtain ⟨hdiv, hmod⟩ := hparts (q := a) hi
  obtain ⟨hdiv', hmod'⟩ := hparts (q := b) hj
  exact ⟨by rw [← hdiv, h, hdiv'], by rw [← hmod, h, hmod']⟩

theorem frameIndex_inj {x' y' ch' : Nat} (hx : x < w) (hx' : x' < w) (hch : ch < c) (hch' : ch' < c)
    (h : frameIndex w c x y ch = frameIndex w c x' y' ch') : x = x' ∧ y = y' ∧ ch = ch' := by
  obtain ⟨hpixel, hch⟩ := mul_add_inj hch hch' h
  obtain ⟨hy, hx⟩ := mul_add_inj hx hx' hpixel
  exact ⟨hx, hy, hch⟩

/-- The block of a frame a sample (x, y, ch) lies in, where it is complete. -/
def blockOf (x y ch : Nat) : BlockPos := { row := y / 8, col := x / 8, ch }

/-- A sample of the frame lies in no other block than its own, and at one place in it. -/
theorem BlockPos.index_eq_frameIndex_iff {p : BlockPos} {i : Nat} (hp : p ∈ frameBlocks w h c) (hi : i < 64)
    (hx : x < w) (hch : ch < c) :
    p.index w c i = frameIndex w c x y ch ↔ p = blockOf x y ch ∧ i = 8 * (y % 8) + x % 8 := by
  obtain ⟨row, col, ch'⟩ := p
  obtain ⟨-, hcol, hch'⟩ := mem_frameBlocks.1 hp
  dsimp only at hcol hch'
  constructor
  · intro heq
    obtain ⟨hx', hy', rfl⟩ := frameIndex_inj (by dsimp only; omega) hx hch' hch heq
    dsimp only at hx' hy'
    rw [blockOf, BlockPos.mk.injEq]
    omega
  · rintro ⟨hblock, rfl⟩
    obtain ⟨rfl, rfl, rfl⟩ := BlockPos.mk.inj hblock
    have hx' : 8 * (x / 8) + (8 * (y % 8) + x % 8) % 8 = x := by omega
    have hy' : 8 * (y / 8) + (8 * (y % 8) + x % 8) / 8 = y := by omega
    rw [BlockPos.index, hx', hy']

/-! The frame put out, sample by sample (44_transform.md R370, R372). -/

/-- An element of a list after a sequence of writes, of which some put `v` there and the others leave it. -/
theorem foldl_write_getD {α β : Type} {write : List α → β → List α} {d v : α} {k : Nat} {hit : β → Prop}
    [DecidablePred hit] {l : List β} (hlen : ∀ o b, (write o b).length = o.length)
    (hwrite : ∀ o, ∀ b ∈ l, k < o.length → (write o b).getD k d = if hit b then v else o.getD k d)
    {o : List α} (hk : k < o.length) :
    (l.foldl write o).getD k d = if ∃ b ∈ l, hit b then v else o.getD k d := by
  induction l generalizing o with
  | nil => simp
  | cons b l ih =>
    rw [List.foldl_cons, ih (fun o b hb => hwrite o b (List.mem_cons_of_mem _ hb)) (by rwa [hlen]),
      hwrite o b List.mem_cons_self hk]
    by_cases hb : hit b <;> simp [hb]

theorem putBlock_getD {p : BlockPos} (hp : p ∈ frameBlocks w h c) (hx : x < w) (hch : ch < c) {out : List Byte}
    (hk : frameIndex w c x y ch < out.length) (samples : List Byte) :
    (putBlock w c p out samples).getD (frameIndex w c x y ch) 0 =
      if p = blockOf x y ch then samples.getD (8 * (y % 8) + x % 8) 0
      else out.getD (frameIndex w c x y ch) 0 := by
  have hplace {i : Nat} (hi : i ∈ List.range 64) :=
    BlockPos.index_eq_frameIndex_iff (y := y) hp (List.mem_range.1 hi) hx hch
  have hi : 8 * (y % 8) + x % 8 ∈ List.range 64 := List.mem_range.2 (by omega)
  refine (foldl_write_getD (hit := fun i => p.index w c i = frameIndex w c x y ch) (fun _ _ => List.length_set)
    (fun o i hi hk => ?_) hk).trans (if_congr ?_ rfl rfl)
  · rw [List.getD_eq_getElem _ _ (by rwa [List.length_set]), List.getElem_set, ← List.getD_eq_getElem _ 0]
    split_ifs with heq
    · rw [((hplace hi).1 heq).2]
    · rfl
  · exact ⟨fun ⟨_, hi, heq⟩ => ((hplace hi).1 heq).1, fun hblock => ⟨_, hi, (hplace hi).2 ⟨hblock, rfl⟩⟩⟩

theorem frameLoop_out_getD (P : List Byte) (lim : Nat) (coef : List Word) (hx : x < w) (hch : ch < c)
    (hk : frameIndex w c x y ch < P.length) :
    (frameLoop P w h c lim coef).out.getD (frameIndex w c x y ch) 0 =
      if blockOf x y ch ∈ frameBlocks w h c then
        (filteredBlock P w c lim (blockOf x y ch)).getD (8 * (y % 8) + x % 8) 0
      else P.getD (frameIndex w c x y ch) 0 := by
  rw [frameLoop, foldl_frameTurn_out]
  refine (foldl_write_getD (v := (filteredBlock P w c lim (blockOf x y ch)).getD (8 * (y % 8) + x % 8) 0)
    (hit := (· = blockOf x y ch)) (fun _ _ => putBlock_length _ _ _ _ _) (fun o p hp hk => ?_) hk).trans
    (if_congr ?_ rfl rfl)
  · rw [putBlock_getD hp hx hch hk]
    split_ifs with hblock
    · rw [hblock]
    · rfl
  · simp

end

/-! The outcomes of DCT_FRAME (44_transform.md R370, 60_exceptions.md R410). -/

section
variable {s : State}

/-- The state a successful DCT_FRAME leaves, from what its loops carried. -/
def State.frameWritten (s : State) (r : FrameAcc) : State :=
  State.completeOk { s.writeMem s.dst r.out with coef := r.coef, res := s.res.transformed r.zt r.nb }
    s.frameBytes (8 * s.frameBytes)

theorem State.frameWritten_eq {r : FrameAcc} {q : List Word} {z n : Nat} (hq : r.coef = q) (hz : r.zt = z)
    (hn : r.nb = n) :
    s.frameWritten r =
      { s with
        lmem := (s.frameWritten r).lmem
        coef := q
        pending := none
        status := { s.status with done := true }
        res :=
          { s.res with
            outLen := BitVec.ofNat 32 s.frameBytes
            bitCount := BitVec.ofNat 32 (8 * s.frameBytes)
            zeroCount := BitVec.ofNat 32 z
            keptCount := BitVec.ofNat 32 (64 * n - z)
            blockCount := BitVec.ofNat 32 n } } := by
  subst hq hz hn
  rfl

theorem State.readByte_frameWritten (s : State) (r : FrameAcc) (a : Nat) :
    (s.frameWritten r).readByte a = (s.writeMem s.dst r.out).readByte a := State.readByte_congr rfl rfl a

theorem State.readByte_frameWritten_index (s : State) {x y ch : Nat} (hx : x < s.frameW) (hch : ch < s.frameC)
    (hk : frameIndex s.frameW s.frameC x y ch < s.frameBytes) :
    (s.frameWritten (frameLoop (s.readMem s.src s.frameBytes) s.frameW s.frameH s.frameC s.limit s.coef)).readByte
        (s.dst + frameIndex s.frameW s.frameC x y ch) =
      if blockOf x y ch ∈ frameBlocks s.frameW s.frameH s.frameC then
        (filteredBlock (s.readMem s.src s.frameBytes) s.frameW s.frameC s.limit (blockOf x y ch)).getD
          (8 * (y % 8) + x % 8) 0
      else s.readByte (s.src + frameIndex s.frameW s.frameC x y ch) := by
  have hlen : frameIndex s.frameW s.frameC x y ch < (s.readMem s.src s.frameBytes).length := by
    rwa [State.readMem_length]
  have hsource : (s.readMem s.src s.frameBytes).getD (frameIndex s.frameW s.frameC x y ch) 0 =
      s.readByte (s.src + frameIndex s.frameW s.frameC x y ch) := map_range_getD _ _ hk
  rw [State.readByte_frameWritten, State.readByte_writeMem,
    if_pos ⟨Nat.le_add_right _ _, Nat.add_lt_add_left (by rwa [frameLoop_out_length]) _⟩, Nat.add_sub_cancel_left,
    frameLoop_out_getD _ _ _ hx hch hlen, hsource]

theorem exec_dctFrame_of_badChannels (h : s.frameC = 0 ∨ 4 < s.frameC) :
    exec .dctFrame s = .next (s.completeErr .badParameter) :=
  if_pos (by simpa using h)

theorem State.frame_inRange (hsrc : s.src + s.frameBytes ≤ s.params.lmemSize)
    (hdst : s.dst + s.frameBytes ≤ s.params.lmemSize) :
    ¬(!(s.inRange s.src s.frameBytes && s.inRange s.dst s.frameBytes)) = true := by
  rw [(s.inRange_iff _ _).2 hsrc, (s.inRange_iff _ _).2 hdst]
  decide

section
variable (hpos : 1 ≤ s.frameC) (hle : s.frameC ≤ 4)
include hpos hle

theorem State.not_badChannels : ¬(decide (s.frameC < 1) || decide (4 < s.frameC)) = true := by
  simp only [Bool.or_eq_true, decide_eq_true_eq]
  omega

theorem exec_dctFrame_of_outOfRange
    (h : s.params.lmemSize < s.src + s.frameBytes ∨ s.params.lmemSize < s.dst + s.frameBytes) :
    exec .dctFrame s = .next (s.completeErr .addressRange) := by
  refine (if_neg (State.not_badChannels hpos hle)).trans (if_pos ?_)
  rcases h with h | h <;> simp [State.inRange_eq_false h]

variable (hsrc : s.src + s.frameBytes ≤ s.params.lmemSize) (hdst : s.dst + s.frameBytes ≤ s.params.lmemSize)
include hsrc hdst

theorem exec_dctFrame_of_overlap (hne : s.src ≠ s.dst) (h : overlap s.src s.frameBytes s.dst s.frameBytes = true) :
    exec .dctFrame s = .next (s.completeErr .regionOverlap) :=
  (if_neg (State.not_badChannels hpos hle)).trans
    ((if_neg (State.frame_inRange hsrc hdst)).trans (if_pos (by simp [hne, h])))

theorem exec_dctFrame_ok (h : s.src = s.dst ∨ overlap s.src s.frameBytes s.dst s.frameBytes = false) :
    exec .dctFrame s = .next (s.frameWritten
      (frameLoop (s.readMem s.src s.frameBytes) s.frameW s.frameH s.frameC s.limit s.coef)) :=
  (if_neg (State.not_badChannels hpos hle)).trans
    ((if_neg (State.frame_inRange hsrc hdst)).trans (if_neg (by rcases h with h | h <;> simp [h])))

end

end

/-- Settles O55: the three guards in their order. -/
theorem dctFrameErrors : Obligations.DctFrameErrors :=
  fun _ => ⟨exec_dctFrame_of_badChannels, exec_dctFrame_of_outOfRange,
    fun hpos hle hsrc hdst hne hbytes hsd hds => exec_dctFrame_of_overlap hpos hle hsrc hdst hne
      ((overlap_iff _ _ _ _).2 ⟨hbytes, hbytes, hsd, hds⟩)⟩

/-- Settles O56: what the loops carry, and the frame they put out sample by sample. -/
theorem dctFrameFiltersEveryBlock : Obligations.DctFrameFiltersEveryBlock := by
  intro s hpos hle hsrc hdst hregions
  have hno : s.src = s.dst ∨ overlap s.src s.frameBytes s.dst s.frameBytes = false := by
    refine hregions.imp_right fun h => Bool.eq_false_iff.2 fun hover => ?_
    rw [overlap_iff] at hover
    omega
  refine ⟨_, _, _, rfl, rfl, rfl, _, exec_dctFrame_ok hpos hle hsrc hdst hno, State.frameWritten_eq ?_ ?_ ?_,
    fun x hx y hy ch hch => ?_, fun a ha => ?_⟩
  · exact foldl_frameTurn_coef _ _ _ _ _ _
  · exact frameLoop_zt _ _ _ _ _ _
  · rw [← frameBlocks_length]
    exact (foldl_frameTurn_nb _ _ _ _ _ _).trans (Nat.zero_add _)
  · have hk : frameIndex s.frameW s.frameC x y ch < s.frameBytes := frameIndex_lt hx hy hch
    have hread := s.readByte_frameWritten_index (hk := hk) hx hch
    refine ⟨fun hx' hy' => hread.trans (if_pos ?_), fun hedge => hread.trans (if_neg ?_)⟩
    · rw [mem_frameBlocks, blockOf]
      dsimp only
      omega
    · rw [mem_frameBlocks, blockOf]
      dsimp only
      omega
  · rw [State.readByte_frameWritten, State.readByte_writeMem, if_neg]
    rw [frameLoop_out_length, State.readMem_length]
    omega

end Sys2Proof.Machine

/-! Errors are precise (O10), and the interrupt output (O11). -/

namespace Sys2Proof.Machine

section
variable {s t : State} {i : Instr}

/-- A command without an error state of its own succeeds, or fails before it changed anything (60_exceptions.md R420). -/
theorem Completes.completed_or_refused (h : Completes s i t)
    (hi : i ∉ [Instr.hufTree, .hufEncode, .hufDecode, .lzwEncode, .lzwDecode]) :
    t.status = s.status.completed ∨ ∃ e : ErrCode, t = s.completeErr e := by
  cases h with
  | refusedEarly _ e => exact .inr ⟨e, rfl⟩
  | hufTreeEmpty | hufEncodeEmpty | hufEncodeOverflow | hufDecodeFailed => exact absurd hi (by decide)
  | lzwFailed _ hlzw => rcases hlzw with rfl | rfl <;> exact absurd hi (by decide)
  | _ => exact .inl rfl

theorem Completes.done (h : Completes s i t) : t.status.done = true := by
  rcases h.status with hok | ⟨e, hfail, -⟩
  · rw [hok, Status.completed_done]
  · rw [hfail, Status.failed_done]

theorem irq_eq_true_iff : irq s = true ↔ s.irqEn = true ∧ s.status.done = true := Bool.and_eq_true_iff

theorem irq_of_done (h : s.status.done = true) : irq s = s.irqEn := by rw [irq, h, Bool.and_true]

theorem irq_of_not_done (h : s.status.done = false) : irq s = false := by rw [irq, h, Bool.and_false]

theorem State.writeStatus_done_of_bit1 {v : Word} (hv : v.getLsbD 1 = true) : (s.writeStatus v).status.done = false := by
  rw [State.writeStatus, hv, Bool.not_true, Bool.and_false]

end

/-- Settles O10: a success leaves ERR 0, and every failure of these commands is taken before a change. -/
theorem plainErrorsArePrecise : Obligations.PlainErrorsArePrecise := by
  intro i s t h hs ht hi
  refine ((completes_of_exec h).completed_or_refused hi).resolve_left fun hok => ?_
  rw [hok, Status.completed_err, hs] at ht
  exact Bool.noConfusion ht

/-- Settles O11: a completion sets DONE, a launch and an acknowledge clear it, and a write of CTRL leaves it. -/
theorem interruptFollowsDone : Obligations.InterruptFollowsDone := by
  refine ⟨fun s => irq_eq_true_iff, fun i s t h => ?_, fun s hrst hdone => ?_, fun s v hrst hb => ?_, fun s hrst => ?_⟩
  · have hc := completes_of_exec h
    obtain ⟨hirqEn, -⟩ := hc.control
    exact (irq_of_done hc.done).trans hirqEn
  · have hw : s.hostWrite 0x00004 .w32 0x2 = { s with irqEn := true } :=
      (State.hostWrite_reg hrst .ctrl (.inr (.inl rfl)) 2).trans (s.writeCtrl_of_bit0_clear rfl)
    exact (congrArg irq hw).trans (irq_of_done hdone)
  · have hw : s.hostWrite 0x0000C .w32 v = s.launch v := State.hostWrite_reg hrst .cmd (.inl hb) v
    rw [hw, irq_of_not_done (by rw [State.launch_status, Status.launched_done])]
  · have hw : s.hostWrite 0x00008 .w32 0xE = s.writeStatus 0xE :=
      State.hostWrite_reg hrst .status (.inr (.inr rfl)) 0xE
    rw [hw, irq_of_not_done (State.writeStatus_done_of_bit1 rfl)]

end Sys2Proof.Machine

/-! Accesses of the host port while a command is pending (O13, O14). -/

namespace Sys2Proof.Machine

section
variable {s : State} {off : BitVec 20} {w : Width} {r : Reg}

/-- The bytes of CTRL and STATUS (70_reset_and_hazards.md R470). -/
theorem toCtrlOrStatus_eq_false_iff {off : Nat} : toCtrlOrStatus off = false ↔ off < 0x004 ∨ 0x00C ≤ off := by
  rw [toCtrlOrStatus, Bool.and_eq_false_iff, decide_eq_false_iff_not, decide_eq_false_iff_not]
  simp only [Reg.offset]
  omega

/-- The registers that stay readable (70_reset_and_hazards.md R471). -/
theorem Reg.readableBusy_iff :
    r.readableBusy = true ↔
      r ∈ [Reg.id, .ctrl, .status, .cmd, .srcAddr, .srcLen, .dstAddr, .dstCap, .magLimit, .blkStride, .blkStep,
        .frameW, .frameH, .frameC, .codeSel, .bsPad] := by
  refine ⟨fun h => ?_, by revert r; decide⟩
  cases r with
  | id | ctrl | status | cmd | srcAddr | srcLen | dstAddr | dstCap | magLimit | blkStride | blkStep | frameW | frameH
  | frameC | codeSel | bsPad => decide
  | _ => cases h

section
variable (hrst : s.rstN = true) (hb : s.busy = true)
include hrst hb

/-- A write while busy outside CTRL and STATUS only leaves its mark in STATUS (70_reset_and_hazards.md R470). -/
theorem State.hostWrite_busy (hoff : toCtrlOrStatus off.toNat = false) (v : Word) :
    s.hostWrite off w v = { s with status := { s.status with wrWhileBusy := true } } := by
  simp [State.hostWrite, hrst, hb, hoff]

theorem State.hostRead_busy_hidden (hr : r.readableBusy = false) :
    s.hostRead (BitVec.ofNat 20 r.offset) .w32 = s.readDraw .w32 := by
  simp [State.hostRead, hrst, hb, hr, r.offset_toNat, r.offset_lt,
    State.accepts_below_window r.offset_lt r.offset_aligned, regAt_offset]

theorem State.hostRead_busy_window (hoff : lmemWindow ≤ off.toNat) (hacc : s.accepts off.toNat w = true) :
    s.hostRead off w = s.readDraw w := by
  simp [State.hostRead, hrst, hb, hacc, Nat.not_lt.2 hoff]

end

theorem State.hostWrite_ctrl_of_bit0_set (hrst : s.rstN = true) {v : Word} (hv : v.getLsbD 0 = true) :
    s.hostWrite 0x00004 .w32 v = s.softReset :=
  (State.hostWrite_reg hrst .ctrl (.inr (.inl rfl)) v).trans (if_pos hv)

end

/-- Settles O13: the port drops the write, unless its offset lies in the bytes of CTRL and STATUS. -/
theorem writesWhileBusyAreDropped : Obligations.WritesWhileBusyAreDropped := fun s hrst hb =>
  ⟨fun _ _ v hoff => State.hostWrite_busy hrst hb (toCtrlOrStatus_eq_false_iff.2 hoff) v,
    fun _ hv => State.hostWrite_ctrl_of_bit0_set hrst hv,
    fun v hv => (State.hostWrite_reg hrst .ctrl (.inr (.inl rfl)) v).trans (s.writeCtrl_of_bit0_clear hv),
    fun v => State.hostWrite_reg hrst .status (.inr (.inr rfl)) v⟩

/-- Settles O14: a hidden register and the window give a draw, and no read touches more than the value and the draws. -/
theorem readsWhileBusy : Obligations.ReadsWhileBusy := by
  refine ⟨State.hostRead_frame, fun s hrst hb => ⟨fun r hr => State.hostRead_reg hrst r (.inr hr),
    fun r hr => State.hostRead_busy_hidden hrst hb hr, fun off w hoff hal hfit => ?_, fun r => r.readableBusy_iff⟩⟩
  have hacc : s.accepts off.toNat w = true := by
    simp [State.accepts, lmemWindow, Nat.not_lt.2 hoff, hal, hfit]
  exact State.hostRead_busy_window hrst hb hoff hacc

end Sys2Proof.Machine

/-! The soft reset (O20), the abort of a pending command (O21), and the hardware reset (O22). -/

namespace Sys2Proof.Machine

section
variable {s : State} {r : Reg} {i : Instr} {w : Word} {a : Nat}

/-! The registers after a reset (10_state.md R80): LMEM, the parameters and the model's own fields are no part of them. -/

theorem readReg_cleared (hr : r ≠ .id) : readReg s.cleared r = 0 := by
  have hreset : readReg s.cleared r = readReg State.reset r := by cases r <;> rfl
  exact hreset.trans (readReg_reset hr)

/-- A hardware reset clears the registers at either level of rst_n (70_reset_and_hazards.md R451). -/
theorem readReg_hardReset (level : Bool) (hr : r ≠ .id) : readReg { s.hardReset with rstN := level } r = 0 :=
  readReg_cleared (s := { s with lmem := [], rstN := level, epoch := s.epoch + 1 }) hr

/-! The abort (70_reset_and_hazards.md R453). -/

theorem State.abort_of_idle (hp : s.pending = none) : s.abort = s := by
  rw [State.abort, hp]

theorem State.abort_of_decoded (hp : s.pending = some w) (hd : decode w = .ok i) :
    s.abort = s.spoil (abortAddrs i s) := by
  simp only [State.abort, hp, hd]

theorem State.abort_of_illegal (hp : s.pending = some w) (hd : ∀ i, decode w ≠ .ok i) : s.abort = s := by
  simp only [State.abort, hp]
  split
  · rfl
  · exact absurd ‹_› (hd _)

/-- An abort changes LMEM and the count of draws only. -/
theorem State.abort_frame (s : State) : s.abort = { s with lmem := s.abort.lmem, draws := s.abort.draws } := by
  unfold State.abort
  split
  · rfl
  · split <;> rfl

/-- What an abort spoils is the destination region, when that passes its range check (log 8). -/
theorem abortAddrs_eq (i : Instr) (s : State) :
    abortAddrs i s = if s.inRange s.dst (s.destSize i) then s.destAddrs i else [] := by
  cases i with
  | bsFlush | hufEncode | hufDecode | lzwEncode | lzwDecode | dctInv | dctBlock | dctFrame => rfl
  | _ => exact (ite_self _).symm

theorem mem_abortAddrs : a ∈ abortAddrs i s ↔ a ∈ s.destAddrs i ∧ s.dst + s.destSize i ≤ s.params.lmemSize := by
  rw [abortAddrs_eq, ← State.inRange_iff]
  split_ifs with hin <;> simp [hin]

/-! The soft reset (70_reset_and_hazards.md R452). -/

theorem State.softReset_params (s : State) : s.softReset.params = s.params := by
  rw [State.softReset, State.cleared_params, State.abort_frame]

/-- Only the abort inside a soft reset touches LMEM. -/
theorem State.readByte_softReset (s : State) (a : Nat) : s.softReset.readByte a = s.abort.readByte a :=
  State.readByte_congr rfl rfl a

/-! The hardware reset (70_reset_and_hazards.md R451). -/

theorem State.resetPin_rise (hlow : s.rstN = false) : s.resetPin true = { s.hardReset with rstN := true } := by
  simp [State.resetPin, hlow]

theorem State.hostWrite_held (hlow : s.rstN = false) (off : BitVec 20) (w : Width) (v : Word) :
    s.hostWrite off w v = s := by
  simp [State.hostWrite, hlow]

theorem State.hostRead_held (hlow : s.rstN = false) (off : BitVec 20) (w : Width) :
    s.hostRead off w = s.readDraw w := by
  simp [State.hostRead, hlow]

end

/-- Settles O20: an abort changes no register, the rest of the reset clears them all, and an idle machine has nothing to abort. -/
theorem softResetClearsAllButLmem : Obligations.SoftResetClearsAllButLmem := by
  intro s v hrst hv
  rw [State.hostWrite_ctrl_of_bit0_set hrst hv]
  refine ⟨fun _ hr => readReg_cleared hr, rfl, rfl, rfl, rfl, s.softReset_params, fun hp a => ?_⟩
  rw [State.readByte_softReset, State.abort_of_idle hp]

/-- Settles O21: the abort spoils the destination addresses, under their range check, and the reset clears DONE. -/
theorem abortSpoilsOnlyTheDestination : Obligations.AbortSpoilsOnlyTheDestination := by
  intro s w v hrst hp hv
  rw [State.hostWrite_ctrl_of_bit0_set hrst hv]
  refine ⟨irq_of_not_done rfl, rfl, fun i hd a ha => ?_, fun i hd a ha hfit => ?_, fun hd a => ?_⟩
  · have hout : a ∉ abortAddrs i s := fun hmem => by
      obtain ⟨hdst, hfit⟩ := mem_abortAddrs.1 hmem
      exact (ha hdst).not_ge hfit
    rw [State.readByte_softReset, State.abort_of_decoded hp hd, State.readByte_spoil_of_notMem _ _ _ hout]
  · rw [State.readByte_softReset, State.abort_of_decoded hp hd]
    exact State.readByte_spoil_of_mem (mem_abortAddrs.2 ⟨ha, hfit⟩)
  · rw [State.readByte_softReset, State.abort_of_illegal hp hd]

/-- Settles O22: at either level the pin leaves a hardware reset, and the port is shut while the level is low. -/
theorem hardResetHoldsTheResetState : Obligations.HardResetHoldsTheResetState := by
  intro s
  have hrise := State.resetPin_rise (s := s.resetPin false) rfl
  rw [hrise]
  refine ⟨fun _ hr => readReg_hardReset false hr, rfl, rfl, fun off w v => State.hostWrite_held rfl off w v,
    fun off w => ?_, fun _ hr => readReg_hardReset true hr, rfl, rfl, s.epoch + 1 + 1, fun _ => rfl⟩
  rw [State.hostRead_held rfl]
  rfl

end Sys2Proof.Machine
